-- ==== Sys2Proof/Word.lean ====
section
/-! DEFINITION. The word types of the block: bytes, lengths and positions (`LENW` = 16 bits), tick
counts (`TIMW` = 16 bits) and 7-bit bus addresses (00_scope.md R9, 92_eei_decisions.md D2, D17). -/

namespace Sys2Proof

/-- A byte of a buffer or of a frame (R13). -/
abbrev Byte := BitVec 8

/-- A length, offset or position, `LENW` = 16 bits (R9, D17). -/
abbrev Len := BitVec 16

/-- A timeout or remaining-ticks count, `TIMW` = 16 bits (R9, R196, D17). -/
abbrev Ticks := BitVec 16

/-- A bus address `a7`, 7 bits (R31, D2). -/
abbrev BusAddr := BitVec 7

/-- A current of the MotorController, in the source's unstated unit; 16 bits is the model's choice
(DESIGN CHOICE, unsafe; assumption log 23). -/
abbrev Current := BitVec 16

/-- The greatest value of a length or of a byte count: `2^LENW - 1` (R24, R95). -/
def lenMax : Nat := 65535

end Sys2Proof
end

