-- ==== Sys2Proof/Kinds.lean ====
section
/-! DEFINITION. The enumerations and small records the spec names (30_encoding.md R96 to R98,
41_bus_hardware.md R130, R136, 60_exceptions.md R241), shared by the configuration, the operations and
the state. -/

namespace Sys2Proof

/-- Direction bit `rw` of a transaction: `write` is 0, a master write; `read` is 1, a master read
(R90, R132). -/
inductive BusDir where
  | write
  | read
deriving DecidableEq, Repr, Inhabited

/-- Direction of a Transaction Info, from the slave's side (R97). -/
inductive TransDir where
  | send
  | receive
deriving DecidableEq, Repr, Inhabited

/-- The identity of a staging buffer, which stands in place of a pointer (R30, R97, D23). -/
inductive BufId where
  | sb
  | rxb
deriving DecidableEq, Repr, Inhabited

/-- Transaction Info: direction, buffer, number of bytes transferred (R30, R97). -/
structure TransInfo where
  dir : TransDir
  buf : BufId
  len : Len
deriving DecidableEq, Repr, Inhabited

/-- The transaction result `hw_result` (R29, R96). -/
inductive BusResult where
  | wait
  | nackSent
  | error
  | sent
  | received
deriving DecidableEq, Repr, Inhabited

/-- The two bus anomalies a `BUS_ABORT` can report (R136). -/
inductive AbortKind where
  | nackSent
  | error
deriving DecidableEq, Repr, Inhabited

/-- Motor drive mode (R220). -/
inductive DriveMode where
  | off
  | voltage
  | pwm
deriving DecidableEq, Repr, Inhabited

/-- Overcurrent state of the MotorController (R220). -/
inductive OverCurrent where
  | none
  | pwm
  | off
deriving DecidableEq, Repr, Inhabited

/-- The causes of a panic (R241). -/
inductive PanicCause where
  | allocFailure
  | outOfBounds
  | nullCallback
  | invalidArgument
deriving DecidableEq, Repr, Inhabited

/-- Which of the two hooks of the Register Buffer is invoked (R118). -/
inductive HookKind where
  | read
  | write
deriving DecidableEq, Repr, Inhabited

end Sys2Proof
end

