-- ==== Sys2Proof/Config.lean ====
section
/-! DEFINITION. What is fixed for one block: the OPEN parameters of the spec (00_scope.md R9,
43_module_layer.md R206, R210, 44_motor_controller.md R221, 92_eei_decisions.md), held as plain data so
that every statement about a state speaks of every admitted value; and the free values (`any` of R14),
opaque constants of which nothing can be proved. -/

namespace Sys2Proof

/-- What the bus hardware does when a master writes more bytes than fit (`RX_OVERFLOW`, R9, D9). -/
inductive RxOverflow where
  | truncate
  | nack
deriving DecidableEq, Repr

/-- Byte order of multi-byte fields in RB (`FIELD_ENDIAN`, R62, D28). -/
inductive Endian where
  | little
  | big
deriving DecidableEq, Repr

/-- One Register Buffer operation that a module's `write_constants` may perform (R206): the operations of
40_register_buffer.md that write, at an offset or at the cursor, and the seek that places the cursor.
DESIGN CHOICE: the list is fixed, and it reads nothing (log 24). -/
inductive ConstantWrite where
  | bytes (pos : Len) (v : List Byte)
  | atCursor (v : List Byte)
  | seek (pos : Len)
  | typed (pos w : Len) (x : Nat)
  | bit (pos : Len) (b : Byte) (v : Bool)
  | mask (pos : Len) (m v : Byte)
  | fill (v : Byte)
deriving DecidableEq, Repr

/-- One row of the decode `SEL_MODE()` of the settings byte (R221): the settings byte selects `mode`
when its bits under `mask` equal `value`. -/
structure ModeRow where
  mask : Byte
  value : Byte
  mode : DriveMode
deriving DecidableEq, Repr

/-- The OPEN parameters of one block. No step changes any of them. -/
structure Config where
  /-- a Register Buffer is bound at construction (`rb_present`, R21, R270) -/
  rbPresent : Bool
  /-- its length at construction (`rb_len`, R21, R270) -/
  rbLen : Len
  /-- `L_MAX`, the capacity of the Register Buffer memory (R9) -/
  lMax : Len
  /-- `FHDR`, the frame header bytes; their number is `H` (R9, D18) -/
  fhdr : List Byte
  /-- `CAP_TX` (R9, D12) -/
  capTx : Nat
  /-- `CAP_RX` (R9, D12) -/
  capRx : Nat
  /-- `T_RESET` (R9, D15) -/
  tReset : Ticks
  /-- `ADDR_RESET` (R9, D15) -/
  addrReset : BusAddr
  /-- `RX_OVERFLOW` (R9, D9) -/
  rxOverflow : RxOverflow
  /-- a Module wraps the Register Buffer, so that reset also sets the status byte (R270) -/
  hasModule : Bool
  /-- `SIG_FIXED[0]` (R203) -/
  sigFixed0 : Byte
  /-- `SIG_FIXED[1]` (R203) -/
  sigFixed1 : Byte
  /-- `SIG_TYPE` (R203) -/
  sigType : Byte
  /-- `HAS_HOOK` (R9, R118) -/
  hasHook : Bool
  /-- the write hook is registered as a null pointer (R118) -/
  writeHookNull : Bool
  /-- the read hook is registered as a null pointer (R118) -/
  readHookNull : Bool
  /-- the manager's own accesses fire the hooks too; the spec leaves it open (U6), both values are
  admitted -/
  hookOnManager : Bool
  /-- `FIELD_ENDIAN` (R62) -/
  fieldEndian : Endian
  /-- `LED_POS` (R210) -/
  ledPos : Len
  /-- `LED_BIT` (R210) -/
  ledBit : Byte
  /-- `POWER_POS` (R210) -/
  powerPos : Len
  /-- `POWER_BIT` (R210) -/
  powerBit : Byte
  /-- the `write_constants` capability of the module: `none` is a null capability, `some []` the base
  version that does nothing (R206) -/
  constants : Option (List ConstantWrite)
  /-- `SEL_MODE()`: the first row that matches the settings byte (R221) -/
  modeRows : List ModeRow
  /-- `SEL_MODE()` of a settings byte that no row matches -/
  modeElse : DriveMode
  /-- `RESET_BIT`, a bit number of the settings byte (R221) -/
  resetBit : Byte
  /-- the bits of the status byte that show the overcurrent state (`OC_ENCODE`, R221) -/
  ocMask : Byte
  /-- `OC_ENCODE(None)` -/
  ocNone : Byte
  /-- `OC_ENCODE(PWM)` -/
  ocPwm : Byte
  /-- `OC_ENCODE(Off)` -/
  ocOff : Byte
  /-- `PT_TIMEOUT` (R221, R222) -/
  ptTimeout : Ticks
deriving DecidableEq, Repr

/-- `H`, the length of the frame header (R9). -/
def Config.h (c : Config) : Nat := c.fhdr.length

/-- The admitted values of the parameters: `0 <= L <= L_MAX` and `L_MAX + H <= 2^LENW - 1` (R9, D17), a
buffer that carries the common header has `L >= 14` (R33), `OC_ENCODE` lies in the module-defined
bits 7:2 of the status byte (R221), `RESET_BIT` is a bit number (R221). -/
def Config.wf (c : Config) : Bool :=
  decide (c.rbLen.toNat ≤ c.lMax.toNat) && decide (c.lMax.toNat + c.h ≤ lenMax)
    && (!(c.hasModule && c.rbPresent) || decide (14 ≤ c.rbLen.toNat))
    && decide (c.ocMask &&& 0x03#8 = 0x00#8) && decide (c.resetBit.toNat ≤ 7)

/-! The free values: draw number `k` of each kind. DESIGN CHOICE (safe): a draw is an opaque constant
applied to the count of draws so far, so that a statement holds for every value of it (R14 `any`,
93_implementation_defined.md; assumption log 4). -/

/-- Byte number `i` of draw `k`: contents after a resize or a binding (U4, U8), frame bytes that do not
exist or were lost (U1, U10). -/
opaque Config.freeByte (k i : Nat) : Byte

/-- Draw `k` of the cursor (U7, R117). -/
opaque Config.freePos (k : Nat) : Len

/-- Draw `k` of `hw_last` after a reset (U5, R270). -/
opaque Config.freeInfo (k : Nat) : TransInfo

/-- Draw `k` of `hw_dir` after a reset (U5, R270). -/
opaque Config.freeDir (k : Nat) : BusDir

/-- What offset `a` of a space that does not list it reads as, in the operations that check no listing
(no state that a run reaches shows it; assumption log 6). -/
opaque Config.absentByte (a : Nat) : Byte

end Sys2Proof
end

