-- ==== Sys2Proof/Syntax.lean ====
section
/-! DEFINITION. The operations of the block, one constructor for each of the 48 rows of
spec/opcode_table.json, in the table's order. By 00_scope.md R12 an instruction of this hardware is one
operation of one agent. -/

namespace Sys2Proof

/-- Where a byte transfer of the host starts: at an offset, or at the cursor `rb_pos` (R112, R113,
R117). -/
inductive Place where
  | offset (pos : Len)
  | cursor
deriving DecidableEq, Repr

/-- The operations. -/
inductive Instr where
  /-- `MW a7 [b0 .. b(n-1)]`: a whole master write (R91, R101) -/
  | mw (a7 : BusAddr) (frame : List Byte)
  /-- `MR a7 n`: a whole master read (R92, R101) -/
  | mr (a7 : BusAddr) (n : Len)
  /-- `MWR a7 [a] n`: set the register address, then read (R101) -/
  | mwr (a7 : BusAddr) (a : Byte) (n : Len)
  /-- `BUS_START(a7, rw)` (R132) -/
  | busStart (a7 : BusAddr) (rw : BusDir)
  /-- `BUS_WBYTE(b)` (R133) -/
  | busWbyte (b : Byte)
  /-- `BUS_RBYTE` (R134) -/
  | busRbyte
  /-- `BUS_END` (R135) -/
  | busEnd
  /-- `BUS_ABORT(kind)` (R136) -/
  | busAbort (kind : AbortKind)
  /-- `HW_COMMUNICATING()` (R137) -/
  | hwCommunicating
  /-- `HW_RESULT()` (R138) -/
  | hwResult
  /-- `HW_LAST_TRANSACTION()` (R139) -/
  | hwLastTransaction
  /-- `HW_SET_CALLBACKS(received_cb, sent_cb)`; true is a non-null callback (R140) -/
  | hwSetCallbacks (receivedCb sentCb : Bool)
  /-- `HW_SET_ADDRESS(addr)`; bit 7 of the operand is not kept (R141, log 22) -/
  | hwSetAddress (addr : Byte)
  /-- `HW_SET_RECVBUFFER(buf, len)` (R142) -/
  | hwSetRecvbuffer (buf : BufId) (len : Len)
  /-- `HW_SET_SENDBUFFER(buf, len)` (R143) -/
  | hwSetSendbuffer (buf : BufId) (len : Len)
  /-- `update()` of the manager (R160) -/
  | update
  /-- `connected()` (R168) -/
  | connected
  /-- `set_timeout(ticks)` (R169) -/
  | setTimeout (ticks : Ticks)
  /-- `set_address(busAddress)`; the argument is an unsigned value, 16 bits here (R170, log 22) -/
  | setAddress (busAddress : Len)
  /-- construction of the manager on a Register Buffer of the given length, or on none (R161) -/
  | mgrConstruct (buf : Option Len)
  /-- `received(RXB, n)` (R166) -/
  | received (n : Len)
  /-- `sent(SB, n)` (R167) -/
  | sent (n : Len)
  /-- `refresh()` (R163) -/
  | refresh
  /-- `resize_send(m)` (R162) -/
  | resizeSend (m : Len)
  /-- `resize_recv(m)` (R162) -/
  | resizeRecv (m : Len)
  /-- `RB_WRITE(pos, len, v)`, also relative to the cursor (R112, R117) -/
  | rbWrite (place : Place) (len : Len) (v : List Byte)
  /-- `RB_READ(pos, len)`, also relative to the cursor (R113, R117) -/
  | rbRead (place : Place) (len : Len)
  /-- `RB_BIT_GET(pos, b)` (R114); DESIGN CHOICE: a bit number is 8 bits wide (log 22) -/
  | rbBitGet (pos : Len) (b : Byte)
  /-- `RB_BIT_SET(pos, b, v)` (R115); DESIGN CHOICE: a bit number is 8 bits wide (log 22) -/
  | rbBitSet (pos : Len) (b : Byte) (v : Bool)
  /-- `RB_MASK(pos, m, v)` (R116) -/
  | rbMask (pos : Len) (m v : Byte)
  /-- `RB_SEEK(pos)` (R117) -/
  | rbSeek (pos : Len)
  /-- a typed read (`none`) or a typed write of a value (`some v`) of `w` bytes at `pos` (R119) -/
  | rbTyped (pos w : Len) (value : Option Nat)
  /-- `RB_FILL(v)` (R120) -/
  | rbFill (v : Byte)
  /-- `LT_START()` (R190) -/
  | ltStart
  /-- `LT_ASSIGN(t)` (R191) -/
  | ltAssign (t : Ticks)
  /-- `LT_TICK` (R192) -/
  | ltTick
  /-- `LT_EXPIRED()` (R193) -/
  | ltExpired
  /-- `MOD_CONSTRUCT(hw, buf)` on a buffer of the given length (R202) -/
  | modConstruct (buf : Len)
  /-- `MOD_UPDATE()` (R205) -/
  | modUpdate
  /-- `MOD_CONNECTED()` (R204) -/
  | modConnected
  /-- `write_header()` (R203) -/
  | writeHeader
  /-- `write_constants()` (R206) -/
  | writeConstants
  /-- `set_id(id)` (R208) -/
  | setId (id : Byte)
  /-- `set_name(s, len)` (R209) -/
  | setName (s : List Byte) (len : Len)
  /-- `get_led()` (R210) -/
  | getLed
  /-- `get_power()` (R210) -/
  | getPower
  /-- `MC_UPDATE()`, with the values that `I_MEAS()` and `IMAX(mode)` take in this cycle (R221, R223,
  log 23) -/
  | mcUpdate (iMeas imaxOff imaxVoltage imaxPwm : Current)
  /-- `RESET` (R270) -/
  | reset
deriving DecidableEq, Repr

end Sys2Proof
end

