-- ==== Sys2Proof/WellFormed.lean ====
section
/-! DEFINITION. The checks an operation's operands must pass to be an operation at all: a length operand
says how many bytes stand beside it, and no length exceeds `2^LENW - 1` (R95). -/

namespace Sys2Proof

/-- The frame of a master write has at most `2^LENW - 1` bytes (R24, U9); the bytes given to
`RB_WRITE` and `set_name` are as many as the length says (R112, R209); a typed value fits its width
(R119). Every other operand is held by its type. -/
def Instr.wellFormed : Instr → Bool
  | .mw _ frame => decide (frame.length ≤ lenMax)
  | .mr _ _ => true
  | .mwr _ _ _ => true
  | .busStart _ _ => true
  | .busWbyte _ => true
  | .busRbyte => true
  | .busEnd => true
  | .busAbort _ => true
  | .hwCommunicating => true
  | .hwResult => true
  | .hwLastTransaction => true
  | .hwSetCallbacks _ _ => true
  | .hwSetAddress _ => true
  | .hwSetRecvbuffer _ _ => true
  | .hwSetSendbuffer _ _ => true
  | .update => true
  | .connected => true
  | .setTimeout _ => true
  | .setAddress _ => true
  | .mgrConstruct _ => true
  | .received _ => true
  | .sent _ => true
  | .refresh => true
  | .resizeSend _ => true
  | .resizeRecv _ => true
  | .rbWrite _ len v => decide (v.length = len.toNat)
  | .rbRead _ _ => true
  | .rbBitGet _ _ => true
  | .rbBitSet _ _ _ => true
  | .rbMask _ _ _ => true
  | .rbSeek _ => true
  | .rbTyped _ w value =>
    match value with
    | none => true
    | some v => decide (v < 256 ^ w.toNat)
  | .rbFill _ => true
  | .ltStart => true
  | .ltAssign _ => true
  | .ltTick => true
  | .ltExpired => true
  | .modConstruct _ => true
  | .modUpdate => true
  | .modConnected => true
  | .writeHeader => true
  | .writeConstants => true
  | .setId _ => true
  | .setName s len => decide (s.length = len.toNat)
  | .getLed => true
  | .getPower => true
  | .mcUpdate _ _ _ _ => true
  | .reset => true

end Sys2Proof
end

