-- ==== Sys2Proof/Decode.lean ====
section
/-! DEFINITION. Decoding and encoding of operation records. The block has no instruction stream (R12, R23):
the spec encodes the wire frames (R91, R92, R101) and the address byte `(a7 << 1) | rw` (R94, R132),
and names every other operation without numbers. The model hands operations to the block as records
of bytes: a first byte, the number of the operation's row in spec/opcode_table.json counted from 1,
then its operands in the order of its constructor; wire frames and starts carry the wire bytes of R91,
R92, R94 as they are; a length or position is two bytes, low byte first; a byte sequence is preceded
by its length (DESIGN CHOICE, assumption log 1). -/

namespace Sys2Proof

/-- Why the input stream holds no operation at its front. -/
inductive DecodeError where
  /-- the stream is empty: nothing is offered -/
  | noInput
  /-- no row of the table has this number -/
  | unknownOperation (op : Byte)
  /-- the stream ends inside a record -/
  | truncated
  /-- a field holds a value that means nothing -/
  | badField
deriving DecidableEq, Repr

/-! ## Bytes of lengths, values and addresses -/

/-- The two bytes of a 16-bit value, low byte first. -/
def lenBytes (x : BitVec 16) : List Byte := [x.extractLsb' 0 8, x.extractLsb' 8 8]

/-- The 16-bit value whose bytes are `lo` and `hi`. -/
def lenOfBytes (lo hi : Byte) : BitVec 16 := hi ++ lo

/-- The `w` bytes of a value, least significant first. -/
def bytesOfNat : (w v : Nat) → List Byte
  | 0, _ => []
  | w + 1, v => BitVec.ofNat 8 v :: bytesOfNat w (v / 256)

/-- The value whose bytes are given, least significant first. -/
def natOfBytes : List Byte → Nat
  | [] => 0
  | b :: bs => b.toNat + 256 * natOfBytes bs

/-- Bit `rw` of the address byte: 0 for a master write, 1 for a master read (R94). -/
def BusDir.bit : BusDir → BitVec 1
  | .write => 0
  | .read => 1

/-- The address byte `(a7 << 1) | rw` (R94, R132). -/
def addressByte (a7 : BusAddr) (rw : BusDir) : Byte := a7 ++ rw.bit

/-- The two fields of an address byte (R94). -/
def splitAddress (b : Byte) : BusAddr × BusDir :=
  (b.extractLsb' 1 7, if b.getLsbD 0 then .read else .write)

/-- Code of an anomaly: `NACKSent` 1, `Error` 2 (R96, D5). -/
def AbortKind.code : AbortKind → Byte
  | .nackSent => 1
  | .error => 2

/-- Code of a buffer name in a record (log 1). -/
def BufId.code : BufId → Byte
  | .sb => 0
  | .rxb => 1

/-- Byte of a truth value in a record. -/
def boolByte (b : Bool) : Byte := if b then 1 else 0

/-! ## Reading one field of a record -/

/-- Takes one byte. -/
def withByte {α : Type} (bs : List Byte) (k : Byte → List Byte → Except DecodeError α) :
    Except DecodeError α :=
  match bs with
  | [] => .error .truncated
  | b :: rest => k b rest

/-- Takes a two-byte length, position or tick count. -/
def withLen {α : Type} (bs : List Byte) (k : Len → List Byte → Except DecodeError α) :
    Except DecodeError α :=
  withByte bs fun lo rest => withByte rest fun hi rest => k (lenOfBytes lo hi) rest

/-- Takes `n` bytes. -/
def withBytes {α : Type} (n : Nat) (bs : List Byte)
    (k : List Byte → List Byte → Except DecodeError α) : Except DecodeError α :=
  if bs.length < n then .error .truncated else k (bs.take n) (bs.drop n)

/-- Takes a truth value. -/
def withBool {α : Type} (bs : List Byte) (k : Bool → List Byte → Except DecodeError α) :
    Except DecodeError α :=
  withByte bs fun b rest =>
    if b = 0 then k false rest else if b = 1 then k true rest else .error .badField

/-- Takes a buffer name. -/
def withBuf {α : Type} (bs : List Byte) (k : BufId → List Byte → Except DecodeError α) :
    Except DecodeError α :=
  withByte bs fun b rest =>
    if b = 0 then k .sb rest else if b = 1 then k .rxb rest else .error .badField

/-- Takes the code of an anomaly (R96). -/
def withKind {α : Type} (bs : List Byte) (k : AbortKind → List Byte → Except DecodeError α) :
    Except DecodeError α :=
  withByte bs fun b rest =>
    if b = 1 then k .nackSent rest else if b = 2 then k .error rest else .error .badField

/-- Takes an address byte (R94). -/
def withAddress {α : Type} (bs : List Byte)
    (k : BusAddr → BusDir → List Byte → Except DecodeError α) : Except DecodeError α :=
  withByte bs fun b rest => k (splitAddress b).1 (splitAddress b).2 rest

/-- Takes an address byte whose direction is the one the frame requires. -/
def withAddressFor {α : Type} (rw : BusDir) (bs : List Byte)
    (k : BusAddr → List Byte → Except DecodeError α) : Except DecodeError α :=
  withAddress bs fun a7 rw' rest => if rw' = rw then k a7 rest else .error .badField

/-- Takes the place of a transfer: 0 and an offset, or 1 for the cursor. -/
def withPlace {α : Type} (bs : List Byte) (k : Place → List Byte → Except DecodeError α) :
    Except DecodeError α :=
  withBool bs fun cursor rest =>
    if cursor then k .cursor rest else withLen rest fun pos rest => k (.offset pos) rest

/-- Takes an optional length: 0, or 1 and the length. -/
def withOptLen {α : Type} (bs : List Byte) (k : Option Len → List Byte → Except DecodeError α) :
    Except DecodeError α :=
  withBool bs fun present rest =>
    if present then withLen rest fun len rest => k (some len) rest else k none rest

/-! ## Decoding -/

/-- The operation whose row has number `op` and whose operands begin `bs`, and the bytes after it. -/
def decodeOperands (op : Byte) (bs : List Byte) : Except DecodeError (Instr × List Byte) :=
  match op.toNat with
  | 1 => withAddressFor .write bs fun a7 r => withLen r fun n r =>
      withBytes n.toNat r fun frame r => .ok (.mw a7 frame, r)
  | 2 => withAddressFor .read bs fun a7 r => withLen r fun n r => .ok (.mr a7 n, r)
  | 3 => withAddressFor .write bs fun a7 r => withByte r fun a r =>
      withAddressFor .read r fun a7' r => withLen r fun n r =>
        if a7' = a7 then .ok (.mwr a7 a n, r) else .error .badField
  | 4 => withAddress bs fun a7 rw r => .ok (.busStart a7 rw, r)
  | 5 => withByte bs fun b r => .ok (.busWbyte b, r)
  | 6 => .ok (.busRbyte, bs)
  | 7 => .ok (.busEnd, bs)
  | 8 => withKind bs fun kind r => .ok (.busAbort kind, r)
  | 9 => .ok (.hwCommunicating, bs)
  | 10 => .ok (.hwResult, bs)
  | 11 => .ok (.hwLastTransaction, bs)
  | 12 => withBool bs fun rcb r => withBool r fun scb r => .ok (.hwSetCallbacks rcb scb, r)
  | 13 => withByte bs fun a r => .ok (.hwSetAddress a, r)
  | 14 => withBuf bs fun buf r => withLen r fun len r => .ok (.hwSetRecvbuffer buf len, r)
  | 15 => withBuf bs fun buf r => withLen r fun len r => .ok (.hwSetSendbuffer buf len, r)
  | 16 => .ok (.update, bs)
  | 17 => .ok (.connected, bs)
  | 18 => withLen bs fun t r => .ok (.setTimeout t, r)
  | 19 => withLen bs fun a r => .ok (.setAddress a, r)
  | 20 => withOptLen bs fun buf r => .ok (.mgrConstruct buf, r)
  | 21 => withLen bs fun n r => .ok (.received n, r)
  | 22 => withLen bs fun n r => .ok (.sent n, r)
  | 23 => .ok (.refresh, bs)
  | 24 => withLen bs fun m r => .ok (.resizeSend m, r)
  | 25 => withLen bs fun m r => .ok (.resizeRecv m, r)
  | 26 => withPlace bs fun place r => withLen r fun len r =>
      withBytes len.toNat r fun v r => .ok (.rbWrite place len v, r)
  | 27 => withPlace bs fun place r => withLen r fun len r => .ok (.rbRead place len, r)
  | 28 => withLen bs fun pos r => withByte r fun b r => .ok (.rbBitGet pos b, r)
  | 29 => withLen bs fun pos r => withByte r fun b r => withBool r fun v r =>
      .ok (.rbBitSet pos b v, r)
  | 30 => withLen bs fun pos r => withByte r fun m r => withByte r fun v r =>
      .ok (.rbMask pos m v, r)
  | 31 => withLen bs fun pos r => .ok (.rbSeek pos, r)
  | 32 => withLen bs fun pos r => withLen r fun w r => withBool r fun isWrite r =>
      if isWrite then withBytes w.toNat r fun v r => .ok (.rbTyped pos w (some (natOfBytes v)), r)
      else .ok (.rbTyped pos w none, r)
  | 33 => withByte bs fun v r => .ok (.rbFill v, r)
  | 34 => .ok (.ltStart, bs)
  | 35 => withLen bs fun t r => .ok (.ltAssign t, r)
  | 36 => .ok (.ltTick, bs)
  | 37 => .ok (.ltExpired, bs)
  | 38 => withLen bs fun len r => .ok (.modConstruct len, r)
  | 39 => .ok (.modUpdate, bs)
  | 40 => .ok (.modConnected, bs)
  | 41 => .ok (.writeHeader, bs)
  | 42 => .ok (.writeConstants, bs)
  | 43 => withByte bs fun id r => .ok (.setId id, r)
  | 44 => withLen bs fun len r => withBytes len.toNat r fun s r => .ok (.setName s len, r)
  | 45 => .ok (.getLed, bs)
  | 46 => .ok (.getPower, bs)
  | 47 => withLen bs fun i r => withLen r fun o r => withLen r fun v r => withLen r fun p r =>
      .ok (.mcUpdate i o v p, r)
  | 48 => .ok (.reset, bs)
  | _ => .error (.unknownOperation op)

/-- The operation at the front of the input stream and the stream after it, or why there is none.
Total on any bytes. -/
def decode (bs : List Byte) : Except DecodeError (Instr × List Byte) :=
  match bs with
  | [] => .error .noInput
  | op :: rest => decodeOperands op rest

/-! ## Encoding -/

/-- The row number of an operation in spec/opcode_table.json, from 1. -/
def Instr.opcode : Instr → Byte
  | .mw _ _ => 1
  | .mr _ _ => 2
  | .mwr _ _ _ => 3
  | .busStart _ _ => 4
  | .busWbyte _ => 5
  | .busRbyte => 6
  | .busEnd => 7
  | .busAbort _ => 8
  | .hwCommunicating => 9
  | .hwResult => 10
  | .hwLastTransaction => 11
  | .hwSetCallbacks _ _ => 12
  | .hwSetAddress _ => 13
  | .hwSetRecvbuffer _ _ => 14
  | .hwSetSendbuffer _ _ => 15
  | .update => 16
  | .connected => 17
  | .setTimeout _ => 18
  | .setAddress _ => 19
  | .mgrConstruct _ => 20
  | .received _ => 21
  | .sent _ => 22
  | .refresh => 23
  | .resizeSend _ => 24
  | .resizeRecv _ => 25
  | .rbWrite _ _ _ => 26
  | .rbRead _ _ => 27
  | .rbBitGet _ _ => 28
  | .rbBitSet _ _ _ => 29
  | .rbMask _ _ _ => 30
  | .rbSeek _ => 31
  | .rbTyped _ _ _ => 32
  | .rbFill _ => 33
  | .ltStart => 34
  | .ltAssign _ => 35
  | .ltTick => 36
  | .ltExpired => 37
  | .modConstruct _ => 38
  | .modUpdate => 39
  | .modConnected => 40
  | .writeHeader => 41
  | .writeConstants => 42
  | .setId _ => 43
  | .setName _ _ => 44
  | .getLed => 45
  | .getPower => 46
  | .mcUpdate _ _ _ _ => 47
  | .reset => 48

/-- The bytes of a place: 0 and the offset, or 1. -/
def Place.encode : Place → List Byte
  | .offset pos => 0 :: lenBytes pos
  | .cursor => [1]

/-- The operand bytes of an operation. -/
def Instr.operands : Instr → List Byte
  | .mw a7 frame => addressByte a7 .write :: (lenBytes (BitVec.ofNat 16 frame.length) ++ frame)
  | .mr a7 n => addressByte a7 .read :: lenBytes n
  | .mwr a7 a n => addressByte a7 .write :: a :: addressByte a7 .read :: lenBytes n
  | .busStart a7 rw => [addressByte a7 rw]
  | .busWbyte b => [b]
  | .busRbyte => []
  | .busEnd => []
  | .busAbort kind => [kind.code]
  | .hwCommunicating => []
  | .hwResult => []
  | .hwLastTransaction => []
  | .hwSetCallbacks rcb scb => [boolByte rcb, boolByte scb]
  | .hwSetAddress a => [a]
  | .hwSetRecvbuffer buf len => buf.code :: lenBytes len
  | .hwSetSendbuffer buf len => buf.code :: lenBytes len
  | .update => []
  | .connected => []
  | .setTimeout t => lenBytes t
  | .setAddress a => lenBytes a
  | .mgrConstruct none => [0]
  | .mgrConstruct (some len) => 1 :: lenBytes len
  | .received n => lenBytes n
  | .sent n => lenBytes n
  | .refresh => []
  | .resizeSend m => lenBytes m
  | .resizeRecv m => lenBytes m
  | .rbWrite place len v => place.encode ++ lenBytes len ++ v
  | .rbRead place len => place.encode ++ lenBytes len
  | .rbBitGet pos b => lenBytes pos ++ [b]
  | .rbBitSet pos b v => lenBytes pos ++ [b, boolByte v]
  | .rbMask pos m v => lenBytes pos ++ [m, v]
  | .rbSeek pos => lenBytes pos
  | .rbTyped pos w none => lenBytes pos ++ lenBytes w ++ [0]
  | .rbTyped pos w (some v) => lenBytes pos ++ lenBytes w ++ 1 :: bytesOfNat w.toNat v
  | .rbFill v => [v]
  | .ltStart => []
  | .ltAssign t => lenBytes t
  | .ltTick => []
  | .ltExpired => []
  | .modConstruct len => lenBytes len
  | .modUpdate => []
  | .modConnected => []
  | .writeHeader => []
  | .writeConstants => []
  | .setId id => [id]
  | .setName s len => lenBytes len ++ s
  | .getLed => []
  | .getPower => []
  | .mcUpdate i o v p => lenBytes i ++ lenBytes o ++ lenBytes v ++ lenBytes p
  | .reset => []

/-- The record of an operation. -/
def encode (i : Instr) : List Byte := i.opcode :: i.operands

/-! ## Words of the opcode table -/

/-- The bytes of a word of `nbits` bits, bits 7..0 first. -/
def wordBytes (nbits w : Nat) : List Byte := bytesOfNat ((nbits + 7) / 8) w

/-- The bytes of a word followed by zeros: a few, or, where its record then still ends inside a byte
sequence, as many as the longest record can need. -/
def paddedWord (nbits w : Nat) : List Byte :=
  let short := wordBytes nbits w ++ List.replicate 16 0
  match decode short with
  | .error .truncated => wordBytes nbits w ++ List.replicate (16 + lenMax) 0
  | _ => short

/-- The instruction the decoder reads from an instruction whose bits are `w`. -/
def decodeTableWord (nbits w : Nat) : Option Instr :=
  match decode (paddedWord nbits w) with
  | .ok (i, _) => some i
  | .error _ => none

/-- The record at the front of a padded word, without the zeros after it; the word's own bytes where
they decode to nothing. -/
def recordOfWord (nbits w : Nat) : List Byte :=
  match decode (paddedWord nbits w) with
  | .ok (_, rest) => (paddedWord nbits w).take ((paddedWord nbits w).length - rest.length)
  | .error _ => wordBytes nbits w

end Sys2Proof
end

