-- ==== Sys2Proof/Machine/Memory.lean ====
section
/-! DEFINITION. A byte space of the block (RB, SB or RXB; 10_state.md R38, 20_memory.md R60): a list of
(offset, byte) cells with strictly rising offsets. A space of length `n` lists exactly the offsets
`0..n-1`, each with its byte; an offset that is not listed lies outside the space and holds no value
(DESIGN CHOICE, safe; assumption log 6), so two equal spaces are equal lists. -/

namespace Sys2Proof.Machine

/-- A byte space. -/
abbrev Memory := List Host.Cell

/-- The byte at offset `a`, if the space lists it. -/
def Memory.read : Memory → Nat → Option Byte
  | [], _ => none
  | (k, b) :: m, a => if a = k then some b else Memory.read m a

/-- `S[a] <- v` (R14). -/
def Memory.write : Memory → Nat → Byte → Memory
  | [], a, v => [(a, v)]
  | (k, b) :: m, a, v =>
    if a < k then (a, v) :: (k, b) :: m
    else if a = k then (a, v) :: m
    else (k, b) :: Memory.write m a v

/-- `MemWrite`: the bytes at `a, a+1, ...`, the first at the lowest offset (R14). -/
def Memory.writeList : Memory → Nat → List Byte → Memory
  | m, _, [] => m
  | m, a, v :: vs => Memory.writeList (Memory.write m a v) (a + 1) vs

/-- The byte at offset `a` for an access whose bounds were checked; an unlisted offset, which no
reachable state has in bounds, gives a free value (log 6). -/
def Memory.byte (m : Memory) (a : Nat) : Byte := (Memory.read m a).getD (Config.absentByte a)

/-- `MemRead`: the `n` bytes from offset `a` (R14). -/
def Memory.bytes (m : Memory) (a n : Nat) : List Byte :=
  (List.range n).map fun i => Memory.byte m (a + i)

/-- The space that lists the given bytes from offset `k`. -/
def Memory.ofBytesFrom : Nat → List Byte → Memory
  | _, [] => []
  | k, b :: bs => (k, b) :: Memory.ofBytesFrom (k + 1) bs

/-- The space that holds exactly the given bytes, from offset 0. -/
def Memory.ofBytes (bs : List Byte) : Memory := Memory.ofBytesFrom 0 bs

/-- The canonical form: offsets strictly rising. -/
def Memory.wf : Memory → Bool
  | [] => true
  | [_] => true
  | c :: d :: m => decide (c.1 < d.1) && Memory.wf (d :: m)

/-- The space lists exactly the offsets `0..n-1` (R38). -/
def Memory.spans (m : Memory) (n : Nat) : Bool := decide (m.map Prod.fst = List.range n)

/-- Offset of the status byte in RB (R33). -/
def statusPos : Nat := 12

/-- Contents of RB after reset: `0x00` each, then `RB[12] = 0x03` when a Module wraps the buffer and has
that byte (R270, R34; log 26). -/
def resetBytes (cfg : Config) : List Byte :=
  let zeros := List.replicate cfg.rbLen.toNat 0x00#8
  if cfg.hasModule && cfg.rbPresent then zeros.set statusPos 0x03#8 else zeros

end Sys2Proof.Machine
end

