-- ==== Sys2Proof/Machine/State.lean ====
section
/-! DEFINITION. The state of the block as plain data (10_state.md), why a step can stop, and the state
right after reset (70_reset_and_hazards.md R270). -/

namespace Sys2Proof.Machine

/-- The reasons a step stops with a fault. None of them is the spec's panic: taking a panic is a next
state (R240). -/
inductive Fault where
  /-- Raised by every operation but `RESET` in a panicked state: "no operation of any agent has a step
  except `RESET`" (R240, U12). Safe: the model goes no further where the block is stuck. -/
  | halted (cause : PanicCause)
  /-- Raised by a bus event that is not enabled: "An event that is not enabled has no step" (R130).
  Safe: the master cannot produce it. Log 12. -/
  | notEnabled
deriving DecidableEq, Repr

/-- The reasons an operation is refused. -/
inductive Refusal where
  /-- The instruction has no meaning yet; raised by no arm of this model. Safe. -/
  | notModelled (mnemonic : String)
  /-- Raised by `step` when the input stream holds no record of an operation at its front. Safe. -/
  | undecodable (why : DecodeError)
  /-- Raised by `BUS_RBYTE` as byte 65536 of one transaction: "a transaction longer than that is outside
  the model" (R24, U9: `refuse`). Safe. Log 14. -/
  | transactionTooLong
  /-- Raised by a binding of a Register Buffer longer than `L_MAX`, outside `0 <= L <= L_MAX` (R9).
  Safe. Log 31. -/
  | lengthAboveCapacity
deriving DecidableEq, Repr

/-- A step of the interrupt context that can fall between two atomic steps of the main context: one of
the five bus events or a tick (R248). -/
inductive Interrupt where
  | start (a7 : BusAddr) (rw : BusDir)
  | wbyte (b : Byte)
  | rbyte
  | stop
  | abort (kind : AbortKind)
  | tick
deriving DecidableEq, Repr

/-- The host's unnamed reconfiguration: a Register Buffer of length `len` bound, or none (R21, N7). -/
structure Binding where
  present : Bool
  len : Len
deriving DecidableEq, Repr

/-- The local snapshot of `update` step 1 (R39 g, R71). -/
structure Snapshot where
  result : BusResult
  info : TransInfo
deriving DecidableEq, Repr

/-- What an operation puts out of the block: bytes on the wire, values returned to the host, hook calls
(log 17). -/
inductive Output where
  /-- a byte the slave puts on the wire (R134) -/
  | wire (c : Byte)
  /-- a returned truth value or bit -/
  | bit (v : Bool)
  /-- returned bytes (R113) -/
  | bytes (v : List Byte)
  /-- a returned typed value (R119) -/
  | value (n : Nat)
  /-- a returned transaction result (R138) -/
  | result (r : BusResult)
  /-- a returned Transaction Info (R139) -/
  | info (i : TransInfo)
  /-- a call of a hook with the offset and length transferred (R118) -/
  | hook (kind : HookKind) (pos len : Nat)
deriving DecidableEq, Repr

/-- The state of the block. -/
structure State where
  /-- the configuration; no step changes it (R9) -/
  cfg : Config
  /-- `rb_present` (R21) -/
  rbPresent : Bool
  /-- `rb_len`, `L` (R21) -/
  rbLen : Len
  /-- `RB[0..L-1]` (R20) -/
  rb : Memory
  /-- `rb_pos` (R22) -/
  rbPos : Len
  /-- `sb_len` (R36) -/
  sbLen : Len
  /-- `SB[0..sb_len-1]` (R36) -/
  sb : Memory
  /-- `rxb_len` (R36) -/
  rxbLen : Len
  /-- `RXB[0..rxb_len-1]` (R36) -/
  rxb : Memory
  /-- `last_addr` (R24) -/
  lastAddr : Byte
  /-- `cfg_timeout` (R32) -/
  cfgTimeout : Ticks
  /-- `cfg_addr` (R31) -/
  cfgAddr : BusAddr
  /-- `cfg_addr_dirty` (R31) -/
  cfgAddrDirty : Bool
  /-- `snap_result`, `snap_info` (R39 g), held while an `update` runs -/
  snap : Option Snapshot
  /-- `lt_remaining` (R32) -/
  ltRemaining : Ticks
  /-- `lt_running` (R32) -/
  ltRunning : Bool
  /-- `hw_addr` (R31) -/
  hwAddr : BusAddr
  /-- `hw_communicating` (R26) -/
  hwCommunicating : Bool
  /-- `hw_dir` (R42) -/
  hwDir : BusDir
  /-- `hw_result` (R29) -/
  hwResult : BusResult
  /-- `hw_last` (R30) -/
  hwLast : TransInfo
  /-- `hw_send_buf` (R40) -/
  hwSendBuf : Option BufId
  /-- `hw_send_len` (R40) -/
  hwSendLen : Len
  /-- `hw_recv_buf` (R40) -/
  hwRecvBuf : Option BufId
  /-- `hw_recv_len` (R40) -/
  hwRecvLen : Len
  /-- `hw_cb_set` (R41) -/
  hwCbSet : Bool
  /-- `rx_cnt` (R24) -/
  rxCnt : Len
  /-- `tx_cnt` (R24) -/
  txCnt : Len
  /-- `rx_over` (R42) -/
  rxOver : Bool
  /-- `prev_connected` (R28) -/
  prevConnected : Bool
  /-- `mc_mode` (R44) -/
  mcMode : DriveMode
  /-- `mc_oc` (R44) -/
  mcOc : OverCurrent
  /-- `pt_remaining` (R44) -/
  ptRemaining : Ticks
  /-- `pt_running` (R44) -/
  ptRunning : Bool
  /-- `panic` (R43) -/
  panic : Option PanicCause
  /-- MODEL's own: the records of the operations the outside world offers next (log 1) -/
  inbox : List Byte
  /-- MODEL's own: the host's pending reconfiguration (log 9) -/
  rebind : Option Binding
  /-- MODEL's own: the interrupt steps that fall at each coming point between two atomic steps of the
  main context (log 10) -/
  preempt : List (List Interrupt)
  /-- MODEL's own: the answers of `alloc_fails()` at the coming resizes, false when none is listed
  (log 19) -/
  allocFail : List Bool
  /-- MODEL's own: how many free values have been drawn (log 4) -/
  draws : Nat
  /-- MODEL's own: what the last operation put out (log 17) -/
  out : List Output
deriving DecidableEq, Repr

/-- Every variable at its value after reset (R270) for a block of configuration `cfg`, with nothing
offered by the outside world. `hw_last` and `hw_dir`, which the spec leaves `any`, hold named values
(DESIGN CHOICE, unsafe; log 5). -/
def State.resetOf (cfg : Config) : State where
  cfg := cfg
  rbPresent := cfg.rbPresent
  rbLen := cfg.rbLen
  rb := Memory.ofBytes (resetBytes cfg)
  rbPos := 0
  sbLen := 0
  sb := []
  rxbLen := 0
  rxb := []
  lastAddr := 0x00
  cfgTimeout := cfg.tReset
  cfgAddr := cfg.addrReset
  cfgAddrDirty := false
  snap := none
  ltRemaining := 0
  ltRunning := false
  hwAddr := cfg.addrReset
  hwCommunicating := false
  hwDir := .write
  hwResult := .wait
  hwLast := { dir := .send, buf := .sb, len := 0 }
  hwSendBuf := none
  hwSendLen := 0
  hwRecvBuf := none
  hwRecvLen := 0
  hwCbSet := true
  rxCnt := 0
  txCnt := 0
  rxOver := false
  prevConnected := false
  mcMode := .off
  mcOc := .none
  ptRemaining := 0
  ptRunning := false
  panic := none
  inbox := []
  rebind := none
  preempt := []
  allocFail := []
  draws := 0
  out := []

/-- The configuration of `State.reset`: the lengths and frame header of 95_test_vectors.md config A, the
example constants of its programs P5 and T44-1, and values of the model's where the spec shows none
(DESIGN CHOICE, unsafe; log 3). -/
def resetConfig : Config where
  rbPresent := true
  rbLen := 16
  lMax := 256
  fhdr := [0xA5, 0x5A]
  capTx := 258
  capRx := 257
  tReset := 0
  addrReset := 0x20
  rxOverflow := .truncate
  hasModule := true
  sigFixed0 := 0x53
  sigFixed1 := 0x45
  sigType := 0x01
  hasHook := false
  writeHookNull := false
  readHookNull := false
  hookOnManager := false
  fieldEndian := .little
  ledPos := 14
  ledBit := 0
  powerPos := 14
  powerBit := 1
  constants := some []
  modeRows := [⟨0x03, 0x00, .off⟩, ⟨0x03, 0x01, .voltage⟩, ⟨0x03, 0x02, .pwm⟩]
  modeElse := .off
  resetBit := 7
  ocMask := 0x0C
  ocNone := 0x00
  ocPwm := 0x04
  ocOff := 0x08
  ptTimeout := 5

/-- The block right after reset (R270). -/
def State.reset : State := State.resetOf resetConfig

end Sys2Proof.Machine
end

