-- ==== Sys2Proof/Machine/Ops.lean ====
section
/-! DEFINITION. The shared operations every meaning is built from: how steps follow one another, taking a
panic and leaving it, drawing a free value, putting a value out, the hooks. -/

namespace Sys2Proof.Machine

/-- What an operation answers. -/
abbrev Result := Host.Outcome State Fault Refusal

/-! ## Panic: taking it, and the one way out (R240, R241) -/

/-- The state in which a panic of cause `c` has been taken: `panic <- cause`, every other state variable
as it was at the moment of the raise (R240). There is no saved state and no handler. -/
def State.panicked (c : PanicCause) (s : State) : State := { s with panic := some c }

/-- `raise Panic(c)` (R14, R240): the operation ends in the panicked state. Taking a panic is a step. -/
def raise (c : PanicCause) (s : State) : Result := .next (s.panicked c)

/-- `RESET`, the only way out of a panic (R240, R270): every variable at its reset value, `hw_last` and
`hw_dir` drawn (`any`, U5). The configuration, what the outside world offers next and the count of
draws are no variables of the block and stay. -/
def State.afterReset (s : State) : State :=
  { State.resetOf s.cfg with
    hwLast := Config.freeInfo s.draws
    hwDir := Config.freeDir s.draws
    draws := s.draws + 1
    inbox := s.inbox
    rebind := s.rebind
    preempt := s.preempt
    allocFail := s.allocFail }

/-! ## Sequencing -/

/-- Goes on with `f` after `o`: not after a fault or a refusal, and not after a panic, which ends the
operation that raised it (R240). -/
def andThen (o : Result) (f : State → Result) : Result :=
  match o with
  | .next s => if s.panic.isSome then .next s else f s
  | .fault r => .fault r
  | .refused r => .refused r

/-! ## Outputs and draws -/

/-- Puts one value out of the block (log 17). -/
def State.emit (o : Output) (s : State) : State := { s with out := s.out ++ [o] }

/-- Forgets what the previous operation put out. -/
def State.clearOut (s : State) : State := { s with out := [] }

/-- Counts one draw of a free value (log 4). -/
def State.drawn (s : State) : State := { s with draws := s.draws + 1 }

/-- Runs an operation under the precondition `panic = none` that every operation but `RESET` has (R240):
a panicked state has no step (U12). The outputs of the previous operation are forgotten. -/
def whenLive (s : State) (f : State → Result) : Result :=
  match s.panic with
  | some c => .fault (.halted c)
  | none => f s.clearOut

/-- With nothing offered no agent acts and the block stays as it is; a panicked block has no step (R240,
log 2). -/
def whenIdle (s : State) : Result :=
  match s.panic with
  | some c => .fault (.halted c)
  | none => .next s

/-! ## Memory updates of State -/

/-- `RB[a] <- v`. -/
def State.storeRb (a : Nat) (v : Byte) (s : State) : State := { s with rb := Memory.write s.rb a v }

/-- `MemWrite(RB, a, v)`. -/
def State.storeRbList (a : Nat) (v : List Byte) (s : State) : State :=
  { s with rb := Memory.writeList s.rb a v }

/-- `MemWrite(SB, a, v)`. -/
def State.storeSbList (a : Nat) (v : List Byte) (s : State) : State :=
  { s with sb := Memory.writeList s.sb a v }

/-! ## Hooks of the Register Buffer (R118) -/

/-- The hook of this kind is registered as a null pointer. -/
def hookNull (c : Config) : HookKind → Bool
  | .read => c.readHookNull
  | .write => c.writeHookNull

/-- Invokes a hook after a transfer when `HAS_HOOK`; an invoked null hook is `Panic(NullCallback)`. A hook
has no effect on the block's state, so its call is only put out (R118, D25). -/
def fireHook (kind : HookKind) (pos len : Nat) (s : State) : Result :=
  if s.cfg.hasHook then
    if hookNull s.cfg kind then raise .nullCallback s else .next (s.emit (.hook kind pos len))
  else .next s

/-- The hook at one of the manager's own accesses: whether these fire is unspecified (U6), and the
configuration admits both (log 18). -/
def managerHook (kind : HookKind) (pos len : Nat) (s : State) : Result :=
  if s.cfg.hookOnManager then fireHook kind pos len s else .next s

end Sys2Proof.Machine
end

