-- ==== Sys2Proof/Machine/Flags.lean ====
section
/-! DEFINITION. The derived conditions and flags of the block: `connected` and expiry of the timers (R25,
R193), the states of the bus hardware (R130), the bounds rule (R111), single bits of a byte (R13, R114
to R116) and the flags of the status byte (R27, R34). -/

namespace Sys2Proof.Machine

/-- `connected()`: the Liveness Timer has not reached zero (R25, R168). -/
def State.isConnected (s : State) : Bool := decide (s.ltRemaining ≠ 0)

/-- `expired` of the Liveness Timer (R193). -/
def State.ltExpired (s : State) : Bool := decide (s.ltRemaining = 0)

/-- `expired` of the protection timer (R222). -/
def State.ptExpired (s : State) : Bool := decide (s.ptRemaining = 0)

/-- The bus hardware is *receiving* (R130). -/
def State.receiving (s : State) : Bool := s.hwCommunicating && decide (s.hwDir = .write)

/-- The bus hardware is *sending* (R130). -/
def State.sending (s : State) : Bool := s.hwCommunicating && decide (s.hwDir = .read)

/-- The register buffer is "non-null and non-empty" (R21, R160 step 3). -/
def State.rbUsable (s : State) : Bool := s.rbPresent && decide (s.rbLen ≠ 0)

/-- `InBounds(pos, len)` (R111): a buffer is bound, `pos < L`, and `pos + len <= L` with the sum not
wrapped; a sum above `2^LENW - 1` exceeds every `L`. -/
def State.inBounds (s : State) (pos len : Nat) : Bool :=
  s.rbPresent && decide (pos < s.rbLen.toNat) && decide (pos + len ≤ s.rbLen.toNat)

/-- Bit `b` of a byte, bit 0 the least significant (R13, R114). -/
def bitOf (x : Byte) (b : Nat) : Bool := x.getLsbD b

/-- `(t & ~m) | (v & m)` (R116). DEDUCED: the operands are R116's mask and value, though D37 names them `and`
and `or` (log 38). -/
def maskBits (t m v : Byte) : Byte := (t &&& ~~~m) ||| (v &&& m)

/-- `(t & ~(1 << b)) | (v << b)` (R115). -/
def setBit (t : Byte) (b : Nat) (v : Bool) : Byte :=
  (t &&& ~~~(1#8 <<< b)) ||| ((if v then 1#8 else 0#8) <<< b)

/-- Bit number of Active in the status byte (R27, R34). -/
def activeBit : Byte := 0

/-- Bit number of Operational in the status byte (R27, R34). -/
def operationalBit : Byte := 1

/-- Offset of the settings byte (R33). -/
def settingsPos : Nat := 13

/-- The status byte `RB[12]` (R34). -/
def State.statusByte (s : State) : Byte := Memory.byte s.rb statusPos

/-- The settings byte `RB[13]` (R35). -/
def State.settingsByte (s : State) : Byte := Memory.byte s.rb settingsPos

end Sys2Proof.Machine
end

