-- ==== Sys2Proof/Machine/Operands.lean ====
section
/-! DEFINITION. The operand forms of the host's operations: the place of a transfer (an offset or the
cursor, R112, R113, R117), the byte order of a typed value (R62, R119), the name field of the common
header (R209), the decode of the settings byte and the encoding of the overcurrent state (R221). -/

namespace Sys2Proof.Machine

/-- The offset a transfer starts at (R112, R117). -/
def placeOffset (s : State) : Place → Nat
  | .offset pos => pos.toNat
  | .cursor => s.rbPos.toNat

/-- After a cursor-relative transfer of `len` bytes: `rb_pos <- rb_pos + len` when the sum is below `L`,
`rb_pos <- any` otherwise; a transfer at an offset leaves the cursor (R117, D24). -/
def State.advanceCursor (place : Place) (len : Nat) (s : State) : State :=
  match place with
  | .offset _ => s
  | .cursor =>
    if s.rbPos.toNat + len < s.rbLen.toNat then { s with rbPos := s.rbPos + BitVec.ofNat 16 len }
    else { s.drawn with rbPos := Config.freePos s.draws }

/-- The bytes of a typed value of `w` bytes in the order of `FIELD_ENDIAN` (R62, R119). -/
def typedBytes (e : Endian) (w v : Nat) : List Byte :=
  match e with
  | .little => bytesOfNat w v
  | .big => (bytesOfNat w v).reverse

/-- The typed value whose bytes stand in RB in the order of `FIELD_ENDIAN` (R62, R119). -/
def typedValue (e : Endian) (bs : List Byte) : Nat :=
  match e with
  | .little => natOfBytes bs
  | .big => natOfBytes bs.reverse

/-- Offset of the module id (R33, R208). -/
def idPos : Nat := 3

/-- Offset of the name field (R33, R209). -/
def namePos : Nat := 4

/-- Size of the name field (R33, R209). -/
def nameSize : Nat := 8

/-- The bytes `set_name` writes: the first `min(len, 8)` of the name, no padding (R209, D27). -/
def nameBytes (s : List Byte) (len : Len) : List Byte := s.take (min len.toNat nameSize)

/-- `SEL_MODE()`: the drive mode a settings byte selects (R221). -/
def selectMode (rows : List ModeRow) (otherwise : DriveMode) (x : Byte) : DriveMode :=
  match rows with
  | [] => otherwise
  | r :: rs => if x &&& r.mask = r.value then r.mode else selectMode rs otherwise x

/-- `OC_ENCODE(oc)` as the bits of the status byte (R221). -/
def overCurrentBits (c : Config) : OverCurrent → Byte
  | .none => c.ocNone
  | .pwm => c.ocPwm
  | .off => c.ocOff

/-- `IMAX(mode)`, from the values it takes in this cycle (R221). -/
def currentLimit (imaxOff imaxVoltage imaxPwm : Current) : DriveMode → Current
  | .off => imaxOff
  | .voltage => imaxVoltage
  | .pwm => imaxPwm

end Sys2Proof.Machine
end

