-- ==== Sys2Proof/Machine/Staging.lean ====
section
/-! DEFINITION. The staging buffers: `resize_send`, `resize_recv`, `refresh`, and the callbacks `received`
and `sent` (42_buffer_manager.md R162, R163, R166, R167). Each is one indivisible step (R67, R76). -/

namespace Sys2Proof.Machine

/-! ## Resize (R162) -/

/-- The answer of `alloc_fails()` for this resize (R162, log 19). -/
def State.allocFails (s : State) : Bool := s.allocFail.headD false

/-- One answer of `alloc_fails()` has been used. -/
def State.allocAsked (s : State) : State := { s with allocFail := s.allocFail.tail }

/-- Free bytes number `from` up to `from + n - 1` of draw `k`. -/
def freeBytes (k start n : Nat) : List Byte := (List.range n).map fun i => Config.freeByte k (start + i)

/-- `SB` after `resize_send(m)`: the frame header, then `any` (R162, U4). -/
def resizedSend (fhdr : List Byte) (k m : Nat) : Memory :=
  Memory.ofBytes (fhdr ++ freeBytes k fhdr.length (m - fhdr.length))

/-- `RXB` after `resize_recv(m)`: `any` (R162, U4). -/
def resizedRecv (k m : Nat) : Memory := Memory.ofBytes (freeBytes k 0 m)

/-- The test of both resizes for `Panic(AllocFailure)` (R162). -/
def State.resizeFails (s : State) (m cap : Nat) : Bool :=
  decide (lenMax < m) || decide (cap < m) || s.allocFails

/-- `SB` after the header loop of `resize_send(m)` with `m < H` stopped at `SB[m]` (R162, log 15). -/
def cutSend (fhdr : List Byte) (m : Nat) : Memory := Memory.ofBytes (fhdr.take m)

/-- `resize_send(m)` (R162), the new buffer handed to the hardware in the same step. Its loop writes
`SB[0..H-1]`: with a length below `H`, which `update` never asks for, the access to `SB[m]` lies outside
the send staging space, an access of the manager's that panics (R65). DEDUCED (log 15). -/
def resizeSend (m : Nat) (s : State) : Result :=
  if s.resizeFails m s.cfg.capTx then raise .allocFailure s.allocAsked
  else if m < s.cfg.h then
    raise .outOfBounds { s.allocAsked with sbLen := BitVec.ofNat 16 m, sb := cutSend s.cfg.fhdr m }
  else .next { s.allocAsked.drawn with
    sbLen := BitVec.ofNat 16 m
    sb := resizedSend s.cfg.fhdr s.draws m
    hwSendBuf := some .sb
    hwSendLen := BitVec.ofNat 16 m }

/-- `resize_recv(m)` (R162). -/
def resizeRecv (m : Nat) (s : State) : Result :=
  if s.resizeFails m s.cfg.capRx then raise .allocFailure s.allocAsked
  else .next { s.allocAsked.drawn with
    rxbLen := BitVec.ofNat 16 m
    rxb := resizedRecv s.draws m
    hwRecvBuf := some .rxb
    hwRecvLen := BitVec.ofNat 16 m }

/-! ## Refresh (R163) -/

/-- The data region of SB after a refresh from `last_addr`: `RB[last_addr..L-1]`, then `last_addr` zero
bytes (R163). -/
def State.refreshData (s : State) : List Byte :=
  Memory.bytes s.rb s.lastAddr.toNat (s.rbLen.toNat - s.lastAddr.toNat)
    ++ List.replicate s.lastAddr.toNat 0x00#8

/-- `refresh()` (R163): two checks, then the data region of SB is rewritten; the frame header is not
(R162). DESIGN CHOICE: the read hook, where the manager fires it at all (U6), comes after the whole data
region, the zero bytes included (log 40). -/
def refresh (s : State) : Result :=
  if s.sbLen.toNat ≠ s.rbLen.toNat + s.cfg.h then raise .outOfBounds s
  else if !s.inBounds s.lastAddr.toNat (s.rbLen.toNat - s.lastAddr.toNat) then raise .outOfBounds s
  else managerHook .read s.lastAddr.toNat (s.rbLen.toNat - s.lastAddr.toNat)
    (s.storeSbList s.cfg.h s.refreshData)

/-! ## Callbacks (R166, R167) -/

/-- Byte `i` of the frame in RXB. The address byte of an empty frame (U1, log 7) and a byte lost to a
resize in flight (U10, log 30) are free. DESIGN CHOICE: so is a byte past RXB's end when `RECEIVED` is run
alone with `n` above `rxb_len` (log 41). -/
def State.frameByte (s : State) (i : Nat) : Byte := (Memory.read s.rxb i).getD (Config.freeByte s.draws i)

/-- The register address of a received frame of `n` bytes (R93, R166). -/
def State.frameAddr (s : State) (n : Nat) : Byte :=
  if n = 0 then Config.freeByte s.draws 0 else s.frameByte 0

/-- The data bytes `received` copies: `k = min(L - a, n - 1)` of them (R93, R166). DESIGN CHOICE: with
`L > 256` a frame whose address lies below 256 carries on past it, as the pseudocode of R166 writes, though
the prose of R38 and R166 calls offsets 256 and up unreachable by the master (log 35). -/
def State.frameData (s : State) (n : Nat) : List Byte :=
  (List.range (min (s.rbLen.toNat - (s.frameAddr n).toNat) (n - 1))).map fun i => s.frameByte (1 + i)

/-- The cursor is `any` after an `update` or a `received` step (U7, log 8). -/
def State.cursorLost (s : State) : State := { s.drawn with rbPos := Config.freePos s.draws }

/-- `received(RXB, n)` (R166): an in-range register address becomes `last_addr`, the data are copied
(truncated, never rejected), then SB is refreshed; an out-of-range address changes nothing. DESIGN CHOICE:
the write hook, where the manager fires it (U6), comes between the copy and the refresh (log 40). -/
def received (n : Nat) (s : State) : Result :=
  if s.rbPresent && decide ((s.frameAddr n).toNat < s.rbLen.toNat) then
    andThen
      (managerHook .write (s.frameAddr n).toNat (s.frameData n).length
        ({ s.cursorLost with lastAddr := s.frameAddr n }.storeRbList (s.frameAddr n).toNat
          (s.frameData n)))
      refresh
  else .next s.cursorLost

/-- `sent(SB, n)`: no action (R167). -/
def sentCallback (_n : Nat) (s : State) : Result := .next s

/-! ## Meanings -/

/-- Meaning of `RECEIVED` (R166). -/
def execReceived (n : Len) (s : State) : Result := whenLive s (received n.toNat)

/-- Meaning of `SENT` (R167). -/
def execSent (n : Len) (s : State) : Result := whenLive s (sentCallback n.toNat)

/-- Meaning of `REFRESH` (R163). -/
def execRefresh (s : State) : Result := whenLive s refresh

/-- Meaning of `RESIZE_SEND` (R162). -/
def execResizeSend (m : Len) (s : State) : Result := whenLive s (resizeSend m.toNat)

/-- Meaning of `RESIZE_RECV` (R162). -/
def execResizeRecv (m : Len) (s : State) : Result := whenLive s (resizeRecv m.toNat)

end Sys2Proof.Machine
end

