-- ==== Sys2Proof/Machine/Timer.lean ====
section
/-! DEFINITION. The Liveness Timer (45_liveness_timer.md R190 to R196) and the protection timer, a
countdown of the same kind (R222). -/

namespace Sys2Proof.Machine

/-- `LT_START()`: `lt_running <- 1`, no value loaded (R190). -/
def State.ltStarted (s : State) : State := { s with ltRunning := true }

/-- `LT_ASSIGN(t)`: `lt_remaining <- t` (R191). -/
def State.ltAssigned (t : Ticks) (s : State) : State := { s with ltRemaining := t }

/-- The manager's restart: `LT_ASSIGN(cfg_timeout)` and `LT_START()` in one step (R191, R160 step 2). -/
def State.ltRestarted (s : State) : State := (s.ltAssigned s.cfgTimeout).ltStarted

/-- The protection timer's restart: `pt_remaining <- PT_TIMEOUT; pt_running <- 1` (R222). -/
def State.ptRestarted (s : State) : State :=
  { s with ptRemaining := s.cfg.ptTimeout, ptRunning := true }

/-- One countdown: a running, nonzero count loses one; it saturates at zero (R192). -/
def countdown (running : Bool) (remaining : Ticks) : Ticks :=
  if running && decide (remaining ≠ 0) then remaining - 1 else remaining

/-- `LT_TICK`: one step decrements every running timer (R192, R222). -/
def State.ticked (s : State) : State :=
  { s with
    ltRemaining := countdown s.ltRunning s.ltRemaining
    ptRemaining := countdown s.ptRunning s.ptRemaining }

/-- Meaning of `LT_START`. -/
def execLtStart (s : State) : Result := whenLive s fun s => .next s.ltStarted

/-- Meaning of `LT_ASSIGN` (R191). -/
def execLtAssign (t : Ticks) (s : State) : Result := whenLive s fun s => .next (s.ltAssigned t)

/-- Meaning of `LT_TICK` (R192). -/
def execLtTick (s : State) : Result := whenLive s fun s => .next s.ticked

/-- Meaning of `LT_EXPIRED` (R193): no side effect. -/
def execLtExpired (s : State) : Result := whenLive s fun s => .next (s.emit (.bit s.ltExpired))

end Sys2Proof.Machine
end

