-- ==== Sys2Proof/Machine/Bus.lean ====
section
/-! DEFINITION. The Bus Hardware Abstraction (41_bus_hardware.md): the five bus events, each one
indivisible step with the callback it invokes; the seven contract calls; the whole frames `MW`, `MR`,
`MWR` (30_encoding.md R91, R92, R101); and the points where interrupt steps fall between the atomic steps
of the main context (20_memory.md R67). -/

namespace Sys2Proof.Machine

/-- `TX_UNDERRUN`, the byte sent when the send staging buffer is exhausted (R9, R134, D10). -/
def txUnderrun : Byte := 0x00

/-- The transaction result that an anomaly leaves (R136). -/
def abortResult : AbortKind → BusResult
  | .nackSent => .nackSent
  | .error => .error

/-! ## Bus events -/

/-- Completion of a master write that is not refused: the result and Transaction Info, then the callback
(R135). -/
def receiveDone (s : State) : Result :=
  let s := { s with hwResult := .received, hwLast := { dir := .receive, buf := .rxb, len := s.rxCnt } }
  if s.hwCbSet then received s.rxCnt.toNat s else raise .nullCallback s

/-- The number of bytes a master read took from SB: `min(tx_cnt, hw_send_len)` (R97, R135). -/
def State.sentCount (s : State) : Len := if s.txCnt ≤ s.hwSendLen then s.txCnt else s.hwSendLen

/-- Completion of a master read (R135). -/
def sendDone (s : State) : Result :=
  let s := { s with hwResult := .sent, hwLast := { dir := .send, buf := .sb, len := s.sentCount } }
  if s.hwCbSet then sentCallback s.sentCount.toNat s else raise .nullCallback s

/-- What `BUS_END` does while a transaction is in flight (R135). -/
def completeTransaction (s : State) : Result :=
  let s := { s with hwCommunicating := false }
  match s.hwDir with
  | .write =>
    if s.rxOver && decide (s.cfg.rxOverflow = .nack) then .next { s with hwResult := .nackSent }
    else receiveDone s
  | .read => sendDone s

/-- The transaction state after a matching start (R132). -/
def State.begun (rw : BusDir) (s : State) : State :=
  { s with hwCommunicating := true, hwDir := rw, rxCnt := 0, txCnt := 0, rxOver := false }

/-- `BUS_START(a7, rw)` (R132): a start while a transaction is in flight completes it first (D31); a start
for another slave changes nothing more. -/
def busStart (a7 : BusAddr) (rw : BusDir) (s : State) : Result :=
  andThen (if s.hwCommunicating then completeTransaction s else .next s) fun s =>
    if a7 = s.hwAddr then .next (s.begun rw) else .next s

/-- `BUS_WBYTE(b)` (R133). DEDUCED: where the length handed over exceeds RXB, the bytes that RXB has no
offset for are excess bytes too (R99 case 5, log 15). -/
def busWbyte (b : Byte) (s : State) : Result :=
  if !s.receiving then .fault .notEnabled
  else if s.rxCnt.toNat < s.hwRecvLen.toNat ∧ (Memory.read s.rxb s.rxCnt.toNat).isSome = true then
    .next { s with rxb := Memory.write s.rxb s.rxCnt.toNat b, rxCnt := s.rxCnt + 1 }
  else .next { s with rxOver := true }

/-- The next byte of a master read (R134): byte `tx_cnt` of SB below the length handed over, `TX_UNDERRUN`
beyond. DEDUCED: the same where that length exceeds SB (R99 case 6, log 15). -/
def State.sendByte (s : State) : Byte :=
  if s.txCnt.toNat < s.hwSendLen.toNat then (Memory.read s.sb s.txCnt.toNat).getD txUnderrun
  else txUnderrun

/-- `BUS_RBYTE` (R134): the byte goes out on the wire. Byte 65536 of a transaction is outside the spec
(R24, U9). -/
def busRbyte (s : State) : Result :=
  if !s.sending then .fault .notEnabled
  else if s.txCnt.toNat = lenMax then .refused .transactionTooLong
  else .next ({ s with txCnt := s.txCnt + 1 }.emit (.wire s.sendByte))

/-- `BUS_END` (R135). -/
def busEnd (s : State) : Result :=
  if s.hwCommunicating then completeTransaction s else .fault .notEnabled

/-- `BUS_ABORT(kind)` (R136). -/
def busAbort (kind : AbortKind) (s : State) : Result :=
  if s.hwCommunicating then .next { s with hwCommunicating := false, hwResult := abortResult kind }
  else .fault .notEnabled

/-! ## Interrupts between atomic steps of the main context (R67, R248 to R250) -/

/-- One step of the interrupt context. -/
def interruptStep (e : Interrupt) (s : State) : Result :=
  match e with
  | .start a7 rw => busStart a7 rw s
  | .wbyte b => busWbyte b s
  | .rbyte => busRbyte s
  | .stop => busEnd s
  | .abort kind => busAbort kind s
  | .tick => .next s.ticked

/-- Interrupt steps one after another; they do not nest (R250). -/
def deliver : List Interrupt → State → Result
  | [], s => .next s
  | e :: es, s => andThen (interruptStep e s) (deliver es)

/-- A point between two atomic steps of the main context: the interrupt steps that fall there are taken
(log 10). -/
def preemptionPoint (s : State) : Result :=
  match s.preempt with
  | [] => .next s
  | es :: later => deliver es { s with preempt := later }

/-- The main context goes on with `f` after `o`, interrupt steps falling between (R67, R250). -/
def andThenMain (o : Result) (f : State → Result) : Result := andThen (andThen o preemptionPoint) f

/-- Atomic steps of the main context in their fixed order, interrupt steps falling between any two. -/
def mainSteps : List (State → Result) → State → Result
  | [], s => .next s
  | [f], s => f s
  | f :: g :: fs, s => andThenMain (f s) (mainSteps (g :: fs))

/-! ## Whole frames -/

/-- The bytes of a master write after the start. -/
def writeBytes : List Byte → State → Result
  | [], s => .next s
  | b :: bs, s => andThen (busWbyte b s) (writeBytes bs)

/-- The bytes of a master read after the start. -/
def readBytes : Nat → State → Result
  | 0, s => .next s
  | n + 1, s => andThen (busRbyte s) (readBytes n)

/-- `MW a7 [b0 .. b(n-1)]`: start, the bytes, end, with no event between (R101). To another slave's
address the byte events and the end are not delivered (R132). -/
def masterWrite (a7 : BusAddr) (frame : List Byte) (s : State) : Result :=
  andThen (busStart a7 .write s) fun s =>
    if s.hwCommunicating then andThen (writeBytes frame s) busEnd else .next s

/-- `MR a7 n`: start, `n` bytes, end (R101). -/
def masterRead (a7 : BusAddr) (n : Nat) (s : State) : Result :=
  andThen (busStart a7 .read s) fun s =>
    if s.hwCommunicating then andThen (readBytes n s) busEnd else .next s

/-! ## Meanings -/

/-- Meaning of `MW` (R91, R101, R173). -/
def execMw (a7 : BusAddr) (frame : List Byte) (s : State) : Result := whenLive s (masterWrite a7 frame)

/-- Meaning of `MR` (R92, R101, R173). -/
def execMr (a7 : BusAddr) (n : Len) (s : State) : Result := whenLive s (masterRead a7 n.toNat)

/-- Meaning of `MWR`: `MW a7 [a]` and at once `MR a7 n` (R101). DEDUCED: `n` counts every byte clocked, the
frame header's among them: R201's 14 bytes after the header take `n = H + 14` (log 39). -/
def execMwr (a7 : BusAddr) (a : Byte) (n : Len) (s : State) : Result :=
  whenLive s fun s => andThen (masterWrite a7 [a] s) (masterRead a7 n.toNat)

/-- Meaning of `BUS_START` (R132). -/
def execBusStart (a7 : BusAddr) (rw : BusDir) (s : State) : Result := whenLive s (busStart a7 rw)

/-- Meaning of `BUS_WBYTE` (R133). -/
def execBusWbyte (b : Byte) (s : State) : Result := whenLive s (busWbyte b)

/-- Meaning of `BUS_RBYTE` (R134). -/
def execBusRbyte (s : State) : Result := whenLive s busRbyte

/-- Meaning of `BUS_END` (R135). -/
def execBusEnd (s : State) : Result := whenLive s busEnd

/-- Meaning of `BUS_ABORT` (R136). -/
def execBusAbort (kind : AbortKind) (s : State) : Result := whenLive s (busAbort kind)

/-- Meaning of `HW_COMMUNICATING` (R137). -/
def execHwCommunicating (s : State) : Result :=
  whenLive s fun s => .next (s.emit (.bit s.hwCommunicating))

/-- Meaning of `HW_RESULT` (R138): by itself no side effect. -/
def execHwResult (s : State) : Result := whenLive s fun s => .next (s.emit (.result s.hwResult))

/-- Meaning of `HW_LAST_TRANSACTION` (R139). -/
def execHwLastTransaction (s : State) : Result := whenLive s fun s => .next (s.emit (.info s.hwLast))

/-- Meaning of `HW_SET_CALLBACKS`: set when both callbacks are non-null (R140). -/
def execHwSetCallbacks (receivedCb sentCb : Bool) (s : State) : Result :=
  whenLive s fun s => .next { s with hwCbSet := receivedCb && sentCb }

/-- `hw_addr <- addr` (R141, R160 step 0). -/
def State.withHwAddr (addr : BusAddr) (s : State) : State := { s with hwAddr := addr }

/-- Meaning of `HW_SET_ADDRESS`: `hw_addr <- addr[6:0]` (R141). -/
def execHwSetAddress (addr : Byte) (s : State) : Result :=
  whenLive s fun s => .next (s.withHwAddr (addr.setWidth 7))

/-- Meaning of `HW_SET_RECVBUFFER` (R142). -/
def execHwSetRecvbuffer (buf : BufId) (len : Len) (s : State) : Result :=
  whenLive s fun s => .next { s with hwRecvBuf := some buf, hwRecvLen := len }

/-- Meaning of `HW_SET_SENDBUFFER` (R143). -/
def execHwSetSendbuffer (buf : BufId) (len : Len) (s : State) : Result :=
  whenLive s fun s => .next { s with hwSendBuf := some buf, hwSendLen := len }

end Sys2Proof.Machine
end

