-- ==== Sys2Proof/Machine/RegisterBuffer.lean ====
section
/-! DEFINITION. The host's Register Buffer operations (40_register_buffer.md R110 to R120). A transfer is
atomic per byte and a bit operation is a read step and a write step; interrupt steps may fall between
(20_memory.md R67 d). -/

namespace Sys2Proof.Machine

/-! ## Byte transfers -/

/-- The byte writes of a transfer from offset `pos`, one atomic step each (R112). -/
def byteWrites : Nat → List Byte → List (State → Result)
  | _, [] => []
  | pos, b :: bs => (fun s => .next (s.storeRb pos b)) :: byteWrites (pos + 1) bs

/-- `RB_WRITE(pos, len, v)` (R112): the check, then the bytes in ascending order, then the hook. DESIGN
CHOICE: the hook call is one step with the last byte (log 36). -/
def rbWrite (pos len : Nat) (v : List Byte) (s : State) : Result :=
  if !s.inBounds pos len then raise .outOfBounds s
  else andThen (mainSteps (byteWrites pos (v.take len)) s) (fireHook .write pos len)

/-- The byte reads of a transfer, one atomic step each; `acc` holds the bytes read before (R113). -/
def byteReads : (pos n : Nat) → (acc : List Byte) → (k : List Byte → State → Result) → State → Result
  | _, 0, acc, k, s => k acc s
  | pos, 1, acc, k, s => k (acc ++ [Memory.byte s.rb pos]) s
  | pos, n + 2, acc, k, s =>
    andThenMain (.next s) (byteReads (pos + 1) (n + 1) (acc ++ [Memory.byte s.rb pos]) k)

/-- `RB_READ(pos, len)` (R113): the check, the bytes, the hook; `k` gets the bytes. DESIGN CHOICE: the hook
call is one step with the last byte (log 36). -/
def rbRead (pos len : Nat) (k : List Byte → State → Result) (s : State) : Result :=
  if !s.inBounds pos len then raise .outOfBounds s
  else byteReads pos len [] (fun out s => andThen (fireHook .read pos len s) (k out)) s

/-! ## Bit operations -/

/-- `RB_BIT_GET(pos, b)` (R114); `k` gets the bit. DESIGN CHOICE: no hook is called (log 18). -/
def rbBitGet (pos : Nat) (b : Byte) (k : Bool → State → Result) (s : State) : Result :=
  if !s.inBounds pos 1 then raise .outOfBounds s
  else if 7 < b.toNat then raise .invalidArgument s
  else k (bitOf (Memory.byte s.rb pos) b.toNat) s

/-- A read-modify-write of `RB[pos]`: the read step, then the write step of `f` of what was read, then the
hook (R115, R116). DESIGN CHOICE: the hook call is one step with the write (log 36). -/
def modifyByte (pos : Nat) (f : Byte → Byte) (s : State) : Result :=
  andThenMain (.next s) fun s' => fireHook .write pos 1 (s'.storeRb pos (f (Memory.byte s.rb pos)))

/-- `RB_BIT_SET(pos, b, v)` (R115). -/
def rbBitSet (pos : Nat) (b : Byte) (v : Bool) (s : State) : Result :=
  if !s.inBounds pos 1 then raise .outOfBounds s
  else if 7 < b.toNat then raise .invalidArgument s
  else modifyByte pos (fun t => setBit t b.toNat v) s

/-- `RB_MASK(pos, m, v)` (R116). -/
def rbMask (pos : Nat) (m v : Byte) (s : State) : Result :=
  if !s.inBounds pos 1 then raise .outOfBounds s
  else modifyByte pos (fun t => maskBits t m v) s

/-! ## Cursor, typed values, fill -/

/-- `RB_WRITE` at an offset or at the cursor, which then moves (R112, R117). -/
def rbWriteAt (place : Place) (len : Nat) (v : List Byte) (s : State) : Result :=
  andThen (rbWrite (placeOffset s place) len v s) fun s => .next (s.advanceCursor place len)

/-- A typed write: `RB_WRITE` of the value's bytes in the order of `FIELD_ENDIAN` (R119). -/
def rbTypedWrite (pos w value : Nat) (s : State) : Result :=
  rbWrite pos w (typedBytes s.cfg.fieldEndian w value) s

/-- `RB_SEEK(pos)` (R117): the test is `pos < L` alone (log 28). -/
def rbSeek (pos : Len) (s : State) : Result :=
  if pos.toNat < s.rbLen.toNat then .next { s with rbPos := pos } else raise .outOfBounds s

/-- `RB_FILL(v)` (R120): nothing when `L = 0`, else the bounds rule, which every host transfer is under
(R65, R110, R111; DEDUCED, log 37), then every byte, one atomic step each. DESIGN CHOICE: no hook is called
(log 18). -/
def rbFill (v : Byte) (s : State) : Result :=
  if s.rbLen = 0 then .next s
  else if !s.inBounds 0 s.rbLen.toNat then raise .outOfBounds s
  else mainSteps (byteWrites 0 (List.replicate s.rbLen.toNat v)) s

/-! ## Meanings -/

/-- Meaning of `RB_WRITE`, at an offset or at the cursor (R112, R117). -/
def execRbWrite (place : Place) (len : Len) (v : List Byte) (s : State) : Result :=
  whenLive s (rbWriteAt place len.toNat v)

/-- Meaning of `RB_READ`, at an offset or at the cursor (R113, R117). -/
def execRbRead (place : Place) (len : Len) (s : State) : Result :=
  whenLive s fun s =>
    rbRead (placeOffset s place) len.toNat
      (fun out s => .next ((s.advanceCursor place len.toNat).emit (.bytes out))) s

/-- Meaning of `RB_BIT_GET` (R114). -/
def execRbBitGet (pos : Len) (b : Byte) (s : State) : Result :=
  whenLive s (rbBitGet pos.toNat b fun v s => .next (s.emit (.bit v)))

/-- Meaning of `RB_BIT_SET` (R115). -/
def execRbBitSet (pos : Len) (b : Byte) (v : Bool) (s : State) : Result :=
  whenLive s (rbBitSet pos.toNat b v)

/-- Meaning of `RB_MASK` (R116). -/
def execRbMask (pos : Len) (m v : Byte) (s : State) : Result := whenLive s (rbMask pos.toNat m v)

/-- Meaning of `RB_SEEK` (R117). -/
def execRbSeek (pos : Len) (s : State) : Result := whenLive s (rbSeek pos)

/-- Meaning of `RB_TYPED` (R119): `RB_READ` or `RB_WRITE` of the value's bytes in the order of
`FIELD_ENDIAN`. -/
def execRbTyped (pos w : Len) (value : Option Nat) (s : State) : Result :=
  whenLive s fun s =>
    match value with
    | none =>
      rbRead pos.toNat w.toNat
        (fun out s => .next (s.emit (.value (typedValue s.cfg.fieldEndian out)))) s
    | some v => rbTypedWrite pos.toNat w.toNat v s

/-- Meaning of `RB_FILL` (R120). -/
def execRbFill (v : Byte) (s : State) : Result := whenLive s (rbFill v)

end Sys2Proof.Machine
end

