-- ==== Sys2Proof/Machine/Manager.lean ====
section
/-! DEFINITION. The Slave Buffer Manager's host calls (42_buffer_manager.md): `update`, `connected`, the
setters, construction; and the host's unnamed binding of a Register Buffer (R21, N7). -/

namespace Sys2Proof.Machine

/-! ## update (R160) -/

/-- Step 0: a pending bus address is handed to the hardware (D16). The cursor is `any` from here on
(U7, log 8). -/
def updateStep0 (s : State) : Result :=
  let s := s.cursorLost
  if s.cfgAddrDirty then .next { s.withHwAddr s.cfgAddr with cfgAddrDirty := false } else .next s

/-- Step 1: the atomic snapshot, which reads and clears the result (R71). -/
def updateStep1 (s : State) : Result :=
  .next { s with snap := some { result := s.hwResult, info := s.hwLast }, hwResult := .wait }

/-- The snapshot shows a completed transaction (R160 step 2). -/
def State.snapCompleted (s : State) : Bool :=
  match s.snap with
  | some p => decide (p.result = .sent) || decide (p.result = .received)
  | none => false

/-- Step 2: a completed send or receive restarts the Liveness Timer. -/
def updateStep2 (s : State) : Result := if s.snapCompleted then .next s.ltRestarted else .next s

/-- Resizes the send staging buffer when its length differs from `L + H`. -/
def syncSend (s : State) : Result :=
  if s.sbLen.toNat ≠ s.rbLen.toNat + s.cfg.h then resizeSend (s.rbLen.toNat + s.cfg.h) s else .next s

/-- Resizes the receive staging buffer when its length differs from `L + 1`. -/
def syncRecv (s : State) : Result :=
  if s.rxbLen.toNat ≠ s.rbLen.toNat + 1 then resizeRecv (s.rbLen.toNat + 1) s else .next s

/-- Step 3: the staging buffers are sized to the Register Buffer; not gated by `hw_communicating`
(R164 f). -/
def updateStep3 (s : State) : Result :=
  if s.rbUsable then andThen (syncSend s) syncRecv else .next s

/-- Step 4: the gate and the refresh it guards, one atomic step (R76). The snapshot ends with the
`update` (R39 g). -/
def updateStep4 (s : State) : Result :=
  andThen (if s.rbUsable && !s.hwCommunicating then refresh s else .next s) fun s =>
    .next { s with snap := none }

/-- `update()` (R160): five atomic steps in this order, interrupt steps falling between. -/
def managerUpdate : State → Result :=
  mainSteps [updateStep0, updateStep1, updateStep2, updateStep3, updateStep4]

/-! ## Binding and construction -/

/-- A Register Buffer of length `len` is bound, or none; its bytes are `any` (U8, log 9). A buffer above
`L_MAX` is outside the spec (R9, log 31). -/
def bindBuffer (b : Binding) (s : State) : Result :=
  if s.cfg.lMax.toNat < b.len.toNat then .refused .lengthAboveCapacity
  else .next { s.drawn with
    rbPresent := b.present
    rbLen := b.len
    rb := Memory.ofBytes (freeBytes s.draws 0 b.len.toNat) }

/-- The host's pending reconfiguration is carried out, between two of its operations (R21, N7, log 9). -/
def applyBinding (b : Binding) (s : State) : Result := bindBuffer b { s with rebind := none }

/-- The binding an operand of a construction asks for. DESIGN CHOICE: no buffer has length 0 (log 20). -/
def bindingOf : Option Len → Binding
  | some len => { present := true, len := len }
  | none => { present := false, len := 0 }

/-- The manager's variables at their reset values, the callbacks registered (R161); no staging buffer is
allocated, so the hardware holds none (R40). DESIGN CHOICE: the hardware's lengths and the cursor are
cleared with them (log 20). -/
def State.managerReset (s : State) : State :=
  { s with
    rbPos := 0
    sbLen := 0
    sb := []
    rxbLen := 0
    rxb := []
    hwSendBuf := none
    hwSendLen := 0
    hwRecvBuf := none
    hwRecvLen := 0
    lastAddr := 0x00
    cfgTimeout := s.cfg.tReset
    cfgAddr := s.cfg.addrReset
    cfgAddrDirty := false
    snap := none
    ltRemaining := 0
    ltRunning := false
    hwCbSet := true }

/-- Construction of the manager (R161). -/
def constructManager (buf : Option Len) (s : State) : Result :=
  andThen (bindBuffer (bindingOf buf) s) fun s => .next s.managerReset

/-! ## Meanings -/

/-- Meaning of `UPDATE` (R160). -/
def execUpdate (s : State) : Result := whenLive s managerUpdate

/-- Meaning of `CONNECTED` (R168): no side effect. -/
def execConnected (s : State) : Result := whenLive s fun s => .next (s.emit (.bit s.isConnected))

/-- Meaning of `SET_TIMEOUT` (R169): the running count is not touched. -/
def execSetTimeout (ticks : Ticks) (s : State) : Result :=
  whenLive s fun s => .next { s with cfgTimeout := ticks }

/-- Meaning of `SET_ADDRESS` (R170): pending until step 0 of the next `update`. -/
def execSetAddress (busAddress : Len) (s : State) : Result :=
  whenLive s fun s =>
    if 0x7F < busAddress.toNat then raise .invalidArgument s
    else .next { s with cfgAddr := busAddress.setWidth 7, cfgAddrDirty := true }

/-- Meaning of `MGR_CONSTRUCT` (R161). -/
def execMgrConstruct (buf : Option Len) (s : State) : Result := whenLive s (constructManager buf)

end Sys2Proof.Machine
end

