-- ==== Sys2Proof/Machine/Module.lean ====
section
/-! DEFINITION. The Module Base Type (43_module_layer.md): construction, `MOD_UPDATE` with the rewrite of the
constants on a connection change, and the field accessors. Everything runs in the main context, so
interrupt steps may fall between any two of its atomic steps (20_memory.md R67, log 25). -/

namespace Sys2Proof.Machine

/-- `write_header()`: the three signature bytes (R203). -/
def writeHeader : State → Result :=
  mainSteps [fun s => rbWrite 0 2 [s.cfg.sigFixed0, s.cfg.sigFixed1] s,
    fun s => rbWrite 2 1 [s.cfg.sigType] s]

/-- One Register Buffer operation of a module's `write_constants` (R206). -/
def constantWrite : ConstantWrite → State → Result
  | .bytes pos v => rbWrite pos.toNat v.length v
  | .atCursor v => rbWriteAt .cursor v.length v
  | .seek pos => rbSeek pos
  | .typed pos w x => rbTypedWrite pos.toNat w.toNat x
  | .bit pos b v => rbBitSet pos.toNat b v
  | .mask pos m v => rbMask pos.toNat m v
  | .fill v => rbFill v

/-- `write_constants()`: the module's writes; a null capability that is invoked panics (R206). -/
def writeConstants (s : State) : Result :=
  match s.cfg.constants with
  | none => raise .nullCallback s
  | some ws => mainSteps (ws.map constantWrite) s

/-- `RB_BIT_SET(12, 0, 1)`: Active asserted (R202, R205). -/
def assertActive : State → Result := rbBitSet statusPos activeBit true

/-- `RB_BIT_SET(12, 1, v)`: Operational set or cleared (R202, R223). -/
def setOperational (v : Bool) : State → Result := rbBitSet statusPos operationalBit v

/-- `prev_connected <- c` (R205). -/
def storeConnected (c : Bool) (s : State) : Result := .next { s with prevConnected := c }

/-- The rewrite on a connection change (R205): header, Active, constants. -/
def rewriteConstants : State → Result := mainSteps [writeHeader, assertActive, writeConstants]

/-- `MOD_UPDATE()` (R205). -/
def moduleUpdate (s : State) : Result :=
  andThenMain (managerUpdate s) fun s =>
    let c := s.isConnected
    andThenMain (.next s) fun s =>
      if c ≠ s.prevConnected then mainSteps [rewriteConstants, storeConnected c] s
      else storeConnected c s

/-- `MOD_CONSTRUCT(hw, buf)` (R202). -/
def constructModule (buf : Len) : State → Result :=
  mainSteps [constructManager (some buf), rbFill 0x00, assertActive, setOperational true,
    storeConnected false]

/-! ## Meanings -/

/-- Meaning of `MOD_CONSTRUCT` (R202). -/
def execModConstruct (buf : Len) (s : State) : Result := whenLive s (constructModule buf)

/-- Meaning of `MOD_UPDATE` (R205). -/
def execModUpdate (s : State) : Result := whenLive s moduleUpdate

/-- Meaning of `MOD_CONNECTED` (R204). -/
def execModConnected (s : State) : Result := whenLive s fun s => .next (s.emit (.bit s.isConnected))

/-- Meaning of `WRITE_HEADER` (R203). -/
def execWriteHeader (s : State) : Result := whenLive s writeHeader

/-- Meaning of `WRITE_CONSTANTS` (R206). -/
def execWriteConstants (s : State) : Result := whenLive s writeConstants

/-- Meaning of `SET_ID` (R208). -/
def execSetId (id : Byte) (s : State) : Result := whenLive s (rbWrite idPos 1 [id])

/-- Meaning of `SET_NAME` (R209). -/
def execSetName (name : List Byte) (len : Len) (s : State) : Result :=
  whenLive s (rbWrite namePos (min len.toNat nameSize) (nameBytes name len))

/-- Meaning of `GET_LED` (R210). -/
def execGetLed (s : State) : Result :=
  whenLive s fun s => rbBitGet s.cfg.ledPos.toNat s.cfg.ledBit (fun v s => .next (s.emit (.bit v))) s

/-- Meaning of `GET_POWER` (R210). -/
def execGetPower (s : State) : Result :=
  whenLive s fun s =>
    rbBitGet s.cfg.powerPos.toNat s.cfg.powerBit (fun v s => .next (s.emit (.bit v))) s

end Sys2Proof.Machine
end

