-- ==== Sys2Proof/Machine/Motor.lean ====
section
/-! DEFINITION. The MotorController (44_motor_controller.md R220 to R230), surrounding software that the spec
describes as far as its source goes. -/

namespace Sys2Proof.Machine

/-- `set_oc(x)`: the state and its status bits, written only on a change (R223, R229). -/
def setOverCurrent (x : OverCurrent) (s : State) : Result :=
  if s.mcOc = x then .next s
  else mainSteps [fun s => .next { s with mcOc := x },
    fun s => rbMask statusPos s.cfg.ocMask (overCurrentBits s.cfg x) s] s

/-- `mc_mode <- m`. -/
def storeMode (m : DriveMode) (s : State) : Result := .next { s with mcMode := m }

/-- Restart of the protection timer as a step (R222). -/
def restartProtection (s : State) : Result := .next s.ptRestarted

/-- The master's reset request: the bit is cleared, the overcurrent state returns to `None`, the timer
restarts (R224). -/
def resetRequest (s : State) : Result :=
  rbBitGet settingsPos s.cfg.resetBit (fun requested s =>
    if requested then
      andThenMain (.next s) (mainSteps
        [fun s => rbBitSet settingsPos s.cfg.resetBit false s, setOverCurrent .none, restartProtection])
    else .next s) s

/-- One overcurrent step (R225, R226): `None` to `PWM`, else to `Off`. -/
def overCurrentStep (s : State) : Result :=
  if s.mcOc = .none then mainSteps [setOverCurrent .pwm, storeMode .pwm] s
  else mainSteps [setOverCurrent .off, storeMode .off, setOperational false] s

/-- `over`: connected, the measured current above the limit of the drive mode, not yet `Off` (R223). -/
def State.overCurrent (s : State) (connected : Bool) (iMeas imaxOff imaxVoltage imaxPwm : Current) :
    Bool :=
  connected && decide ((currentLimit imaxOff imaxVoltage imaxPwm s.mcMode).toNat < iMeas.toNat)
    && decide (s.mcOc ≠ .off)

/-- Overcurrent evaluation: a step when the timer has run out, else the timer is left running; without
overcurrent it restarts (R223, R227). -/
def evaluateCurrent (connected : Bool) (iMeas imaxOff imaxVoltage imaxPwm : Current) (s : State) :
    Result :=
  if s.overCurrent connected iMeas imaxOff imaxVoltage imaxPwm then
    if s.ptExpired then overCurrentStep s else .next s
  else restartProtection s

/-- `mc_mode <- SEL_MODE()`, the decode of the settings byte `RB[13]` (R221, R228). DESIGN CHOICE: the byte is
read bounds-checked, in one step with the store, and no hook is called (log 18). -/
def slaveMode (s : State) : Result :=
  if !s.inBounds settingsPos 1 then raise .outOfBounds s
  else storeMode (selectMode s.cfg.modeRows s.cfg.modeElse s.settingsByte) s

/-- While the overcurrent state is `None` the drive mode follows the settings byte and Operational is
asserted (R228). -/
def slaveToSettings (s : State) : Result :=
  if s.mcOc = .none then mainSteps [slaveMode, setOperational true] s else .next s

/-- `MC_UPDATE()` (R223). -/
def motorUpdate (iMeas imaxOff imaxVoltage imaxPwm : Current) (s : State) : Result :=
  andThenMain (moduleUpdate s) fun s =>
    let c := s.isConnected
    andThenMain (.next s) (mainSteps
      [resetRequest, evaluateCurrent c iMeas imaxOff imaxVoltage imaxPwm, slaveToSettings])

/-- Meaning of `MC_UPDATE` (R223). -/
def execMcUpdate (iMeas imaxOff imaxVoltage imaxPwm : Current) (s : State) : Result :=
  whenLive s (motorUpdate iMeas imaxOff imaxVoltage imaxPwm)

end Sys2Proof.Machine
end

