-- ==== Sys2Proof/Machine/Reset.lean ====
section
/-! DEFINITION. `RESET` (70_reset_and_hazards.md R270, R271). -/

namespace Sys2Proof.Machine

/-- Meaning of `RESET`: enabled in every state, a panicked one included; a transaction in flight is dropped
with no result and no callback (R270, R271). -/
def execReset (s : State) : Result := .next s.afterReset

end Sys2Proof.Machine
end

