-- ==== Sys2Proof/Machine/Dispatch.lean ====
section
/-! DEFINITION. The meaning of every operation, one arm for each constructor of Instr. -/

namespace Sys2Proof.Machine

def exec (i : Instr) (s : State) : Host.Outcome State Fault Refusal :=
  match i with
  | .mw a7 frame => Sys2Proof.Machine.execMw a7 frame s
  | .mr a7 n => Sys2Proof.Machine.execMr a7 n s
  | .mwr a7 a n => Sys2Proof.Machine.execMwr a7 a n s
  | .busStart a7 rw => Sys2Proof.Machine.execBusStart a7 rw s
  | .busWbyte b => Sys2Proof.Machine.execBusWbyte b s
  | .busRbyte => Sys2Proof.Machine.execBusRbyte s
  | .busEnd => Sys2Proof.Machine.execBusEnd s
  | .busAbort kind => Sys2Proof.Machine.execBusAbort kind s
  | .hwCommunicating => Sys2Proof.Machine.execHwCommunicating s
  | .hwResult => Sys2Proof.Machine.execHwResult s
  | .hwLastTransaction => Sys2Proof.Machine.execHwLastTransaction s
  | .hwSetCallbacks receivedCb sentCb => Sys2Proof.Machine.execHwSetCallbacks receivedCb sentCb s
  | .hwSetAddress addr => Sys2Proof.Machine.execHwSetAddress addr s
  | .hwSetRecvbuffer buf len => Sys2Proof.Machine.execHwSetRecvbuffer buf len s
  | .hwSetSendbuffer buf len => Sys2Proof.Machine.execHwSetSendbuffer buf len s
  | .update => Sys2Proof.Machine.execUpdate s
  | .connected => Sys2Proof.Machine.execConnected s
  | .setTimeout ticks => Sys2Proof.Machine.execSetTimeout ticks s
  | .setAddress busAddress => Sys2Proof.Machine.execSetAddress busAddress s
  | .mgrConstruct buf => Sys2Proof.Machine.execMgrConstruct buf s
  | .received n => Sys2Proof.Machine.execReceived n s
  | .sent n => Sys2Proof.Machine.execSent n s
  | .refresh => Sys2Proof.Machine.execRefresh s
  | .resizeSend m => Sys2Proof.Machine.execResizeSend m s
  | .resizeRecv m => Sys2Proof.Machine.execResizeRecv m s
  | .rbWrite place len v => Sys2Proof.Machine.execRbWrite place len v s
  | .rbRead place len => Sys2Proof.Machine.execRbRead place len s
  | .rbBitGet pos b => Sys2Proof.Machine.execRbBitGet pos b s
  | .rbBitSet pos b v => Sys2Proof.Machine.execRbBitSet pos b v s
  | .rbMask pos m v => Sys2Proof.Machine.execRbMask pos m v s
  | .rbSeek pos => Sys2Proof.Machine.execRbSeek pos s
  | .rbTyped pos w value => Sys2Proof.Machine.execRbTyped pos w value s
  | .rbFill v => Sys2Proof.Machine.execRbFill v s
  | .ltStart => Sys2Proof.Machine.execLtStart s
  | .ltAssign t => Sys2Proof.Machine.execLtAssign t s
  | .ltTick => Sys2Proof.Machine.execLtTick s
  | .ltExpired => Sys2Proof.Machine.execLtExpired s
  | .modConstruct buf => Sys2Proof.Machine.execModConstruct buf s
  | .modUpdate => Sys2Proof.Machine.execModUpdate s
  | .modConnected => Sys2Proof.Machine.execModConnected s
  | .writeHeader => Sys2Proof.Machine.execWriteHeader s
  | .writeConstants => Sys2Proof.Machine.execWriteConstants s
  | .setId id => Sys2Proof.Machine.execSetId id s
  | .setName nm len => Sys2Proof.Machine.execSetName nm len s
  | .getLed => Sys2Proof.Machine.execGetLed s
  | .getPower => Sys2Proof.Machine.execGetPower s
  | .mcUpdate iMeas imaxOff imaxVoltage imaxPwm => Sys2Proof.Machine.execMcUpdate iMeas imaxOff imaxVoltage imaxPwm s
  | .reset => Sys2Proof.Machine.execReset s

end Sys2Proof.Machine
end

