-- ==== Sys2Proof/Machine/Step.lean ====
section
/-! DEFINITION. One step of the block: the host's pending reconfiguration, else the operation at the front
of the input stream (R10, R72; assumption log 1, 2, 9). -/

namespace Sys2Proof.Machine

/-- Takes the operation at the front of the input stream and runs it on the state without its record; an
empty stream offers nothing. -/
def runNext (s : State) : Host.Outcome State Fault Refusal :=
  match decode s.inbox with
  | .ok (i, rest) => exec i { s with inbox := rest }
  | .error .noInput => whenIdle s
  | .error why => .refused (.undecodable why)

/-- One step. In a panicked state the host does not act (R240), so only a `RESET` at the front of the
stream has a step. -/
def step (s : State) : Host.Outcome State Fault Refusal :=
  match s.rebind, s.panic with
  | some b, none => applyBinding b s
  | _, _ => runNext s

/-- `s` with the record whose bits are `w` offered next, and no reconfiguration before it. -/
def State.withFetchWord (s : State) (nbits w : Nat) : State :=
  { s with inbox := recordOfWord nbits w, rebind := none }

end Sys2Proof.Machine
end

