-- ==== Sys2Proof/Safety.lean ====
section
/-! DEFINITION. What a good state of the block is, in the terms the statements use: the spaces list exactly
their offsets, the frame header stands at the front of SB (R36, R162), the parameters have admitted
values (R9), the staging invariant (R36), the boot and hazard rules of the host (R244, R273). -/

namespace Sys2Proof.Machine

/-! ## The invariant -/

/-- The frame header stands at the front of SB, as far as SB has room for it (R36, R162: "The frame header is copied only
here; refresh never writes `SB[0..H-1]`"). -/
def State.headerInPlace (s : State) : Bool :=
  decide (Memory.bytes s.sb 0 (min s.cfg.h s.sbLen.toNat) = s.cfg.fhdr.take s.sbLen.toNat)

/-- The invariant every step keeps: each space lists exactly its offsets (R38, R36), the Register Buffer
is no longer than `L_MAX` (R9), the frame header is in place (R162), the parameters are admitted. -/
def State.wf (s : State) : Bool :=
  Memory.spans s.rb s.rbLen.toNat && Memory.spans s.sb s.sbLen.toNat
    && Memory.spans s.rxb s.rxbLen.toNat && decide (s.rbLen.toNat ≤ s.cfg.lMax.toNat)
    && s.headerInPlace && s.cfg.wf

/-! ## Hooks -/

/-- The hook of this kind is not a null pointer that a transfer would invoke (R118). -/
def hookSafe (c : Config) (kind : HookKind) : Bool := !(c.hasHook && hookNull c kind)

/-- The same for the hook at the manager's own accesses (U6). -/
def managerHookSafe (c : Config) (kind : HookKind) : Bool := !c.hookOnManager || hookSafe c kind

/-- What a transfer of the host puts out: one hook call when there is a hook (R118). -/
def hookCalls (c : Config) (kind : HookKind) (pos len : Nat) : List Output :=
  if c.hasHook then [.hook kind pos len] else []

/-- What an access of the manager puts out (U6). -/
def managerCalls (c : Config) (kind : HookKind) (pos len : Nat) : List Output :=
  if c.hookOnManager then hookCalls c kind pos len else []

/-! ## When operations run undisturbed -/

/-- No panic, and no interrupt step falls between the atomic steps of the next host call (R100: "steps 0
to 4 with no interleaved event"). -/
def State.quiet (s : State) : Bool := decide (s.panic = none) && decide (s.preempt = [])

/-- The staging lengths the Register Buffer asks for can be allocated (R162). -/
def State.canAllocate (s : State) : Bool :=
  decide (s.allocFail = []) && decide (s.rbLen.toNat + s.cfg.h ≤ lenMax)
    && decide (s.rbLen.toNat + s.cfg.h ≤ s.cfg.capTx) && decide (s.rbLen.toNat + 1 ≤ lenMax)
    && decide (s.rbLen.toNat + 1 ≤ s.cfg.capRx)

/-- A refresh of the manager can run: `last_addr` lies in the buffer and its read fires no null hook
(R163, R118). -/
def State.canRefresh (s : State) : Bool :=
  decide (s.lastAddr.toNat < s.rbLen.toNat) && managerHookSafe s.cfg .read

/-- An undisturbed `update` meets no panic condition (R160, R162, R163). -/
def State.updateReady (s : State) : Bool :=
  s.quiet && (!s.rbUsable || (s.canAllocate && (s.hwCommunicating || s.canRefresh)))

/-- The staging invariant (R36, R40): both staging buffers have the length the Register Buffer asks for and
the hardware holds them. -/
def State.staged (s : State) : Bool :=
  decide (s.sbLen.toNat = s.rbLen.toNat + s.cfg.h) && decide (s.rxbLen.toNat = s.rbLen.toNat + 1)
    && decide (s.hwSendLen = s.sbLen) && decide (s.hwRecvLen = s.rxbLen)

/-- The boot and hazard rules the host keeps before the master acts (R244): no panic, callbacks registered,
a bound and non-empty buffer, `update` run since its length last changed, `last_addr` inside it, no null
hook that the manager would fire. -/
def State.booted (s : State) : Bool :=
  decide (s.panic = none) && s.hwCbSet && s.rbUsable && s.staged && s.canRefresh
    && managerHookSafe s.cfg .write

/-- The bus operations the master can produce in this state (R130); a byte 65536 of one read is outside the
spec (U9). -/
def masterCan (i : Instr) (s : State) : Bool :=
  match i with
  | .mw _ _ => true
  | .mr _ _ => true
  | .mwr _ _ _ => true
  | .busStart _ _ => true
  | .busWbyte _ => s.receiving
  | .busRbyte => s.sending && decide (s.txCnt.toNat < lenMax)
  | .busEnd => s.hwCommunicating
  | .busAbort _ => s.hwCommunicating
  | _ => false

/-- The operations by which host software reads and writes RB (40_register_buffer.md, R203, R206 to R210). -/
def hostBufferOp : Instr → Bool
  | .rbWrite _ _ _ => true
  | .rbRead _ _ => true
  | .rbBitGet _ _ => true
  | .rbBitSet _ _ _ => true
  | .rbMask _ _ _ => true
  | .rbSeek _ => true
  | .rbTyped _ _ _ => true
  | .rbFill _ => true
  | .writeHeader => true
  | .writeConstants => true
  | .setId _ => true
  | .setName _ _ => true
  | .getLed => true
  | .getPower => true
  | _ => false

/-- The operations that construct the manager anew or reset the block (R161, R202, R270). -/
def restartOp : Instr → Bool
  | .mgrConstruct _ => true
  | .modConstruct _ => true
  | .reset => true
  | _ => false

/-- An undisturbed `MOD_UPDATE` meets no panic condition before its constants writer: the manager's `update`
does not, a bound buffer holds the status byte, the write hook is no null pointer (R205). -/
def State.moduleReady (s : State) : Bool :=
  s.updateReady && s.rbPresent && decide (13 ≤ s.rbLen.toNat) && hookSafe s.cfg .write

/-- The same for `MC_UPDATE`, which also reads the settings byte (R223), with the base constants writer
(R206). -/
def State.motorReady (s : State) : Bool :=
  s.moduleReady && decide (s.cfg.constants = some []) && decide (14 ≤ s.rbLen.toNat)
    && decide (s.cfg.resetBit.toNat ≤ 7)

/-! ## Inside an update -/

/-- What steps 0 to 2 of an undisturbed `update` leave (R160): the address handed over, the result taken into
the snapshot and consumed, the timer restarted by a completed transaction, the cursor free (U7, log 8). -/
def State.polled (s : State) : State :=
  { s with
    hwAddr := if s.cfgAddrDirty then s.cfgAddr else s.hwAddr
    cfgAddrDirty := false
    snap := some { result := s.hwResult, info := s.hwLast }
    hwResult := .wait
    ltRemaining := if s.hwResult = .sent ∨ s.hwResult = .received then s.cfgTimeout else s.ltRemaining
    ltRunning := if s.hwResult = .sent ∨ s.hwResult = .received then true else s.ltRunning
    rbPos := Config.freePos s.draws
    draws := s.draws + 1
    out := [] }

/-- The send staging buffer of `t` is that of `s` discarded and resized (R162): the length the Register Buffer
asks for, the frame header in place, free bytes after it, the buffer handed to the hardware. -/
def sendResized (s t : State) : Prop :=
  t.sbLen.toNat = s.rbLen.toNat + s.cfg.h ∧ t.hwSendBuf = some .sb ∧ t.hwSendLen = t.sbLen ∧
    ∃ k, ∀ x, Memory.read t.sb x =
      if x < s.cfg.h then s.cfg.fhdr[x]?
      else if x < t.sbLen.toNat then some (Config.freeByte k x) else none

/-- The receive staging buffer of `t` is that of `s` discarded and resized (R162). -/
def recvResized (s t : State) : Prop :=
  t.rxbLen.toNat = s.rbLen.toNat + 1 ∧ t.hwRecvBuf = some .rxb ∧ t.hwRecvLen = t.rxbLen ∧
    ∃ k, ∀ x, Memory.read t.rxb x = if x < t.rxbLen.toNat then some (Config.freeByte k x) else none

/-- Step 3 of an `update` leads from the staging buffers of `s` to those of `t` (R160): each is kept when its
length is right and resized when not. -/
def synced (s t : State) : Prop :=
  (if s.sbLen.toNat = s.rbLen.toNat + s.cfg.h then
    t.sbLen = s.sbLen ∧ t.sb = s.sb ∧ t.hwSendBuf = s.hwSendBuf ∧ t.hwSendLen = s.hwSendLen
  else sendResized s t) ∧
  (if s.rxbLen.toNat = s.rbLen.toNat + 1 then
    t.rxbLen = s.rxbLen ∧ t.rxb = s.rxb ∧ t.hwRecvBuf = s.hwRecvBuf ∧ t.hwRecvLen = s.hwRecvLen
  else recvResized s t)

/-! ## Time -/

/-- `n` ticks, one after another (R194). -/
def ticksOf : Nat → State → Result
  | 0, s => .next s
  | n + 1, s => andThen (exec .ltTick s) (ticksOf n)

/-! ## The wire -/

/-- The bytes put on the wire, in order. -/
def wireBytes : List Output → List Byte
  | [] => []
  | .wire c :: os => c :: wireBytes os
  | _ :: os => wireBytes os

/-- Byte `i` of the master read frame: the frame header, the Register Buffer from `a` to its end, then
zeros (R92). -/
def frameByteAt (c : Config) (rb : Memory) (l a i : Nat) : Byte :=
  if i < c.h then c.fhdr.getD i 0x00
  else if i < c.h + (l - a) then Memory.byte rb (a + (i - c.h)) else 0x00

end Sys2Proof.Machine
end

