-- ==== Sys2Proof/Certificates/Slice0/Obligations.lean ====
section
/-! DEFINITION. The statements for the provers. A next state is written as the state before with the fields
named that may change, so each statement carries its frame. A free value (`Config.freePos`,
`Config.freeByte`, `Config.freeInfo`, `Config.freeDir`) stands for every value it may have. The fields
`rbPos` and `draws` change where U7 makes the cursor `any`. -/

open Sys2Proof Sys2Proof.Machine

/-! ## Records and steps -/

/-- Every well-formed operation, with every operand at every value, is read back from its record, and the
bytes after the record are left (R100, log 1: the record layout is the model's). -/
def Obligations.EveryOperationDecodesFromItsRecord : Prop :=
  ∀ (i : Instr) (rest : List Byte), i.wellFormed = true → decode (encode i ++ rest) = .ok (i, rest)

/-- What decodes is well-formed, and no other bytes than its record were taken: a record has one meaning and
an operation one record (log 1). -/
def Obligations.ADecodedOperationHasOneRecord : Prop :=
  ∀ (bs rest : List Byte) (i : Instr), decode bs = .ok (i, rest) →
    i.wellFormed = true ∧ bs = encode i ++ rest

/-- Sanity: records that carry wire bytes the spec writes out (the address bytes of R94 and R132, the frames of
R91 and R92, the write and the read of program P1) decode to their operations. The row number, the length
bytes and the count bytes of each record are the model's choice (log 1). -/
def Obligations.WireBytesOfTheSpecDecode : Prop :=
  decode [1, 0x40, 3, 0, 0x04, 0xAA, 0xBB] = .ok (.mw 0x20 [0x04, 0xAA, 0xBB], []) ∧
  decode [2, 0x41, 6, 0] = .ok (.mr 0x20 6, []) ∧
  decode [3, 0x40, 0x00, 0x41, 14, 0] = .ok (.mwr 0x20 0x00 14, []) ∧
  decode [4, 0x40] = .ok (.busStart 0x20 .write, []) ∧
  decode [4, 0x41] = .ok (.busStart 0x20 .read, [])

/-- When the bytes at the front of the input stream decode to an operation, and no reconfiguration of the
host comes first, the step is that operation on the state without its record (log 1). -/
def Obligations.AStepRunsTheDecodedOperation : Prop :=
  ∀ (s : State) (i : Instr) (rest : List Byte), s.rebind = none ∨ s.panic ≠ none →
    decode s.inbox = .ok (i, rest) → step s = exec i { s with inbox := rest }

/-- The host's unnamed reconfiguration (R21, N7, U8; log 9): the new presence and length, every byte of the
buffer free, nothing else. -/
def Obligations.AStepBindsTheHostsBuffer : Prop :=
  ∀ (s : State) (b : Binding), s.panic = none → s.rebind = some b →
    b.len.toNat ≤ s.cfg.lMax.toNat →
    ∃ t, step s = .next t ∧
      t = { s with rebind := none, rbPresent := b.present, rbLen := b.len, rb := t.rb,
                   draws := s.draws + 1 } ∧
      ∀ a, Memory.read t.rb a =
        if a < b.len.toNat then some (Config.freeByte s.draws a) else none

/-! ## Reset, panic, invariants -/

/-- `RESET` gives every variable the value of the table of R270; `hw_last` and `hw_dir` are free. It does so
from every state with an admitted configuration (the premise: the parameters are in the ranges of R9 and a
Module has the header's 14 bytes of R33; log 26 says what the model does outside), a panicked state
included. That no other operation leaves a panic is `APanickedBlockOnlyResets`. The transaction in flight is
dropped (R271). -/
def Obligations.ResetGivesEveryVariableItsTableValue : Prop :=
  ∀ s : State, s.cfg.wf = true → ∃ t, exec .reset s = .next t ∧
    t.panic = none ∧ t.rbPresent = s.cfg.rbPresent ∧ t.rbLen = s.cfg.rbLen ∧
    (∀ a, Memory.read t.rb a =
      if a < s.cfg.rbLen.toNat then
        some (if (s.cfg.hasModule && s.cfg.rbPresent) = true ∧ a = 12 then 0x03 else 0x00)
      else none) ∧
    t = { s with
      panic := none, rbPresent := s.cfg.rbPresent, rbLen := s.cfg.rbLen, rb := t.rb, rbPos := 0
      sbLen := 0, sb := [], rxbLen := 0, rxb := [], hwSendLen := 0, hwRecvLen := 0
      hwSendBuf := none, hwRecvBuf := none, lastAddr := 0, cfgTimeout := s.cfg.tReset
      cfgAddr := s.cfg.addrReset, hwAddr := s.cfg.addrReset, cfgAddrDirty := false
      ltRemaining := 0, ltRunning := false, hwCommunicating := false, hwResult := .wait
      hwLast := t.hwLast, hwDir := t.hwDir, hwCbSet := true, rxCnt := 0, txCnt := 0
      rxOver := false, prevConnected := false, mcOc := .none, mcMode := .off
      ptRemaining := 0, ptRunning := false, snap := none, out := [], draws := s.draws + 1 }

/-- The state after reset meets the invariant for every admitted configuration, and so does the one the
model names (log 3). -/
def Obligations.ResetStatesMeetTheInvariant : Prop :=
  State.reset.wf = true ∧ ∀ c : Config, c.wf = true → (State.resetOf c).wf = true

/-- From every state that meets the invariant, every step, with any interrupt steps falling inside it, leads
to a state that meets it: the three spaces list exactly their offsets, the Register Buffer stays within
`L_MAX`, the frame header stays at the front of SB, as far as SB has room for it. -/
def Obligations.EveryStepKeepsTheInvariant : Prop :=
  ∀ s t : State, s.wf = true → step s = .next t → t.wf = true

/-- No step changes a parameter of the block (R9; the spec says so of the frame header, D18: "fixed at
construction, never changed afterwards", for the others it is the model's reading, log 3). -/
def Obligations.NoStepChangesTheParameters : Prop :=
  ∀ s t : State, step s = .next t → t.cfg = s.cfg

/-- A panicked block: no operation but `RESET` has a step, and `RESET` clears the panic (R43). -/
def Obligations.APanickedBlockOnlyResets : Prop :=
  ∀ (s : State) (c : PanicCause), s.panic = some c →
    (∀ i : Instr, i ≠ .reset → exec i s = .fault (.halted c)) ∧
    (∃ t, exec .reset s = .next t ∧ t.panic = none)

/-- An operation that answers has written `last_addr` only with an address inside the Register Buffer, and
only where `received` can run; construction and reset apart (R24 a). -/
def Obligations.LastAddrIsOnlyWrittenInRange : Prop :=
  ∀ (i : Instr) (s t : State), restartOp i = false → s.preempt = [] → exec i s = .next t →
    t.lastAddr = s.lastAddr ∨
      (t.rbPresent = true ∧ t.lastAddr.toNat < t.rbLen.toNat ∧
        ((∃ a7 f, i = .mw a7 f) ∨ (∃ a7 n, i = .mr a7 n) ∨ (∃ a7 a n, i = .mwr a7 a n) ∨
          (∃ a7 rw, i = .busStart a7 rw) ∨ i = .busEnd ∨ (∃ n, i = .received n)))

/-- A host access to RB leaves SB as it is: what the host writes is not visible to the master until a
refresh (R74). -/
def Obligations.HostAccessesLeaveTheSendBuffer : Prop :=
  ∀ (i : Instr) (s t : State), hostBufferOp i = true → s.preempt = [] → exec i s = .next t →
    t.sb = s.sb ∧ t.sbLen = s.sbLen ∧ t.lastAddr = s.lastAddr

/-! ## Timers -/

/-- `LT_START`, `LT_ASSIGN` and `LT_TICK` (R190, R191, R192): a tick takes one from each running, nonzero
count, of the protection timer too, and saturates at zero. -/
def Obligations.TimerOperationsChangeTheirCountsOnly : Prop :=
  ∀ (s : State) (t : Ticks), s.panic = none →
    exec .ltStart s = .next { s with ltRunning := true, out := [] } ∧
    exec (.ltAssign t) s = .next { s with ltRemaining := t, out := [] } ∧
    exec .ltTick s = .next { s with
      ltRemaining :=
        if s.ltRunning = true ∧ s.ltRemaining ≠ 0 then s.ltRemaining - 1 else s.ltRemaining
      ptRemaining :=
        if s.ptRunning = true ∧ s.ptRemaining ≠ 0 then s.ptRemaining - 1 else s.ptRemaining
      out := [] }

/-- The six queries return what they name and change nothing: `connected()`, the Module's `connected()`,
`expired`, and the contract's three (R168, R193, R204, R137, R138, R139). -/
def Obligations.QueriesChangeNothing : Prop :=
  ∀ s : State, s.panic = none →
    exec .connected s = .next { s with out := [.bit (decide (s.ltRemaining ≠ 0))] } ∧
    exec .modConnected s = .next { s with out := [.bit (decide (s.ltRemaining ≠ 0))] } ∧
    exec .ltExpired s = .next { s with out := [.bit (decide (s.ltRemaining = 0))] } ∧
    exec .hwCommunicating s = .next { s with out := [.bit s.hwCommunicating] } ∧
    exec .hwResult s = .next { s with out := [.result s.hwResult] } ∧
    exec .hwLastTransaction s = .next { s with out := [.info s.hwLast] }

/-- Liveness (R195): after a restart with timeout `T >= 1`, `connected()` is true after `j` ticks for every
`j < T` and false after `T` ticks; a restart after any `j` ticks begins the count again at `T`. -/
def Obligations.ConnectedLastsExactlyTheTimeout : Prop :=
  ∀ s : State, s.panic = none → 1 ≤ s.cfgTimeout.toNat →
    (∀ j, j < s.cfgTimeout.toNat → ∃ t, ticksOf j s.ltRestarted = .next t ∧
      t.isConnected = true ∧ t.ltRestarted.ltRemaining = s.cfgTimeout) ∧
    (∃ t, ticksOf s.cfgTimeout.toNat s.ltRestarted = .next t ∧ t.isConnected = false)

/-! ## Register Buffer -/

/-- The bounds rule (R111): a transfer is in bounds iff a buffer is bound, `pos < L` and `pos + len <= L`;
out of bounds it is `Panic(OutOfBounds)` before any byte moves, whichever transfer it is: at an offset, at
the cursor (which then stays), typed, of one bit or of masked bits. -/
def Obligations.OutOfBoundsTransfersPanicFirst : Prop :=
  ∀ (s : State) (pos len : Len) (v : List Byte) (x : Option Nat) (b m y : Byte) (d : Bool),
    s.panic = none →
    (s.inBounds pos.toNat len.toNat = true ↔
      s.rbPresent = true ∧ pos.toNat < s.rbLen.toNat ∧ pos.toNat + len.toNat ≤ s.rbLen.toNat) ∧
    (s.inBounds pos.toNat len.toNat = false →
      exec (.rbWrite (.offset pos) len v) s = .next { s with panic := some .outOfBounds, out := [] } ∧
      exec (.rbRead (.offset pos) len) s = .next { s with panic := some .outOfBounds, out := [] } ∧
      exec (.rbTyped pos len x) s = .next { s with panic := some .outOfBounds, out := [] }) ∧
    (s.inBounds s.rbPos.toNat len.toNat = false →
      exec (.rbWrite .cursor len v) s = .next { s with panic := some .outOfBounds, out := [] } ∧
      exec (.rbRead .cursor len) s = .next { s with panic := some .outOfBounds, out := [] }) ∧
    (s.inBounds pos.toNat 1 = false →
      exec (.rbBitGet pos b) s = .next { s with panic := some .outOfBounds, out := [] } ∧
      exec (.rbBitSet pos b d) s = .next { s with panic := some .outOfBounds, out := [] } ∧
      exec (.rbMask pos m y) s = .next { s with panic := some .outOfBounds, out := [] })

/-- `RB_WRITE` in bounds (R112): byte `i` of the data lands at offset `pos + i`, no other byte of RB and
nothing else changes; the write hook is called once. -/
def Obligations.WriteStoresItsBytesAndNothingElse : Prop :=
  ∀ (s : State) (pos len : Len) (v : List Byte), s.quiet = true → hookSafe s.cfg .write = true →
    v.length = len.toNat → s.inBounds pos.toNat len.toNat = true →
    ∃ t, exec (.rbWrite (.offset pos) len v) s = .next t ∧
      t = { s with rb := t.rb, out := hookCalls s.cfg .write pos.toNat len.toNat } ∧
      ∀ a, Memory.read t.rb a =
        if pos.toNat ≤ a ∧ a < pos.toNat + len.toNat then v[a - pos.toNat]? else Memory.read s.rb a

/-- `RB_READ` in bounds (R113) returns the bytes in ascending order and changes no state of the block; the
read hook is called once. -/
def Obligations.ReadReturnsTheBytesAndChangesNothing : Prop :=
  ∀ (s : State) (pos len : Len), s.wf = true → s.quiet = true → hookSafe s.cfg .read = true →
    s.inBounds pos.toNat len.toNat = true →
    ∃ v : List Byte, v.length = len.toNat ∧
      (∀ i, i < len.toNat → v[i]? = Memory.read s.rb (pos.toNat + i)) ∧
      exec (.rbRead (.offset pos) len) s = .next { s with
        out := hookCalls s.cfg .read pos.toNat len.toNat ++ [.bytes v] }

/-- The cursor-relative transfers (R117): the same transfer at `rb_pos`, then the cursor moves by the length
when the sum is below `L` and is free otherwise. -/
def Obligations.CursorTransfersMoveTheCursor : Prop :=
  ∀ (s : State) (len : Len) (v : List Byte), s.quiet = true → hookSafe s.cfg .write = true →
    hookSafe s.cfg .read = true → v.length = len.toNat → s.inBounds s.rbPos.toNat len.toNat = true →
    ∃ t u, exec (.rbWrite (.offset s.rbPos) len v) s = .next t ∧
      exec (.rbRead (.offset s.rbPos) len) s = .next u ∧
      (if s.rbPos.toNat + len.toNat < s.rbLen.toNat then
        exec (.rbWrite .cursor len v) s = .next { t with rbPos := s.rbPos + len } ∧
        exec (.rbRead .cursor len) s = .next { u with rbPos := s.rbPos + len }
      else
        exec (.rbWrite .cursor len v) s =
          .next { t with rbPos := Config.freePos s.draws, draws := s.draws + 1 } ∧
        exec (.rbRead .cursor len) s =
          .next { u with rbPos := Config.freePos s.draws, draws := s.draws + 1 })

/-- `RB_BIT_GET` (R114): bit `b` of the byte for `b` up to 7, `Panic(InvalidArgument)` above. That
no read hook is called, so that a null one does not panic, is the model's choice (log 18). -/
def Obligations.BitGetReturnsTheBit : Prop :=
  ∀ (s : State) (pos : Len) (b : Byte), s.panic = none → s.inBounds pos.toNat 1 = true →
    exec (.rbBitGet pos b) s =
      if b.toNat ≤ 7 then
        .next { s with out := [.bit ((Memory.byte s.rb pos.toNat).getLsbD b.toNat)] }
      else .next { s with panic := some .invalidArgument, out := [] }

/-- `RB_BIT_SET` (R115) for `b` up to 7: that bit takes the value, the other seven bits, every other byte and
all else stay; above 7 it is `Panic(InvalidArgument)`. -/
def Obligations.BitSetChangesOneBit : Prop :=
  ∀ (s : State) (pos : Len) (b : Byte) (v : Bool), s.quiet = true → hookSafe s.cfg .write = true →
    s.inBounds pos.toNat 1 = true →
    (b.toNat ≤ 7 → ∃ t, exec (.rbBitSet pos b v) s = .next t ∧
      t = { s with rb := t.rb, out := hookCalls s.cfg .write pos.toNat 1 } ∧
      (∀ k, k < 8 → (Memory.byte t.rb pos.toNat).getLsbD k =
        if k = b.toNat then v else (Memory.byte s.rb pos.toNat).getLsbD k) ∧
      (∀ a, a ≠ pos.toNat → Memory.read t.rb a = Memory.read s.rb a)) ∧
    (7 < b.toNat →
      exec (.rbBitSet pos b v) s = .next { s with panic := some .invalidArgument, out := [] })

/-- `RB_MASK` (R116): the bits under the mask take the value's, the others, every other byte and all else
stay. -/
def Obligations.MaskChangesTheMaskedBits : Prop :=
  ∀ (s : State) (pos : Len) (m v : Byte), s.quiet = true → hookSafe s.cfg .write = true →
    s.inBounds pos.toNat 1 = true →
    ∃ t, exec (.rbMask pos m v) s = .next t ∧
      t = { s with rb := t.rb, out := hookCalls s.cfg .write pos.toNat 1 } ∧
      (∀ k, k < 8 → (Memory.byte t.rb pos.toNat).getLsbD k =
        if m.getLsbD k then v.getLsbD k else (Memory.byte s.rb pos.toNat).getLsbD k) ∧
      (∀ a, a ≠ pos.toNat → Memory.read t.rb a = Memory.read s.rb a)

/-- A read-modify-write is not atomic (R67 d, R115): interrupt steps between its read and its write are
undone in the byte it writes, whatever they stored there. -/
def Obligations.BitSetLosesAWriteThatFallsBetween : Prop :=
  ∀ (s u : State) (pos : Len) (b : Byte) (v : Bool) (es : List Interrupt) (later : List (List Interrupt)),
    s.panic = none → s.preempt = es :: later → s.inBounds pos.toNat 1 = true → b.toNat ≤ 7 →
    deliver es { s with preempt := later, out := [] } = .next u → u.panic = none →
    u.cfg.hasHook = false →
    ∃ t, exec (.rbBitSet pos b v) s = .next t ∧ t = { u with rb := t.rb } ∧
      (∀ k, k < 8 → (Memory.byte t.rb pos.toNat).getLsbD k =
        if k = b.toNat then v else (Memory.byte s.rb pos.toNat).getLsbD k) ∧
      (∀ a, a ≠ pos.toNat → Memory.read t.rb a = Memory.read u.rb a)

/-- `RB_SEEK` (R117): the cursor moves below `L`; else `Panic(OutOfBounds)`. That a bound buffer is not asked
for is the model's reading (log 28). -/
def Obligations.SeekMovesTheCursorInside : Prop :=
  ∀ (s : State) (pos : Len), s.panic = none →
    exec (.rbSeek pos) s =
      if pos.toNat < s.rbLen.toNat then .next { s with rbPos := pos, out := [] }
      else .next { s with panic := some .outOfBounds, out := [] }

/-- A typed write lays the value's bytes out in the order of `FIELD_ENDIAN`, the least significant first under
`little` and last under `big`, changes only the bytes of its range, and a typed read of the same width at
the same place returns the value (R119, R62). That a typed value is an unsigned number is the model's
choice (log 21). -/
def Obligations.TypedReadReturnsTheTypedWrite : Prop :=
  ∀ (s : State) (pos w : Len) (x : Nat), s.wf = true → s.quiet = true →
    hookSafe s.cfg .write = true → hookSafe s.cfg .read = true → x < 256 ^ w.toNat →
    s.inBounds pos.toNat w.toNat = true →
    ∃ t, exec (.rbTyped pos w (some x)) s = .next t ∧
      t = { s with rb := t.rb, out := hookCalls s.cfg .write pos.toNat w.toNat } ∧
      (∀ j, j < w.toNat →
        (s.cfg.fieldEndian = .little →
          Memory.read t.rb (pos.toNat + j) = some (BitVec.ofNat 8 (x / 256 ^ j))) ∧
        (s.cfg.fieldEndian = .big →
          Memory.read t.rb (pos.toNat + (w.toNat - 1 - j)) = some (BitVec.ofNat 8 (x / 256 ^ j)))) ∧
      (∀ a, a < pos.toNat ∨ pos.toNat + w.toNat ≤ a → Memory.read t.rb a = Memory.read s.rb a) ∧
      exec (.rbTyped pos w none) t = .next { t with
        out := hookCalls s.cfg .read pos.toNat w.toNat ++ [.value x] }

/-- `RB_FILL` (R120): every byte of the buffer; nothing, and no panic, when `L = 0`. With `L` not 0 and no
buffer bound it is `Panic(OutOfBounds)` before any byte moves (R65, R111; the reading is the model's, log
37). That no write hook is called is the model's choice (log 18). -/
def Obligations.FillSetsEveryByte : Prop :=
  ∀ (s : State) (v : Byte), s.quiet = true →
    (s.rbPresent = true ∨ s.rbLen = 0 →
      ∃ t, exec (.rbFill v) s = .next t ∧ t = { s with rb := t.rb, out := [] } ∧
        ∀ a, Memory.read t.rb a = if a < s.rbLen.toNat then some v else Memory.read s.rb a) ∧
    (s.rbPresent = false → s.rbLen ≠ 0 →
      exec (.rbFill v) s = .next { s with panic := some .outOfBounds, out := [] })

/-! ## Bus hardware -/

/-- `BUS_START` (R132) with the bus idle begins a transaction when the address matches and changes nothing
otherwise; while a transaction is in flight it first does what `BUS_END` does. -/
def Obligations.StartBeginsATransaction : Prop :=
  ∀ (s : State) (a7 : BusAddr) (rw : BusDir), s.panic = none →
    (s.hwCommunicating = false → exec (.busStart a7 rw) s =
      if a7 = s.hwAddr then
        .next { s with hwCommunicating := true, hwDir := rw, rxCnt := 0, txCnt := 0,
                       rxOver := false, out := [] }
      else .next { s with out := [] }) ∧
    (s.hwCommunicating = true → ∀ u, exec .busEnd s = .next u → u.panic = none →
      exec (.busStart a7 rw) s =
        if a7 = u.hwAddr then
          .next { u with hwCommunicating := true, hwDir := rw, rxCnt := 0, txCnt := 0, rxOver := false }
        else .next u)

/-- `BUS_WBYTE` (R133): below the length handed over the byte is stored at `rx_cnt` and counted; beyond it is
discarded and the overflow recorded. That a byte RXB has no offset for, under a length handed over that
exceeds RXB, is an excess byte too is the model's reading of R99 case 5 (log 15). -/
def Obligations.ReceivedByteIsStoredOrDiscarded : Prop :=
  ∀ (s : State) (b : Byte), s.panic = none → s.hwCommunicating = true → s.hwDir = .write →
    (s.rxCnt.toNat < s.hwRecvLen.toNat → (Memory.read s.rxb s.rxCnt.toNat).isSome = true →
      ∃ t, exec (.busWbyte b) s = .next t ∧
        t = { s with rxb := t.rxb, rxCnt := s.rxCnt + 1, out := [] } ∧
        ∀ a, Memory.read t.rxb a = if a = s.rxCnt.toNat then some b else Memory.read s.rxb a) ∧
    (s.hwRecvLen.toNat ≤ s.rxCnt.toNat ∨ Memory.read s.rxb s.rxCnt.toNat = none →
      exec (.busWbyte b) s = .next { s with rxOver := true, out := [] })

/-- `BUS_RBYTE` (R134): byte `tx_cnt` of SB below the length handed over, `0x00` beyond; nothing but `tx_cnt`
changes. That it is `0x00` too where SB has no such offset, under a length handed over that exceeds SB, is
the model's reading of R99 case 6 (log 15). -/
def Obligations.SentByteComesFromTheSendBuffer : Prop :=
  ∀ (s : State) (c : Byte), s.panic = none → s.hwCommunicating = true → s.hwDir = .read →
    s.txCnt.toNat < 65535 →
    (s.txCnt.toNat < s.hwSendLen.toNat ∧ Memory.read s.sb s.txCnt.toNat = some c ∨
      (s.hwSendLen.toNat ≤ s.txCnt.toNat ∨ Memory.read s.sb s.txCnt.toNat = none) ∧ c = 0x00) →
    exec .busRbyte s = .next { s with txCnt := s.txCnt + 1, out := [.wire c] }

/-- `BUS_END` of a master write (R135): under `nack` an overflowed frame ends as `NACKSent` with no callback;
otherwise the result and Transaction Info are recorded and `received` runs, or the missing callback
panics. -/
def Obligations.EndOfAWriteRunsReceived : Prop :=
  ∀ s : State, s.panic = none → s.hwCommunicating = true → s.hwDir = .write →
    (s.rxOver = true ∧ s.cfg.rxOverflow = .nack → exec .busEnd s =
      .next { s with hwCommunicating := false, hwResult := .nackSent, out := [] }) ∧
    (¬ (s.rxOver = true ∧ s.cfg.rxOverflow = .nack) → s.hwCbSet = true → exec .busEnd s =
      exec (.received s.rxCnt) { s with
        hwCommunicating := false, hwResult := .received, hwLast := ⟨.receive, .rxb, s.rxCnt⟩ }) ∧
    (¬ (s.rxOver = true ∧ s.cfg.rxOverflow = .nack) → s.hwCbSet = false → exec .busEnd s =
      .next { s with
        hwCommunicating := false, hwResult := .received, hwLast := ⟨.receive, .rxb, s.rxCnt⟩
        panic := some .nullCallback, out := [] })

/-- `BUS_END` of a master read (R135, R97): `Sent`, with the bytes taken from SB; nothing else but the
missing callback's panic. The callback `sent` itself does nothing (R167). -/
def Obligations.EndOfAReadRecordsSent : Prop :=
  (∀ s : State, s.panic = none → s.hwCommunicating = true → s.hwDir = .read →
    exec .busEnd s = .next { s with
      hwCommunicating := false, hwResult := .sent
      hwLast := ⟨.send, .sb, BitVec.ofNat 16 (min s.txCnt.toNat s.hwSendLen.toNat)⟩
      panic := if s.hwCbSet then none else some .nullCallback
      out := [] }) ∧
  ∀ (s : State) (n : Len), s.panic = none → exec (.sent n) s = .next { s with out := [] }

/-- `BUS_ABORT` (R136): the transaction ends, the result is the anomaly, nothing else changes. -/
def Obligations.AbortRecordsTheAnomalyOnly : Prop :=
  ∀ s : State, s.panic = none → s.hwCommunicating = true →
    exec (.busAbort .error) s =
      .next { s with hwCommunicating := false, hwResult := .error, out := [] } ∧
    exec (.busAbort .nackSent) s =
      .next { s with hwCommunicating := false, hwResult := .nackSent, out := [] }

/-- A bus event that is not enabled has no step (R130): no byte event outside its direction, no end or abort
without a transaction. -/
def Obligations.DisabledBusEventsHaveNoStep : Prop :=
  ∀ (s : State) (b : Byte) (k : AbortKind), s.panic = none →
    (¬ (s.hwCommunicating = true ∧ s.hwDir = .write) → exec (.busWbyte b) s = .fault .notEnabled) ∧
    (¬ (s.hwCommunicating = true ∧ s.hwDir = .read) → exec .busRbyte s = .fault .notEnabled) ∧
    (s.hwCommunicating = false →
      exec .busEnd s = .fault .notEnabled ∧ exec (.busAbort k) s = .fault .notEnabled)

/-- The contract's setters store their operands and nothing else; the callbacks count as registered when both
are non-null, of the address bits 6:0 are kept (R140, R141, R142, R143). -/
def Obligations.HardwareSettersStoreTheirOperands : Prop :=
  ∀ (s : State) (r t : Bool) (a : Byte) (buf : BufId) (len : Len), s.panic = none →
    exec (.hwSetCallbacks r t) s = .next { s with hwCbSet := r && t, out := [] } ∧
    exec (.hwSetAddress a) s = .next { s with hwAddr := a.extractLsb' 0 7, out := [] } ∧
    exec (.hwSetRecvbuffer buf len) s =
      .next { s with hwRecvBuf := some buf, hwRecvLen := len, out := [] } ∧
    exec (.hwSetSendbuffer buf len) s =
      .next { s with hwSendBuf := some buf, hwSendLen := len, out := [] }

/-! ## Whole frames -/

/-- Traffic to another slave's address changes nothing (R132, R99 case 1). -/
def Obligations.TrafficToAnotherSlaveChangesNothing : Prop :=
  ∀ (s : State) (a7 : BusAddr) (f : List Byte) (a : Byte) (n : Len) (rw : BusDir), s.panic = none →
    s.hwCommunicating = false → a7 ≠ s.hwAddr →
    exec (.mw a7 f) s = .next { s with out := [] } ∧ exec (.mr a7 n) s = .next { s with out := [] } ∧
    exec (.mwr a7 a n) s = .next { s with out := [] } ∧
    exec (.busStart a7 rw) s = .next { s with out := [] }

/-- A whole master write `[a, d0, d1, ..]` (R91, R93, R166, R172, R173): an in-range address becomes
`last_addr`, the data land at `a, a+1, ..` up to the end of the buffer and SB is refreshed; an out-of-range
address leaves RB, SB and `last_addr`; it ends as `Received` with the bytes stored. A frame longer than the
receive buffer is cut to it, or under `nack` ends as `NACKSent` and leaves all but RXB (R99 case 5). That
with `L > 256` the data go on past offset 255 is the model's choice (log 35). -/
def Obligations.MasterWriteLandsInTheRegisterBuffer : Prop :=
  ∀ (s : State) (a : Byte) (d : List Byte), s.wf = true → s.booted = true →
    s.hwCommunicating = false →
    ∃ t, exec (.mw s.hwAddr (a :: d)) s = .next t ∧ t.panic = none ∧
      t = { s with
        hwDir := .write, rxCnt := BitVec.ofNat 16 (min (1 + d.length) s.rxbLen.toNat), txCnt := 0
        rxOver := decide (s.rxbLen.toNat < 1 + d.length), hwResult := t.hwResult, hwLast := t.hwLast
        rxb := t.rxb, rb := t.rb, sb := t.sb, lastAddr := t.lastAddr
        rbPos := t.rbPos, draws := t.draws, out := t.out } ∧
      (∀ x, Memory.read t.rxb x =
        if x < min (1 + d.length) s.rxbLen.toNat then (a :: d)[x]? else Memory.read s.rxb x) ∧
      (if s.rxbLen.toNat < 1 + d.length ∧ s.cfg.rxOverflow = .nack then
        t.hwResult = .nackSent ∧ t.hwLast = s.hwLast ∧ t.lastAddr = s.lastAddr ∧ t.rb = s.rb ∧
          t.sb = s.sb ∧ t.rbPos = s.rbPos ∧ t.draws = s.draws ∧ t.out = []
      else
        t.hwResult = .received ∧ t.hwLast = ⟨.receive, .rxb, t.rxCnt⟩ ∧ t.draws = s.draws + 1 ∧
        if a.toNat < s.rbLen.toNat then
          t.lastAddr = a ∧
          (∀ x, Memory.read t.rb x =
            if a.toNat ≤ x ∧ x < a.toNat + min (s.rbLen.toNat - a.toNat) d.length then d[x - a.toNat]?
            else Memory.read s.rb x) ∧
          (∀ x, x < s.sbLen.toNat →
            Memory.read t.sb x = some (frameByteAt s.cfg t.rb s.rbLen.toNat a.toNat x)) ∧
          (∀ x, s.sbLen.toNat ≤ x → Memory.read t.sb x = none)
        else t.lastAddr = s.lastAddr ∧ t.rb = s.rb ∧ t.sb = s.sb ∧ t.out = [])

/-- A whole master read (R92, R173): the `n` bytes are SB from its start, then zeros; it ends as `Sent`; RB,
SB and `last_addr` are unchanged. -/
def Obligations.MasterReadReturnsTheSendBuffer : Prop :=
  ∀ (s : State) (n : Len), s.wf = true → s.panic = none → s.hwCommunicating = false →
    s.hwCbSet = true → s.hwSendLen = s.sbLen →
    ∃ bs : List Byte, bs.length = n.toNat ∧
      (∀ x, x < n.toNat → bs[x]? = some ((Memory.read s.sb x).getD 0x00)) ∧
      exec (.mr s.hwAddr n) s = .next { s with
        hwDir := .read, rxCnt := 0, txCnt := n, rxOver := false, hwResult := .sent
        hwLast := ⟨.send, .sb, BitVec.ofNat 16 (min n.toNat s.sbLen.toNat)⟩
        out := bs.map Output.wire }

/-- Read-after-write (R171): after a master write `[a, d0, ..]` with `a < L`, a master read that starts after
it returns the frame header, then the Register Buffer from `a` with the data written, then zeros; no
`update` is needed between. The read is the one that follows at once; a write refused under `nack` is left
out, as nothing of it is kept. That with `L > 256` the data and the read go on past offset 255 is the
model's choice (log 35). -/
def Obligations.MasterReadsBackWhatItWrote : Prop :=
  ∀ (s : State) (a : Byte) (d : List Byte) (n : Len), s.wf = true → s.booted = true →
    s.hwCommunicating = false → 1 + d.length ≤ s.rxbLen.toNat ∨ s.cfg.rxOverflow ≠ .nack →
    a.toNat < s.rbLen.toNat →
    ∃ t u, exec (.mw s.hwAddr (a :: d)) s = .next t ∧ exec (.mr s.hwAddr n) t = .next u ∧
      u.panic = none ∧ u.rb = t.rb ∧ u.sb = t.sb ∧ u.lastAddr = a ∧
      (wireBytes u.out).length = n.toNat ∧
      (∀ x, x < n.toNat → (wireBytes u.out)[x]? =
        some (frameByteAt s.cfg t.rb s.rbLen.toNat a.toNat x)) ∧
      (∀ x, x < min d.length (s.rbLen.toNat - a.toNat) →
        Memory.read t.rb (a.toNat + x) = d[x]?)

/-- The combined access `MWR a7 [a] n` (R101): it is `MW a7 [a]` followed at once by `MR a7 n`; for an
in-range address it returns the frame header, the Register Buffer from `a`, then zeros, and changes no byte
of the Register Buffer.A read of `H + 14` bytes from address 0 gives the 14 common-header bytes after the frame
header (R201; that `n` counts the frame header's bytes too: R101, log 39). That with `L > 256` the read goes on past offset 255 is the model's choice (log 35). -/
def Obligations.CombinedAccessReadsFromItsAddress : Prop :=
  ∀ (s : State) (a : Byte) (n : Len), s.wf = true → s.booted = true →
    s.hwCommunicating = false → a.toNat < s.rbLen.toNat →
    ∃ t u, exec (.mw s.hwAddr [a]) s = .next t ∧ exec (.mr s.hwAddr n) t = .next u ∧
      exec (.mwr s.hwAddr a n) s = .next { u with out := t.out ++ u.out } ∧
      u.rb = s.rb ∧ u.lastAddr = a ∧ (wireBytes u.out).length = n.toNat ∧
      (∀ x, x < n.toNat → (wireBytes u.out)[x]? =
        some (frameByteAt s.cfg s.rb s.rbLen.toNat a.toNat x)) ∧
      (a = 0x00 → n.toNat = s.cfg.h + 14 → 14 ≤ s.rbLen.toNat →
        ∀ x, x < 14 → (wireBytes u.out)[s.cfg.h + x]? = Memory.read s.rb x)

/-- No master traffic panics a block whose host keeps the boot and hazard rules, and the block still keeps
them afterwards, whatever frames the master sends (R244). That a frame with no byte, which R99 case 3 and
U1 leave open, completes too is the model's choice (log 7), and so is that the manager's accesses may fire
the hooks, for which a premise rules out null ones (log 18). -/
def Obligations.MasterTrafficNeverPanics : Prop :=
  ∀ (s : State) (i : Instr), s.wf = true → s.booted = true → masterCan i s = true →
    i.wellFormed = true →
    ∃ t, exec i s = .next t ∧ t.panic = none ∧ t.booted = true ∧ t.wf = true

/-! ## Manager -/

/-- An undisturbed `update` with the bus idle and a usable buffer (R160, R162, R163): a pending address is
handed over, the result is consumed, a completed transaction restarts the timer, both staging buffers
have their lengths, and SB is the frame header, RB from `last_addr`, then zeros. -/
def Obligations.UpdateSynchronisesAndRefreshes : Prop :=
  ∀ s : State, s.wf = true → s.updateReady = true → s.rbUsable = true → s.hwCommunicating = false →
    ∃ t, exec .update s = .next t ∧ t.panic = none ∧
      t = { s with
        hwAddr := if s.cfgAddrDirty then s.cfgAddr else s.hwAddr, cfgAddrDirty := false
        hwResult := .wait, ltRemaining := t.ltRemaining, ltRunning := t.ltRunning
        sbLen := t.sbLen, sb := t.sb, rxbLen := t.rxbLen, rxb := t.rxb
        hwSendBuf := t.hwSendBuf, hwSendLen := t.hwSendLen
        hwRecvBuf := t.hwRecvBuf, hwRecvLen := t.hwRecvLen
        snap := none, rbPos := t.rbPos, draws := t.draws, out := t.out } ∧
      (if s.hwResult = .sent ∨ s.hwResult = .received then
        t.ltRemaining = s.cfgTimeout ∧ t.ltRunning = true
      else t.ltRemaining = s.ltRemaining ∧ t.ltRunning = s.ltRunning) ∧
      t.sbLen.toNat = s.rbLen.toNat + s.cfg.h ∧ t.rxbLen.toNat = s.rbLen.toNat + 1 ∧
      (if s.sbLen.toNat = s.rbLen.toNat + s.cfg.h then
        t.hwSendBuf = s.hwSendBuf ∧ t.hwSendLen = s.hwSendLen
      else t.hwSendBuf = some .sb ∧ t.hwSendLen = t.sbLen) ∧
      (if s.rxbLen.toNat = s.rbLen.toNat + 1 then
        t.hwRecvBuf = s.hwRecvBuf ∧ t.hwRecvLen = s.hwRecvLen ∧ t.rxb = s.rxb
      else t.hwRecvBuf = some .rxb ∧ t.hwRecvLen = t.rxbLen) ∧
      (∀ x, x < t.sbLen.toNat → Memory.read t.sb x =
        some (frameByteAt s.cfg s.rb s.rbLen.toNat s.lastAddr.toNat x)) ∧
      (∀ x, t.sbLen.toNat ≤ x → Memory.read t.sb x = none)

/-- An undisturbed `update` that has nothing to refresh (R160, R164): with no usable buffer, or while a
transaction is in flight (the gate of step 4). SB is not refreshed, RB is unchanged; the address, the
result and the timer are treated as ever. Step 3 is not gated: staging buffers of the wrong length are
resized under the transaction, and SB then holds the frame header and free bytes (R164 f, R283). -/
def Obligations.UpdateSkipsTheRefreshInFlight : Prop :=
  ∀ s : State, s.quiet = true →
    ((s.rbUsable = false ∨ s.staged = true ∧ s.hwCommunicating = true) →
      exec .update s = .next { s.polled with snap := none }) ∧
    (s.rbUsable = true → s.canAllocate = true → s.hwCommunicating = true →
      ∃ t, exec .update s = .next t ∧ synced s t ∧
        t = { s.polled with
          sbLen := t.sbLen, sb := t.sb, hwSendBuf := t.hwSendBuf, hwSendLen := t.hwSendLen
          rxbLen := t.rxbLen, rxb := t.rxb, hwRecvBuf := t.hwRecvBuf, hwRecvLen := t.hwRecvLen
          snap := none, draws := t.draws })

/-- A panic in `update` leaves its earlier steps done and nothing more (R242): the address is handed over, the
result consumed, the timer restarted. `AllocFailure` when the send resize cannot be had, or the receive
resize, before which a send resize stands; `OutOfBounds` when the buffer was shrunk to `last_addr` or
below, after the resizes (R284). -/
def Obligations.UpdatePanicsAfterItsEarlierSteps : Prop :=
  ∀ s : State, s.quiet = true → s.rbUsable = true →
    (s.sbLen.toNat ≠ s.rbLen.toNat + s.cfg.h →
      (s.cfg.capTx < s.rbLen.toNat + s.cfg.h ∨ 65535 < s.rbLen.toNat + s.cfg.h ∨
        s.allocFail.head? = some true) →
      exec .update s =
        .next { s.polled with allocFail := s.allocFail.tail, panic := some .allocFailure }) ∧
    (s.sbLen.toNat = s.rbLen.toNat + s.cfg.h → s.rxbLen.toNat ≠ s.rbLen.toNat + 1 →
      (s.cfg.capRx < s.rbLen.toNat + 1 ∨ 65535 < s.rbLen.toNat + 1 ∨ s.allocFail.head? = some true) →
      exec .update s =
        .next { s.polled with allocFail := s.allocFail.tail, panic := some .allocFailure }) ∧
    (s.sbLen.toNat ≠ s.rbLen.toNat + s.cfg.h → s.rxbLen.toNat ≠ s.rbLen.toNat + 1 →
      s.rbLen.toNat + s.cfg.h ≤ s.cfg.capTx → s.rbLen.toNat + s.cfg.h ≤ 65535 →
      s.allocFail.head? ≠ some true →
      (s.cfg.capRx < s.rbLen.toNat + 1 ∨ 65535 < s.rbLen.toNat + 1 ∨
        s.allocFail.tail.head? = some true) →
      ∃ t, exec .update s = .next t ∧ sendResized s t ∧
        t = { s.polled with
          sbLen := t.sbLen, sb := t.sb, hwSendBuf := t.hwSendBuf, hwSendLen := t.hwSendLen
          allocFail := s.allocFail.tail.tail, draws := t.draws, panic := some .allocFailure }) ∧
    (s.staged = true ∨ s.canAllocate = true → s.hwCommunicating = false →
      s.rbLen.toNat ≤ s.lastAddr.toNat →
      ∃ t, exec .update s = .next t ∧ synced s t ∧
        t = { s.polled with
          sbLen := t.sbLen, sb := t.sb, hwSendBuf := t.hwSendBuf, hwSendLen := t.hwSendLen
          rxbLen := t.rxbLen, rxb := t.rxb, hwRecvBuf := t.hwRecvBuf, hwRecvLen := t.hwRecvLen
          draws := t.draws, panic := some .outOfBounds })

/-- A transaction, read or write, that completes between the snapshot and the end of one `update`, at any of the
three points after steps 1 to 3, is not lost (R71, R160): this `update` treats only the earlier result, the
new one stays pending, and the next `update` restarts the timer for it, but for a write that overflowed
under `nack`. That a write with no byte completes as well is the model's choice (log 7). -/
def Obligations.CompletionAfterTheSnapshotStaysPending : Prop :=
  ∀ (s : State) (k : Nat), s.wf = true → s.booted = true → s.hwCommunicating = true →
    1 ≤ k → k ≤ 3 → s.preempt = List.replicate k [] ++ [[.stop]] →
    ∃ t, exec .update s = .next t ∧ t.panic = none ∧ t.hwCommunicating = false ∧
      t.hwResult = (if s.hwDir = .read then .sent
        else if s.rxOver = true ∧ s.cfg.rxOverflow = .nack then .nackSent else .received) ∧
      t.ltRemaining = s.polled.ltRemaining ∧ t.ltRunning = s.polled.ltRunning ∧
      (t.hwResult ≠ .nackSent →
        ∃ u, exec .update t = .next u ∧ u.panic = none ∧ u.hwResult = .wait ∧
          u.ltRemaining = s.cfgTimeout ∧ u.ltRunning = true)

/-- `set_timeout` stores the timeout and touches no running count; `set_address` stores the pending address,
or panics above `0x7F` (R169, R170). -/
def Obligations.SettersStoreForLater : Prop :=
  ∀ (s : State) (t : Ticks) (x : Len), s.panic = none →
    exec (.setTimeout t) s = .next { s with cfgTimeout := t, out := [] } ∧
    (x.toNat ≤ 0x7F → exec (.setAddress x) s =
      .next { s with cfgAddr := BitVec.ofNat 7 x.toNat, cfgAddrDirty := true, out := [] }) ∧
    (0x7F < x.toNat →
      exec (.setAddress x) s = .next { s with panic := some .invalidArgument, out := [] })

/-- Construction of the manager (R161): every manager variable at its reset value, the callbacks registered,
no staging buffer; the bytes of the buffer bound are free (U8). That the hardware then holds no buffer,
that the cursor is cleared and that an absent buffer has length 0 are the model's choices (log 20). -/
def Obligations.ConstructionResetsTheManager : Prop :=
  ∀ (s : State) (buf : Option Len), s.panic = none →
    (∀ len, buf = some len → len.toNat ≤ s.cfg.lMax.toNat) →
    ∃ t, exec (.mgrConstruct buf) s = .next t ∧
      t = { s with
        rbPresent := buf.isSome, rbLen := buf.getD 0, rb := t.rb, rbPos := 0
        sbLen := 0, sb := [], rxbLen := 0, rxb := []
        hwSendBuf := none, hwSendLen := 0, hwRecvBuf := none, hwRecvLen := 0
        lastAddr := 0, cfgTimeout := s.cfg.tReset, cfgAddr := s.cfg.addrReset, cfgAddrDirty := false
        snap := none, ltRemaining := 0, ltRunning := false, hwCbSet := true
        draws := s.draws + 1, out := [] } ∧
      ∀ a, Memory.read t.rb a =
        if a < (buf.getD 0).toNat then some (Config.freeByte s.draws a) else none

/-- `received(RXB, n)` with `n >= 1` (R166): the copy, truncated to `min(L - a, n - 1)` bytes, then the
refresh; an out-of-range address changes nothing but the cursor, which is `any` (U7). That with `L > 256`
the copy goes on past offset 255 is the model's choice (log 35). -/
def Obligations.ReceivedCopiesThenRefreshes : Prop :=
  ∀ (s : State) (n : Len) (a : Byte), s.wf = true → s.booted = true → 1 ≤ n.toNat →
    n.toNat ≤ s.rxbLen.toNat → Memory.read s.rxb 0 = some a →
    ∃ t, exec (.received n) s = .next t ∧ t.panic = none ∧
      t = { s with lastAddr := t.lastAddr, rb := t.rb, sb := t.sb
                   rbPos := Config.freePos s.draws, draws := s.draws + 1, out := t.out } ∧
      (if a.toNat < s.rbLen.toNat then
        t.lastAddr = a ∧
        (∀ x, Memory.read t.rb x =
          if a.toNat ≤ x ∧ x < a.toNat + min (s.rbLen.toNat - a.toNat) (n.toNat - 1) then
            Memory.read s.rxb (1 + (x - a.toNat))
          else Memory.read s.rb x) ∧
        (∀ x, x < s.sbLen.toNat →
          Memory.read t.sb x = some (frameByteAt s.cfg t.rb s.rbLen.toNat a.toNat x))
      else t.lastAddr = s.lastAddr ∧ t.rb = s.rb ∧ t.sb = s.sb ∧ t.out = [])

/-- `refresh()` (R163): the data region of SB becomes RB from `last_addr`, then zeros, and nothing else
changes; a mis-sized SB or a `last_addr` outside the buffer is `Panic(OutOfBounds)`. That with no bound
buffer, outside the rule's precondition, `REFRESH` panics alike is the model's choice (log 29). -/
def Obligations.RefreshRewritesTheDataRegion : Prop :=
  ∀ s : State, s.wf = true → s.panic = none →
    (s.sbLen.toNat = s.rbLen.toNat + s.cfg.h → s.rbUsable = true → s.canRefresh = true →
      ∃ t, exec .refresh s = .next t ∧
        t = { s with sb := t.sb
                     out := managerCalls s.cfg .read s.lastAddr.toNat
                       (s.rbLen.toNat - s.lastAddr.toNat) } ∧
        (∀ x, x < s.cfg.h → Memory.read t.sb x = Memory.read s.sb x) ∧
        (∀ x, x < s.rbLen.toNat - s.lastAddr.toNat →
          Memory.read t.sb (s.cfg.h + x) = Memory.read s.rb (s.lastAddr.toNat + x)) ∧
        (∀ x, x < s.lastAddr.toNat →
          Memory.read t.sb (s.cfg.h + (s.rbLen.toNat - s.lastAddr.toNat) + x) = some 0x00) ∧
        (∀ x, s.sbLen.toNat ≤ x → Memory.read t.sb x = none)) ∧
    (s.sbLen.toNat ≠ s.rbLen.toNat + s.cfg.h ∨ s.rbPresent = false ∨
        s.rbLen.toNat ≤ s.lastAddr.toNat →
      exec .refresh s = .next { s with panic := some .outOfBounds, out := [] })

/-- `resize_send` and `resize_recv` (R162): the new length, the frame header in place, every other byte free,
the buffer handed to the hardware; a length that cannot be had is `Panic(AllocFailure)`. `last_addr` is
not changed. That a send length below `H`, which `update` never asks for, panics where the header loop
leaves SB is the model's reading of R65 (log 15). -/
def Obligations.ResizeDiscardsTheContents : Prop :=
  ∀ (s : State) (m : Len), s.panic = none →
    (m.toNat ≤ s.cfg.capTx → s.allocFail.head? ≠ some true → s.cfg.h ≤ m.toNat →
      ∃ t, exec (.resizeSend m) s = .next t ∧
        t = { s with sbLen := m, sb := t.sb, hwSendBuf := some .sb, hwSendLen := m
                     allocFail := s.allocFail.tail, draws := s.draws + 1, out := [] } ∧
        ∀ x, Memory.read t.sb x =
          if x < s.cfg.h then s.cfg.fhdr[x]?
          else if x < m.toNat then some (Config.freeByte s.draws x) else none) ∧
    (m.toNat ≤ s.cfg.capTx → s.allocFail.head? ≠ some true → m.toNat < s.cfg.h →
      ∃ t, exec (.resizeSend m) s = .next t ∧
        t = { s with sbLen := m, sb := t.sb, allocFail := s.allocFail.tail
                     panic := some .outOfBounds, out := [] } ∧
        ∀ x, Memory.read t.sb x = if x < m.toNat then s.cfg.fhdr[x]? else none) ∧
    (m.toNat ≤ s.cfg.capRx → s.allocFail.head? ≠ some true →
      ∃ t, exec (.resizeRecv m) s = .next t ∧
        t = { s with rxbLen := m, rxb := t.rxb, hwRecvBuf := some .rxb, hwRecvLen := m
                     allocFail := s.allocFail.tail, draws := s.draws + 1, out := [] } ∧
        ∀ x, Memory.read t.rxb x =
          if x < m.toNat then some (Config.freeByte s.draws x) else none) ∧
    (s.cfg.capTx < m.toNat ∨ s.allocFail.head? = some true → exec (.resizeSend m) s =
      .next { s with panic := some .allocFailure, allocFail := s.allocFail.tail, out := [] }) ∧
    (s.cfg.capRx < m.toNat ∨ s.allocFail.head? = some true → exec (.resizeRecv m) s =
      .next { s with panic := some .allocFailure, allocFail := s.allocFail.tail, out := [] })

/-! ## Module -/

/-- Construction of a Module (R202): every byte `0x00` but the status byte, `0x03`; the manager constructed;
a buffer without a status byte is `Panic(OutOfBounds)`. -/
def Obligations.ModuleConstructionAssertsItsFlags : Prop :=
  ∀ (s : State) (buf : Len), s.quiet = true → buf.toNat ≤ s.cfg.lMax.toNat →
    hookSafe s.cfg .write = true →
    (13 ≤ buf.toNat → ∃ t u, exec (.mgrConstruct (some buf)) s = .next u ∧
      exec (.modConstruct buf) s = .next t ∧
      t = { u with rb := t.rb, prevConnected := false, out := t.out } ∧
      ∀ a, Memory.read t.rb a =
        if a < buf.toNat then some (if a = 12 then 0x03 else 0x00) else none) ∧
    (buf.toNat < 13 → ∃ t, exec (.modConstruct buf) s = .next t ∧ t.panic = some .outOfBounds)

/-- `MOD_UPDATE` (R205, R211): after the manager's `update`, a connection change in either direction rewrites
the three signature bytes and asserts Active, every other byte staying (the state `v`), then runs the
module's constants writer, and the new state is remembered; a panic of the writer ends it. The base writer
adds nothing, one that writes bytes stores them. No change rewrites nothing, whatever the writer. SB is the
manager's (R213). -/
def Obligations.ConnectionChangeRewritesTheConstants : Prop :=
  ∀ s : State, s.wf = true → s.moduleReady = true →
    ∃ u, exec .update s = .next u ∧ u.panic = none ∧
      (u.isConnected = s.prevConnected → exec .modUpdate s = .next u) ∧
      (u.isConnected ≠ s.prevConnected → ∃ v, v = { u with rb := v.rb, out := v.out } ∧
        Memory.read v.rb 0 = some s.cfg.sigFixed0 ∧ Memory.read v.rb 1 = some s.cfg.sigFixed1 ∧
        Memory.read v.rb 2 = some s.cfg.sigType ∧
        Memory.read v.rb 12 = some (Memory.byte s.rb 12 ||| 0x01) ∧
        (∀ a, 3 ≤ a → a ≠ 12 → Memory.read v.rb a = Memory.read s.rb a) ∧
        (∀ w, writeConstants v = .next w → exec .modUpdate s =
          .next (if w.panic = none then { w with prevConnected := u.isConnected } else w)) ∧
        (s.cfg.constants = some [] → writeConstants v = .next v) ∧
        (∀ pos bs, s.cfg.constants = some [.bytes pos bs] → s.inBounds pos.toNat bs.length = true →
          ∃ w, writeConstants v = .next w ∧ w = { v with rb := w.rb, out := w.out } ∧
            ∀ a, Memory.read w.rb a =
              if pos.toNat ≤ a ∧ a < pos.toNat + bs.length then bs[a - pos.toNat]?
              else Memory.read v.rb a))

/-- `write_header()` writes the three signature bytes and no other (R203). -/
def Obligations.HeaderIsThreeSignatureBytes : Prop :=
  ∀ s : State, s.wf = true → s.quiet = true → hookSafe s.cfg .write = true → s.rbPresent = true →
    3 ≤ s.rbLen.toNat →
    ∃ t, exec .writeHeader s = .next t ∧ t = { s with rb := t.rb, out := t.out } ∧
      ∀ a, Memory.read t.rb a =
        if a = 0 then some s.cfg.sigFixed0 else if a = 1 then some s.cfg.sigFixed1
        else if a = 2 then some s.cfg.sigType else Memory.read s.rb a

/-- `write_constants()` (R206): the base version does nothing, a null capability panics, a module's operation
does what the host's operation of that name does. Which operations a module may use is the model's choice
(log 24). -/
def Obligations.ConstantsWriterWritesThroughTheBuffer : Prop :=
  ∀ (s : State) (pos len : Len) (v : List Byte) (x : Nat) (b m y : Byte) (d : Bool), s.panic = none →
    (s.cfg.constants = some [] → exec .writeConstants s = .next { s with out := [] }) ∧
    (s.cfg.constants = none →
      exec .writeConstants s = .next { s with panic := some .nullCallback, out := [] }) ∧
    (s.cfg.constants = some [.bytes pos v] → v.length = len.toNat →
      exec .writeConstants s = exec (.rbWrite (.offset pos) len v) s) ∧
    (s.cfg.constants = some [.atCursor v] → v.length = len.toNat →
      exec .writeConstants s = exec (.rbWrite .cursor len v) s) ∧
    (s.cfg.constants = some [.seek pos] → exec .writeConstants s = exec (.rbSeek pos) s) ∧
    (s.cfg.constants = some [.typed pos len x] →
      exec .writeConstants s = exec (.rbTyped pos len (some x)) s) ∧
    (s.cfg.constants = some [.bit pos b d] → exec .writeConstants s = exec (.rbBitSet pos b d) s) ∧
    (s.cfg.constants = some [.mask pos m y] → exec .writeConstants s = exec (.rbMask pos m y) s) ∧
    (s.cfg.constants = some [.fill b] → exec .writeConstants s = exec (.rbFill b) s)

/-- `set_id(id)` is `RB_WRITE(3, 1, [id])` (R208): offset 3 and no other byte. -/
def Obligations.SetIdWritesOffsetThree : Prop :=
  ∀ (s : State) (id : Byte), s.panic = none →
    exec (.setId id) s = exec (.rbWrite (.offset 3) 1 [id]) s ∧
    (s.preempt = [] → hookSafe s.cfg .write = true → s.inBounds 3 1 = true →
      exec (.setId id) s =
        .next { s with rb := Memory.write s.rb 3 id, out := hookCalls s.cfg .write 3 1 })

/-- `set_name(s, len)` (R209): at most the first 8 bytes, at offset 4 and up, no padding. -/
def Obligations.SetNameWritesAtMostEightBytes : Prop :=
  ∀ (s : State) (name : List Byte) (len : Len), s.quiet = true → hookSafe s.cfg .write = true →
    name.length = len.toNat → s.inBounds 4 (min len.toNat 8) = true →
    ∃ t, exec (.setName name len) s = .next t ∧
      t = { s with rb := t.rb, out := hookCalls s.cfg .write 4 (min len.toNat 8) } ∧
      ∀ a, Memory.read t.rb a =
        if 4 ≤ a ∧ a < 4 + min len.toNat 8 then name[a - 4]? else Memory.read s.rb a

/-- `get_led()` and `get_power()` each return one bit of RB at their position and change nothing (R210). That
no read hook is called, so that a null one does not panic, is the model's choice (log 18). -/
def Obligations.LedAndPowerReadOneBit : Prop :=
  ∀ s : State, s.panic = none →
    (s.inBounds s.cfg.ledPos.toNat 1 = true → s.cfg.ledBit.toNat ≤ 7 →
      exec .getLed s = .next { s with
        out := [.bit ((Memory.byte s.rb s.cfg.ledPos.toNat).getLsbD s.cfg.ledBit.toNat)] }) ∧
    (s.inBounds s.cfg.powerPos.toNat 1 = true → s.cfg.powerBit.toNat ≤ 7 →
      exec .getPower s = .next { s with
        out := [.bit ((Memory.byte s.rb s.cfg.powerPos.toNat).getLsbD s.cfg.powerBit.toNat)] })

/-! ## MotorController -/

/-- `MC_UPDATE` with no reset request and no overcurrent (R223, R227, R228): after `MOD_UPDATE` the protection
timer restarts; while the overcurrent state is `None` the drive mode follows the settings byte and
Operational is asserted, otherwise the master's selection is ignored.
That the reads of the settings byte call no hook is the model's choice (log 18). -/
def Obligations.MotorFollowsTheSettingsWhileNominal : Prop :=
  ∀ (s : State) (i o v p : Current), s.wf = true → s.motorReady = true →
    (Memory.byte s.rb 13).getLsbD s.cfg.resetBit.toNat = false →
    ∃ u, exec .modUpdate s = .next u ∧ u.panic = none ∧
      (u.overCurrent u.isConnected i o v p = false →
        ∃ t, exec (.mcUpdate i o v p) s = .next t ∧
          t = { u with
            ptRemaining := s.cfg.ptTimeout, ptRunning := true, rb := t.rb, out := t.out
            mcMode := if s.mcOc = .none then
                selectMode s.cfg.modeRows s.cfg.modeElse (Memory.byte s.rb 13)
              else s.mcMode } ∧
          (∀ a, a ≠ 12 → Memory.read t.rb a = Memory.read u.rb a) ∧
          Memory.read t.rb 12 = some
            (if s.mcOc = .none then Memory.byte u.rb 12 ||| 0x02 else Memory.byte u.rb 12))

/-- Overcurrent steps (R225, R226, R227), with no reset request: while the protection timer runs nothing steps
and it is left running; once it has run out the state goes one step, `None` to `PWM`, or to `Off`, which
also clears Operational; the status bits are rewritten, the timer is not restarted.
That the reads of the settings byte call no hook is the model's choice (log 18). -/
def Obligations.OvercurrentStepsWhenTheTimerHasRunOut : Prop :=
  ∀ (s : State) (i o v p : Current), s.wf = true → s.motorReady = true →
    (Memory.byte s.rb 13).getLsbD s.cfg.resetBit.toNat = false →
    ∃ u, exec .modUpdate s = .next u ∧ u.panic = none ∧
      (u.overCurrent u.isConnected i o v p = true →
        ∃ t, exec (.mcUpdate i o v p) s = .next t ∧
          t = { u with mcOc := t.mcOc, mcMode := t.mcMode, rb := t.rb, out := t.out } ∧
          (∀ a, a ≠ 12 → Memory.read t.rb a = Memory.read u.rb a) ∧
          (if s.ptRemaining ≠ 0 then
            t.mcOc = s.mcOc ∧
            (s.mcOc ≠ .none → t.mcMode = s.mcMode ∧ Memory.read t.rb 12 = Memory.read u.rb 12) ∧
            (s.mcOc = .none →
              t.mcMode = selectMode s.cfg.modeRows s.cfg.modeElse (Memory.byte s.rb 13) ∧
              Memory.read t.rb 12 = some (Memory.byte u.rb 12 ||| 0x02))
          else if s.mcOc = .none then
            t.mcOc = .pwm ∧ t.mcMode = .pwm ∧
            Memory.read t.rb 12 = some
              ((Memory.byte u.rb 12 &&& ~~~s.cfg.ocMask) ||| (s.cfg.ocPwm &&& s.cfg.ocMask))
          else
            t.mcOc = .off ∧ t.mcMode = .off ∧
            Memory.read t.rb 12 = some
              (((Memory.byte u.rb 12 &&& ~~~s.cfg.ocMask) ||| (s.cfg.ocOff &&& s.cfg.ocMask))
                &&& 0xFD)))

/-- Reset request (R224, R230): a master's reset bit is cleared, the overcurrent state returns to `None`, the
timer restarts, and, with no overcurrent left to step at once, the drive mode is the master's again. The
status bits show `None` when the state changed, Operational is asserted, the other status bits stay (R229).
That the reads of the settings byte call no hook is the model's choice (log 18). -/
def Obligations.ResetRequestRestoresTheMastersMode : Prop :=
  ∀ (s : State) (i o v p : Current), s.wf = true → s.motorReady = true →
    (Memory.byte s.rb 13).getLsbD s.cfg.resetBit.toNat = true →
    ∃ u, exec .modUpdate s = .next u ∧ u.panic = none ∧
      (({ u with mcOc := .none }).overCurrent u.isConnected i o v p = false ∨ s.cfg.ptTimeout ≠ 0 →
        ∃ t, exec (.mcUpdate i o v p) s = .next t ∧
          t = { u with
            mcOc := .none, mcMode := t.mcMode, ptRemaining := s.cfg.ptTimeout, ptRunning := true
            rb := t.rb, out := t.out } ∧
          t.mcMode = selectMode s.cfg.modeRows s.cfg.modeElse (Memory.byte t.rb 13) ∧
          (∀ k, k < 8 → (Memory.byte t.rb 13).getLsbD k =
            if k = s.cfg.resetBit.toNat then false else (Memory.byte s.rb 13).getLsbD k) ∧
          Memory.read t.rb 12 = some
            ((if s.mcOc = .none then Memory.byte u.rb 12
              else (Memory.byte u.rb 12 &&& ~~~s.cfg.ocMask) ||| (s.cfg.ocNone &&& s.cfg.ocMask)) ||| 0x02) ∧
          (∀ a, a ≠ 12 → a ≠ 13 → Memory.read t.rb a = Memory.read u.rb a))

/-! ## Null hooks -/

/-- A hook registered as a null pointer (R118): the transfer that invokes it moves its bytes, then it is
`Panic(NullCallback)`, before the cursor moves and before anything is returned. For the write hook
`RB_WRITE`, `RB_BIT_SET` (whose bit number is tested first), `RB_MASK` and a typed write, for the read
hook `RB_READ` and a typed read. -/
def Obligations.ANullHookPanicsAfterTheTransfer : Prop :=
  ∀ (s : State) (place : Place) (pos len : Len) (v : List Byte) (x : Nat) (b m y : Byte) (d : Bool),
    s.quiet = true → s.cfg.hasHook = true →
    (s.cfg.writeHookNull = true → v.length = len.toNat →
      s.inBounds (placeOffset s place) len.toNat = true →
      ∃ t, exec (.rbWrite place len v) s = .next t ∧
        t = { s with rb := t.rb, panic := some .nullCallback, out := [] } ∧
        ∀ a, Memory.read t.rb a =
          if placeOffset s place ≤ a ∧ a < placeOffset s place + len.toNat then
            v[a - placeOffset s place]?
          else Memory.read s.rb a) ∧
    (s.cfg.writeHookNull = true → s.inBounds pos.toNat len.toNat = true →
      ∃ t, exec (.rbTyped pos len (some x)) s = .next t ∧
        t = { s with rb := t.rb, panic := some .nullCallback, out := [] } ∧
        ∀ a, Memory.read t.rb a =
          if pos.toNat ≤ a ∧ a < pos.toNat + len.toNat then
            (typedBytes s.cfg.fieldEndian len.toNat x)[a - pos.toNat]?
          else Memory.read s.rb a) ∧
    (s.cfg.writeHookNull = true → s.inBounds pos.toNat 1 = true →
      (b.toNat ≤ 7 → ∃ t, exec (.rbBitSet pos b d) s = .next t ∧
        t = { s with rb := t.rb, panic := some .nullCallback, out := [] } ∧
        (∀ k, k < 8 → (Memory.byte t.rb pos.toNat).getLsbD k =
          if k = b.toNat then d else (Memory.byte s.rb pos.toNat).getLsbD k) ∧
        (∀ a, a ≠ pos.toNat → Memory.read t.rb a = Memory.read s.rb a)) ∧
      (7 < b.toNat →
        exec (.rbBitSet pos b d) s = .next { s with panic := some .invalidArgument, out := [] }) ∧
      (∃ t, exec (.rbMask pos m y) s = .next t ∧
        t = { s with rb := t.rb, panic := some .nullCallback, out := [] } ∧
        (∀ k, k < 8 → (Memory.byte t.rb pos.toNat).getLsbD k =
          if m.getLsbD k then y.getLsbD k else (Memory.byte s.rb pos.toNat).getLsbD k) ∧
        (∀ a, a ≠ pos.toNat → Memory.read t.rb a = Memory.read s.rb a))) ∧
    (s.cfg.readHookNull = true → s.inBounds (placeOffset s place) len.toNat = true →
      exec (.rbRead place len) s = .next { s with panic := some .nullCallback, out := [] }) ∧
    (s.cfg.readHookNull = true → s.inBounds pos.toNat len.toNat = true →
      exec (.rbTyped pos len none) s = .next { s with panic := some .nullCallback, out := [] })
end

