-- ==== Sys2Proof/Laws/Memory.lean ====
section
/-! SUPPORT. Laws of a byte space: reads after writes, the canonical form, the listed offsets. -/

namespace Sys2Proof.Machine

/-! ## Reads after writes -/

theorem Memory.read_write_same (m : Memory) (a : Nat) (v : Byte) :
    Memory.read (Memory.write m a v) a = some v := by
  induction m with
  | nil => simp [Memory.write, Memory.read]
  | cons c m ih =>
    obtain ⟨k, b⟩ := c
    unfold Memory.write
    split
    · simp [Memory.read]
    · split
      · simp [Memory.read]
      · rename_i h
        simp [Memory.read, h, ih]

theorem Memory.read_write_other (m : Memory) {a a' : Nat} (v : Byte) (h : a' ≠ a) :
    Memory.read (Memory.write m a v) a' = Memory.read m a' := by
  induction m with
  | nil => simp [Memory.write, Memory.read, h]
  | cons c m ih =>
    obtain ⟨k, b⟩ := c
    unfold Memory.write
    split
    · simp [Memory.read, h]
    · split
      · rename_i hk
        subst hk
        simp [Memory.read, h]
      · simp only [Memory.read, ih]

/-- A read after a write (R14): the value written at its offset, what stood there elsewhere. -/
theorem Memory.read_write (m : Memory) (a a' : Nat) (v : Byte) :
    Memory.read (Memory.write m a v) a' = if a' = a then some v else Memory.read m a' := by
  split
  · rename_i h
    rw [h, Memory.read_write_same]
  · rename_i h
    exact Memory.read_write_other m v h

/-- A read after `MemWrite` (R14): inside the range the value written there, outside what stood there. -/
theorem Memory.read_writeList (m : Memory) (a : Nat) (vs : List Byte) (a' : Nat) :
    Memory.read (Memory.writeList m a vs) a' =
      if a ≤ a' ∧ a' < a + vs.length then vs[a' - a]? else Memory.read m a' := by
  induction vs generalizing m a with
  | nil => simp [Memory.writeList]
  | cons v vs ih =>
    simp only [Memory.writeList, ih, Memory.read_write, List.length_cons]
    by_cases h1 : a' = a
    · subst h1
      simp
    · by_cases h2 : a + 1 ≤ a' ∧ a' < a + 1 + vs.length
      · have h3 : a ≤ a' ∧ a' < a + (vs.length + 1) := by omega
        obtain ⟨d, hd⟩ : ∃ d, a' - a = d + 1 := ⟨a' - a - 1, by omega⟩
        have hd' : a' - (a + 1) = d := by omega
        simp [h2, h3, hd, hd']
      · have h3 : ¬ (a ≤ a' ∧ a' < a + (vs.length + 1)) := by omega
        rw [if_neg h2, if_neg h1, if_neg h3]

theorem Memory.byte_of_read {m : Memory} {a : Nat} {b : Byte} (h : Memory.read m a = some b) :
    Memory.byte m a = b := by
  simp [Memory.byte, h]

theorem Memory.byte_congr {m m' : Memory} {a : Nat} (h : Memory.read m a = Memory.read m' a) :
    Memory.byte m a = Memory.byte m' a := by
  simp [Memory.byte, h]

@[simp] theorem Memory.length_bytes (m : Memory) (a n : Nat) : (Memory.bytes m a n).length = n := by
  simp [Memory.bytes]

theorem Memory.getElem?_bytes (m : Memory) (a n i : Nat) (h : i < n) :
    (Memory.bytes m a n)[i]? = some (Memory.byte m (a + i)) := by
  simp [Memory.bytes, h]

/-! ## Listed offsets -/

theorem Memory.read_eq_none_iff (m : Memory) (a : Nat) :
    Memory.read m a = none ↔ a ∉ m.map Prod.fst := by
  induction m with
  | nil => simp [Memory.read]
  | cons c m ih =>
    obtain ⟨k, b⟩ := c
    by_cases h : a = k <;> simp [Memory.read, h, ih]

/-- In a space of length `n` exactly the offsets below `n` hold a value (R38). -/
theorem Memory.isSome_read_of_spans {m : Memory} {n : Nat} (h : Memory.spans m n) (a : Nat) :
    (Memory.read m a).isSome = decide (a < n) := by
  have hm : m.map Prod.fst = List.range n := by simpa [Memory.spans] using h
  have := Memory.read_eq_none_iff m a
  rw [hm, List.mem_range] at this
  cases hr : Memory.read m a with
  | none => simp [this.mp hr]
  | some b =>
    have : a < n := by
      by_contra hn
      rw [this.mpr hn] at hr
      simp at hr
    simp [this]

theorem Memory.read_of_spans {m : Memory} {n : Nat} (h : Memory.spans m n) {a : Nat} (ha : a < n) :
    Memory.read m a = some (Memory.byte m a) := by
  have := Memory.isSome_read_of_spans h a
  simp only [ha, decide_true, Option.isSome_iff_exists] at this
  obtain ⟨b, hb⟩ := this
  rw [hb, Memory.byte_of_read hb]

theorem Memory.read_none_of_spans {m : Memory} {n : Nat} (h : Memory.spans m n) {a : Nat}
    (ha : n ≤ a) : Memory.read m a = none := by
  have := Memory.isSome_read_of_spans h a
  simpa [show ¬ a < n by omega] using this

theorem Memory.length_of_spans {m : Memory} {n : Nat} (h : Memory.spans m n) : m.length = n := by
  have hm : m.map Prod.fst = List.range n := by simpa [Memory.spans] using h
  simpa using congrArg List.length hm

theorem Memory.map_fst_write_of_mem (m : Memory) (a : Nat) (v : Byte)
    (hs : (m.map Prod.fst).Pairwise (· < ·)) (h : a ∈ m.map Prod.fst) :
    (Memory.write m a v).map Prod.fst = m.map Prod.fst := by
  induction m with
  | nil => simp at h
  | cons c m ih =>
    obtain ⟨k, b⟩ := c
    simp only [List.map_cons, List.pairwise_cons, List.mem_cons] at hs h
    unfold Memory.write
    split
    · rename_i hlt
      rcases h with h | h
      · omega
      · have := hs.1 a h
        omega
    · split
      · rename_i hk
        simp [hk]
      · rename_i hk
        have := ih hs.2 (by simpa [hk] using h)
        simp [this]

/-- A write inside a space leaves its offsets as they are (R38). -/
theorem Memory.spans_write {m : Memory} {n a : Nat} {v : Byte} (h : Memory.spans m n) (ha : a < n) :
    Memory.spans (Memory.write m a v) n := by
  have hm : m.map Prod.fst = List.range n := by simpa [Memory.spans] using h
  have hs : (m.map Prod.fst).Pairwise (· < ·) := by
    rw [hm]
    exact List.pairwise_lt_range
  have := Memory.map_fst_write_of_mem m a v hs (by simpa [hm] using ha)
  simp [Memory.spans, this, hm]

theorem Memory.spans_writeList {m : Memory} {n a : Nat} {vs : List Byte} (h : Memory.spans m n)
    (ha : a + vs.length ≤ n) : Memory.spans (Memory.writeList m a vs) n := by
  induction vs generalizing m a with
  | nil => simpa [Memory.writeList] using h
  | cons v vs ih =>
    simp only [List.length_cons] at ha
    exact ih (Memory.spans_write h (by omega)) (by omega)

/-! ## Spaces made of bytes -/

theorem Memory.map_fst_ofBytesFrom (k : Nat) (bs : List Byte) :
    (Memory.ofBytesFrom k bs).map Prod.fst = List.range' k bs.length := by
  induction bs generalizing k with
  | nil => simp [Memory.ofBytesFrom]
  | cons b bs ih => simp [Memory.ofBytesFrom, ih, List.range'_succ]

theorem Memory.spans_ofBytes (bs : List Byte) : Memory.spans (Memory.ofBytes bs) bs.length := by
  simp [Memory.spans, Memory.ofBytes, Memory.map_fst_ofBytesFrom, List.range_eq_range']

theorem Memory.read_ofBytesFrom (k : Nat) (bs : List Byte) (a : Nat) :
    Memory.read (Memory.ofBytesFrom k bs) a = if k ≤ a then bs[a - k]? else none := by
  induction bs generalizing k with
  | nil => simp [Memory.ofBytesFrom, Memory.read]
  | cons b bs ih =>
    simp only [Memory.ofBytesFrom, Memory.read, ih]
    by_cases h : a = k
    · simp [h]
    · by_cases h2 : k + 1 ≤ a
      · obtain ⟨d, hd⟩ : ∃ d, a - k = d + 1 := ⟨a - k - 1, by omega⟩
        have hd' : a - (k + 1) = d := by omega
        simp [h, h2, hd, hd', show k ≤ a by omega]
      · simp [h, h2, show ¬ k ≤ a by omega]

/-- A space made of bytes holds them in order. -/
theorem Memory.read_ofBytes (bs : List Byte) (a : Nat) :
    Memory.read (Memory.ofBytes bs) a = bs[a]? := by
  simp [Memory.ofBytes, Memory.read_ofBytesFrom]

/-! ## Canonical form -/

theorem Memory.wf_iff_pairwise (m : Memory) :
    Memory.wf m = true ↔ (m.map Prod.fst).Pairwise (· < ·) := by
  induction m with
  | nil => simp [Memory.wf]
  | cons c m ih =>
    cases m with
    | nil => simp [Memory.wf]
    | cons d m =>
      simp only [Memory.wf, Bool.and_eq_true, decide_eq_true_eq, ih, List.map_cons,
        List.pairwise_cons, List.mem_cons, forall_eq_or_imp]
      constructor
      · rintro ⟨h, h2, h3⟩
        exact ⟨⟨h, fun x hx => lt_trans h (h2 x hx)⟩, h2, h3⟩
      · rintro ⟨⟨h, -⟩, h2, h3⟩
        exact ⟨h, h2, h3⟩

/-- A space that lists exactly `0..n-1` is in canonical form. -/
theorem Memory.wf_of_spans {m : Memory} {n : Nat} (h : Memory.spans m n) : Memory.wf m = true := by
  have hm : m.map Prod.fst = List.range n := by simpa [Memory.spans] using h
  rw [Memory.wf_iff_pairwise, hm]
  exact List.pairwise_lt_range

theorem Memory.mem_map_fst_write (m : Memory) (a x : Nat) (v : Byte) :
    x ∈ (Memory.write m a v).map Prod.fst → x = a ∨ x ∈ m.map Prod.fst := by
  induction m with
  | nil => simp [Memory.write]
  | cons c m ih =>
    obtain ⟨k, b⟩ := c
    unfold Memory.write
    split
    · simp
    · split
      · rename_i hk
        simp [hk]
      · simp only [List.map_cons, List.mem_cons]
        rintro (h | h)
        · exact Or.inr (Or.inl h)
        · rcases ih h with h | h
          · exact Or.inl h
          · exact Or.inr (Or.inr h)

/-- Every write keeps the canonical form, at any offset. -/
theorem Memory.wf_write {m : Memory} {a : Nat} {v : Byte} (h : Memory.wf m = true) :
    Memory.wf (Memory.write m a v) = true := by
  rw [Memory.wf_iff_pairwise] at h ⊢
  induction m with
  | nil => simp [Memory.write]
  | cons c m ih =>
    obtain ⟨k, b⟩ := c
    simp only [List.map_cons, List.pairwise_cons] at h
    unfold Memory.write
    split
    · rename_i hlt
      simp only [List.map_cons, List.pairwise_cons, List.mem_cons, forall_eq_or_imp]
      exact ⟨⟨hlt, fun x hx => lt_trans hlt (h.1 x hx)⟩, h.1, h.2⟩
    · split
      · rename_i hk
        subst hk
        simpa using h
      · rename_i h1 h2
        simp only [List.map_cons, List.pairwise_cons]
        refine ⟨fun x hx => ?_, ih h.2⟩
        rcases Memory.mem_map_fst_write m a x v hx with rfl | hx
        · omega
        · exact h.1 x hx

theorem Memory.wf_writeList {m : Memory} {a : Nat} {vs : List Byte} (h : Memory.wf m = true) :
    Memory.wf (Memory.writeList m a vs) = true := by
  induction vs generalizing m a with
  | nil => simpa [Memory.writeList] using h
  | cons v vs ih => exact ih (Memory.wf_write h)

theorem Memory.wf_ofBytes (bs : List Byte) : Memory.wf (Memory.ofBytes bs) = true :=
  Memory.wf_of_spans (Memory.spans_ofBytes bs)

/-- Two spaces of one length that read alike are equal. -/
theorem Memory.ext_of_spans {m m' : Memory} {n : Nat} (h : Memory.spans m n) (h' : Memory.spans m' n)
    (hr : ∀ a, a < n → Memory.read m a = Memory.read m' a) : m = m' := by
  have aux : ∀ (n k : Nat) (m m' : Memory), m.map Prod.fst = List.range' k n →
      m'.map Prod.fst = List.range' k n →
      (∀ a, k ≤ a → a < k + n → Memory.read m a = Memory.read m' a) → m = m' := by
    intro n
    induction n with
    | zero =>
      intro k m m' hm hm' _
      simp only [List.range'_zero, List.map_eq_nil_iff] at hm hm'
      rw [hm, hm']
    | succ n ih =>
      intro k m m' hm hm' hr
      rw [List.range'_succ] at hm hm'
      cases m with
      | nil => simp at hm
      | cons c m =>
        cases m' with
        | nil => simp at hm'
        | cons c' m' =>
          obtain ⟨x, b⟩ := c
          obtain ⟨x', b'⟩ := c'
          simp only [List.map_cons, List.cons.injEq] at hm hm'
          obtain ⟨rfl, hm⟩ := hm
          obtain ⟨rfl, hm'⟩ := hm'
          have hb := hr x' (le_refl _) (by omega)
          simp only [Memory.read, if_pos, Option.some.injEq] at hb
          subst hb
          congr 1
          refine ih (x' + 1) m m' hm hm' fun a ha ha' => ?_
          have := hr a (by omega) (by omega)
          simpa [Memory.read, show a ≠ x' by omega] using this
  have hm : m.map Prod.fst = List.range n := by simpa [Memory.spans] using h
  have hm' : m'.map Prod.fst = List.range n := by simpa [Memory.spans] using h'
  rw [List.range_eq_range'] at hm hm'
  exact aux n 0 m m' hm hm' fun a _ ha => hr a (by omega)

end Sys2Proof.Machine
end

