-- ==== Sys2Proof/Laws/State.lean ====
section
/-! SUPPORT. One lemma for each field of each named update of State, so that no proof unfolds an update. -/

namespace Sys2Proof.Machine

variable (s : State)

/-! ## panicked -/

@[simp] theorem State.cfg_panicked (c : PanicCause) : (State.panicked c s).cfg = s.cfg := rfl
@[simp] theorem State.rbPresent_panicked (c : PanicCause) : (State.panicked c s).rbPresent = s.rbPresent := rfl
@[simp] theorem State.rbLen_panicked (c : PanicCause) : (State.panicked c s).rbLen = s.rbLen := rfl
@[simp] theorem State.rb_panicked (c : PanicCause) : (State.panicked c s).rb = s.rb := rfl
@[simp] theorem State.rbPos_panicked (c : PanicCause) : (State.panicked c s).rbPos = s.rbPos := rfl
@[simp] theorem State.sbLen_panicked (c : PanicCause) : (State.panicked c s).sbLen = s.sbLen := rfl
@[simp] theorem State.sb_panicked (c : PanicCause) : (State.panicked c s).sb = s.sb := rfl
@[simp] theorem State.rxbLen_panicked (c : PanicCause) : (State.panicked c s).rxbLen = s.rxbLen := rfl
@[simp] theorem State.rxb_panicked (c : PanicCause) : (State.panicked c s).rxb = s.rxb := rfl
@[simp] theorem State.lastAddr_panicked (c : PanicCause) : (State.panicked c s).lastAddr = s.lastAddr := rfl
@[simp] theorem State.cfgTimeout_panicked (c : PanicCause) : (State.panicked c s).cfgTimeout = s.cfgTimeout := rfl
@[simp] theorem State.cfgAddr_panicked (c : PanicCause) : (State.panicked c s).cfgAddr = s.cfgAddr := rfl
@[simp] theorem State.cfgAddrDirty_panicked (c : PanicCause) : (State.panicked c s).cfgAddrDirty = s.cfgAddrDirty := rfl
@[simp] theorem State.snap_panicked (c : PanicCause) : (State.panicked c s).snap = s.snap := rfl
@[simp] theorem State.ltRemaining_panicked (c : PanicCause) : (State.panicked c s).ltRemaining = s.ltRemaining := rfl
@[simp] theorem State.ltRunning_panicked (c : PanicCause) : (State.panicked c s).ltRunning = s.ltRunning := rfl
@[simp] theorem State.hwAddr_panicked (c : PanicCause) : (State.panicked c s).hwAddr = s.hwAddr := rfl
@[simp] theorem State.hwCommunicating_panicked (c : PanicCause) : (State.panicked c s).hwCommunicating = s.hwCommunicating := rfl
@[simp] theorem State.hwDir_panicked (c : PanicCause) : (State.panicked c s).hwDir = s.hwDir := rfl
@[simp] theorem State.hwResult_panicked (c : PanicCause) : (State.panicked c s).hwResult = s.hwResult := rfl
@[simp] theorem State.hwLast_panicked (c : PanicCause) : (State.panicked c s).hwLast = s.hwLast := rfl
@[simp] theorem State.hwSendBuf_panicked (c : PanicCause) : (State.panicked c s).hwSendBuf = s.hwSendBuf := rfl
@[simp] theorem State.hwSendLen_panicked (c : PanicCause) : (State.panicked c s).hwSendLen = s.hwSendLen := rfl
@[simp] theorem State.hwRecvBuf_panicked (c : PanicCause) : (State.panicked c s).hwRecvBuf = s.hwRecvBuf := rfl
@[simp] theorem State.hwRecvLen_panicked (c : PanicCause) : (State.panicked c s).hwRecvLen = s.hwRecvLen := rfl
@[simp] theorem State.hwCbSet_panicked (c : PanicCause) : (State.panicked c s).hwCbSet = s.hwCbSet := rfl
@[simp] theorem State.rxCnt_panicked (c : PanicCause) : (State.panicked c s).rxCnt = s.rxCnt := rfl
@[simp] theorem State.txCnt_panicked (c : PanicCause) : (State.panicked c s).txCnt = s.txCnt := rfl
@[simp] theorem State.rxOver_panicked (c : PanicCause) : (State.panicked c s).rxOver = s.rxOver := rfl
@[simp] theorem State.prevConnected_panicked (c : PanicCause) : (State.panicked c s).prevConnected = s.prevConnected := rfl
@[simp] theorem State.mcMode_panicked (c : PanicCause) : (State.panicked c s).mcMode = s.mcMode := rfl
@[simp] theorem State.mcOc_panicked (c : PanicCause) : (State.panicked c s).mcOc = s.mcOc := rfl
@[simp] theorem State.ptRemaining_panicked (c : PanicCause) : (State.panicked c s).ptRemaining = s.ptRemaining := rfl
@[simp] theorem State.ptRunning_panicked (c : PanicCause) : (State.panicked c s).ptRunning = s.ptRunning := rfl
@[simp] theorem State.panic_panicked (c : PanicCause) : (State.panicked c s).panic = some c := rfl
@[simp] theorem State.inbox_panicked (c : PanicCause) : (State.panicked c s).inbox = s.inbox := rfl
@[simp] theorem State.rebind_panicked (c : PanicCause) : (State.panicked c s).rebind = s.rebind := rfl
@[simp] theorem State.preempt_panicked (c : PanicCause) : (State.panicked c s).preempt = s.preempt := rfl
@[simp] theorem State.allocFail_panicked (c : PanicCause) : (State.panicked c s).allocFail = s.allocFail := rfl
@[simp] theorem State.draws_panicked (c : PanicCause) : (State.panicked c s).draws = s.draws := rfl
@[simp] theorem State.out_panicked (c : PanicCause) : (State.panicked c s).out = s.out := rfl

/-! ## emit -/

@[simp] theorem State.cfg_emit (o : Output) : (State.emit o s).cfg = s.cfg := rfl
@[simp] theorem State.rbPresent_emit (o : Output) : (State.emit o s).rbPresent = s.rbPresent := rfl
@[simp] theorem State.rbLen_emit (o : Output) : (State.emit o s).rbLen = s.rbLen := rfl
@[simp] theorem State.rb_emit (o : Output) : (State.emit o s).rb = s.rb := rfl
@[simp] theorem State.rbPos_emit (o : Output) : (State.emit o s).rbPos = s.rbPos := rfl
@[simp] theorem State.sbLen_emit (o : Output) : (State.emit o s).sbLen = s.sbLen := rfl
@[simp] theorem State.sb_emit (o : Output) : (State.emit o s).sb = s.sb := rfl
@[simp] theorem State.rxbLen_emit (o : Output) : (State.emit o s).rxbLen = s.rxbLen := rfl
@[simp] theorem State.rxb_emit (o : Output) : (State.emit o s).rxb = s.rxb := rfl
@[simp] theorem State.lastAddr_emit (o : Output) : (State.emit o s).lastAddr = s.lastAddr := rfl
@[simp] theorem State.cfgTimeout_emit (o : Output) : (State.emit o s).cfgTimeout = s.cfgTimeout := rfl
@[simp] theorem State.cfgAddr_emit (o : Output) : (State.emit o s).cfgAddr = s.cfgAddr := rfl
@[simp] theorem State.cfgAddrDirty_emit (o : Output) : (State.emit o s).cfgAddrDirty = s.cfgAddrDirty := rfl
@[simp] theorem State.snap_emit (o : Output) : (State.emit o s).snap = s.snap := rfl
@[simp] theorem State.ltRemaining_emit (o : Output) : (State.emit o s).ltRemaining = s.ltRemaining := rfl
@[simp] theorem State.ltRunning_emit (o : Output) : (State.emit o s).ltRunning = s.ltRunning := rfl
@[simp] theorem State.hwAddr_emit (o : Output) : (State.emit o s).hwAddr = s.hwAddr := rfl
@[simp] theorem State.hwCommunicating_emit (o : Output) : (State.emit o s).hwCommunicating = s.hwCommunicating := rfl
@[simp] theorem State.hwDir_emit (o : Output) : (State.emit o s).hwDir = s.hwDir := rfl
@[simp] theorem State.hwResult_emit (o : Output) : (State.emit o s).hwResult = s.hwResult := rfl
@[simp] theorem State.hwLast_emit (o : Output) : (State.emit o s).hwLast = s.hwLast := rfl
@[simp] theorem State.hwSendBuf_emit (o : Output) : (State.emit o s).hwSendBuf = s.hwSendBuf := rfl
@[simp] theorem State.hwSendLen_emit (o : Output) : (State.emit o s).hwSendLen = s.hwSendLen := rfl
@[simp] theorem State.hwRecvBuf_emit (o : Output) : (State.emit o s).hwRecvBuf = s.hwRecvBuf := rfl
@[simp] theorem State.hwRecvLen_emit (o : Output) : (State.emit o s).hwRecvLen = s.hwRecvLen := rfl
@[simp] theorem State.hwCbSet_emit (o : Output) : (State.emit o s).hwCbSet = s.hwCbSet := rfl
@[simp] theorem State.rxCnt_emit (o : Output) : (State.emit o s).rxCnt = s.rxCnt := rfl
@[simp] theorem State.txCnt_emit (o : Output) : (State.emit o s).txCnt = s.txCnt := rfl
@[simp] theorem State.rxOver_emit (o : Output) : (State.emit o s).rxOver = s.rxOver := rfl
@[simp] theorem State.prevConnected_emit (o : Output) : (State.emit o s).prevConnected = s.prevConnected := rfl
@[simp] theorem State.mcMode_emit (o : Output) : (State.emit o s).mcMode = s.mcMode := rfl
@[simp] theorem State.mcOc_emit (o : Output) : (State.emit o s).mcOc = s.mcOc := rfl
@[simp] theorem State.ptRemaining_emit (o : Output) : (State.emit o s).ptRemaining = s.ptRemaining := rfl
@[simp] theorem State.ptRunning_emit (o : Output) : (State.emit o s).ptRunning = s.ptRunning := rfl
@[simp] theorem State.panic_emit (o : Output) : (State.emit o s).panic = s.panic := rfl
@[simp] theorem State.inbox_emit (o : Output) : (State.emit o s).inbox = s.inbox := rfl
@[simp] theorem State.rebind_emit (o : Output) : (State.emit o s).rebind = s.rebind := rfl
@[simp] theorem State.preempt_emit (o : Output) : (State.emit o s).preempt = s.preempt := rfl
@[simp] theorem State.allocFail_emit (o : Output) : (State.emit o s).allocFail = s.allocFail := rfl
@[simp] theorem State.draws_emit (o : Output) : (State.emit o s).draws = s.draws := rfl
@[simp] theorem State.out_emit (o : Output) : (State.emit o s).out = s.out ++ [o] := rfl

/-! ## clearOut -/

@[simp] theorem State.cfg_clearOut : (State.clearOut s).cfg = s.cfg := rfl
@[simp] theorem State.rbPresent_clearOut : (State.clearOut s).rbPresent = s.rbPresent := rfl
@[simp] theorem State.rbLen_clearOut : (State.clearOut s).rbLen = s.rbLen := rfl
@[simp] theorem State.rb_clearOut : (State.clearOut s).rb = s.rb := rfl
@[simp] theorem State.rbPos_clearOut : (State.clearOut s).rbPos = s.rbPos := rfl
@[simp] theorem State.sbLen_clearOut : (State.clearOut s).sbLen = s.sbLen := rfl
@[simp] theorem State.sb_clearOut : (State.clearOut s).sb = s.sb := rfl
@[simp] theorem State.rxbLen_clearOut : (State.clearOut s).rxbLen = s.rxbLen := rfl
@[simp] theorem State.rxb_clearOut : (State.clearOut s).rxb = s.rxb := rfl
@[simp] theorem State.lastAddr_clearOut : (State.clearOut s).lastAddr = s.lastAddr := rfl
@[simp] theorem State.cfgTimeout_clearOut : (State.clearOut s).cfgTimeout = s.cfgTimeout := rfl
@[simp] theorem State.cfgAddr_clearOut : (State.clearOut s).cfgAddr = s.cfgAddr := rfl
@[simp] theorem State.cfgAddrDirty_clearOut : (State.clearOut s).cfgAddrDirty = s.cfgAddrDirty := rfl
@[simp] theorem State.snap_clearOut : (State.clearOut s).snap = s.snap := rfl
@[simp] theorem State.ltRemaining_clearOut : (State.clearOut s).ltRemaining = s.ltRemaining := rfl
@[simp] theorem State.ltRunning_clearOut : (State.clearOut s).ltRunning = s.ltRunning := rfl
@[simp] theorem State.hwAddr_clearOut : (State.clearOut s).hwAddr = s.hwAddr := rfl
@[simp] theorem State.hwCommunicating_clearOut : (State.clearOut s).hwCommunicating = s.hwCommunicating := rfl
@[simp] theorem State.hwDir_clearOut : (State.clearOut s).hwDir = s.hwDir := rfl
@[simp] theorem State.hwResult_clearOut : (State.clearOut s).hwResult = s.hwResult := rfl
@[simp] theorem State.hwLast_clearOut : (State.clearOut s).hwLast = s.hwLast := rfl
@[simp] theorem State.hwSendBuf_clearOut : (State.clearOut s).hwSendBuf = s.hwSendBuf := rfl
@[simp] theorem State.hwSendLen_clearOut : (State.clearOut s).hwSendLen = s.hwSendLen := rfl
@[simp] theorem State.hwRecvBuf_clearOut : (State.clearOut s).hwRecvBuf = s.hwRecvBuf := rfl
@[simp] theorem State.hwRecvLen_clearOut : (State.clearOut s).hwRecvLen = s.hwRecvLen := rfl
@[simp] theorem State.hwCbSet_clearOut : (State.clearOut s).hwCbSet = s.hwCbSet := rfl
@[simp] theorem State.rxCnt_clearOut : (State.clearOut s).rxCnt = s.rxCnt := rfl
@[simp] theorem State.txCnt_clearOut : (State.clearOut s).txCnt = s.txCnt := rfl
@[simp] theorem State.rxOver_clearOut : (State.clearOut s).rxOver = s.rxOver := rfl
@[simp] theorem State.prevConnected_clearOut : (State.clearOut s).prevConnected = s.prevConnected := rfl
@[simp] theorem State.mcMode_clearOut : (State.clearOut s).mcMode = s.mcMode := rfl
@[simp] theorem State.mcOc_clearOut : (State.clearOut s).mcOc = s.mcOc := rfl
@[simp] theorem State.ptRemaining_clearOut : (State.clearOut s).ptRemaining = s.ptRemaining := rfl
@[simp] theorem State.ptRunning_clearOut : (State.clearOut s).ptRunning = s.ptRunning := rfl
@[simp] theorem State.panic_clearOut : (State.clearOut s).panic = s.panic := rfl
@[simp] theorem State.inbox_clearOut : (State.clearOut s).inbox = s.inbox := rfl
@[simp] theorem State.rebind_clearOut : (State.clearOut s).rebind = s.rebind := rfl
@[simp] theorem State.preempt_clearOut : (State.clearOut s).preempt = s.preempt := rfl
@[simp] theorem State.allocFail_clearOut : (State.clearOut s).allocFail = s.allocFail := rfl
@[simp] theorem State.draws_clearOut : (State.clearOut s).draws = s.draws := rfl
@[simp] theorem State.out_clearOut : (State.clearOut s).out = [] := rfl

/-! ## drawn -/

@[simp] theorem State.cfg_drawn : (State.drawn s).cfg = s.cfg := rfl
@[simp] theorem State.rbPresent_drawn : (State.drawn s).rbPresent = s.rbPresent := rfl
@[simp] theorem State.rbLen_drawn : (State.drawn s).rbLen = s.rbLen := rfl
@[simp] theorem State.rb_drawn : (State.drawn s).rb = s.rb := rfl
@[simp] theorem State.rbPos_drawn : (State.drawn s).rbPos = s.rbPos := rfl
@[simp] theorem State.sbLen_drawn : (State.drawn s).sbLen = s.sbLen := rfl
@[simp] theorem State.sb_drawn : (State.drawn s).sb = s.sb := rfl
@[simp] theorem State.rxbLen_drawn : (State.drawn s).rxbLen = s.rxbLen := rfl
@[simp] theorem State.rxb_drawn : (State.drawn s).rxb = s.rxb := rfl
@[simp] theorem State.lastAddr_drawn : (State.drawn s).lastAddr = s.lastAddr := rfl
@[simp] theorem State.cfgTimeout_drawn : (State.drawn s).cfgTimeout = s.cfgTimeout := rfl
@[simp] theorem State.cfgAddr_drawn : (State.drawn s).cfgAddr = s.cfgAddr := rfl
@[simp] theorem State.cfgAddrDirty_drawn : (State.drawn s).cfgAddrDirty = s.cfgAddrDirty := rfl
@[simp] theorem State.snap_drawn : (State.drawn s).snap = s.snap := rfl
@[simp] theorem State.ltRemaining_drawn : (State.drawn s).ltRemaining = s.ltRemaining := rfl
@[simp] theorem State.ltRunning_drawn : (State.drawn s).ltRunning = s.ltRunning := rfl
@[simp] theorem State.hwAddr_drawn : (State.drawn s).hwAddr = s.hwAddr := rfl
@[simp] theorem State.hwCommunicating_drawn : (State.drawn s).hwCommunicating = s.hwCommunicating := rfl
@[simp] theorem State.hwDir_drawn : (State.drawn s).hwDir = s.hwDir := rfl
@[simp] theorem State.hwResult_drawn : (State.drawn s).hwResult = s.hwResult := rfl
@[simp] theorem State.hwLast_drawn : (State.drawn s).hwLast = s.hwLast := rfl
@[simp] theorem State.hwSendBuf_drawn : (State.drawn s).hwSendBuf = s.hwSendBuf := rfl
@[simp] theorem State.hwSendLen_drawn : (State.drawn s).hwSendLen = s.hwSendLen := rfl
@[simp] theorem State.hwRecvBuf_drawn : (State.drawn s).hwRecvBuf = s.hwRecvBuf := rfl
@[simp] theorem State.hwRecvLen_drawn : (State.drawn s).hwRecvLen = s.hwRecvLen := rfl
@[simp] theorem State.hwCbSet_drawn : (State.drawn s).hwCbSet = s.hwCbSet := rfl
@[simp] theorem State.rxCnt_drawn : (State.drawn s).rxCnt = s.rxCnt := rfl
@[simp] theorem State.txCnt_drawn : (State.drawn s).txCnt = s.txCnt := rfl
@[simp] theorem State.rxOver_drawn : (State.drawn s).rxOver = s.rxOver := rfl
@[simp] theorem State.prevConnected_drawn : (State.drawn s).prevConnected = s.prevConnected := rfl
@[simp] theorem State.mcMode_drawn : (State.drawn s).mcMode = s.mcMode := rfl
@[simp] theorem State.mcOc_drawn : (State.drawn s).mcOc = s.mcOc := rfl
@[simp] theorem State.ptRemaining_drawn : (State.drawn s).ptRemaining = s.ptRemaining := rfl
@[simp] theorem State.ptRunning_drawn : (State.drawn s).ptRunning = s.ptRunning := rfl
@[simp] theorem State.panic_drawn : (State.drawn s).panic = s.panic := rfl
@[simp] theorem State.inbox_drawn : (State.drawn s).inbox = s.inbox := rfl
@[simp] theorem State.rebind_drawn : (State.drawn s).rebind = s.rebind := rfl
@[simp] theorem State.preempt_drawn : (State.drawn s).preempt = s.preempt := rfl
@[simp] theorem State.allocFail_drawn : (State.drawn s).allocFail = s.allocFail := rfl
@[simp] theorem State.draws_drawn : (State.drawn s).draws = s.draws + 1 := rfl
@[simp] theorem State.out_drawn : (State.drawn s).out = s.out := rfl

/-! ## storeRb -/

@[simp] theorem State.cfg_storeRb (a : Nat) (v : Byte) : (State.storeRb a v s).cfg = s.cfg := rfl
@[simp] theorem State.rbPresent_storeRb (a : Nat) (v : Byte) : (State.storeRb a v s).rbPresent = s.rbPresent := rfl
@[simp] theorem State.rbLen_storeRb (a : Nat) (v : Byte) : (State.storeRb a v s).rbLen = s.rbLen := rfl
@[simp] theorem State.rb_storeRb (a : Nat) (v : Byte) : (State.storeRb a v s).rb = Memory.write s.rb a v := rfl
@[simp] theorem State.rbPos_storeRb (a : Nat) (v : Byte) : (State.storeRb a v s).rbPos = s.rbPos := rfl
@[simp] theorem State.sbLen_storeRb (a : Nat) (v : Byte) : (State.storeRb a v s).sbLen = s.sbLen := rfl
@[simp] theorem State.sb_storeRb (a : Nat) (v : Byte) : (State.storeRb a v s).sb = s.sb := rfl
@[simp] theorem State.rxbLen_storeRb (a : Nat) (v : Byte) : (State.storeRb a v s).rxbLen = s.rxbLen := rfl
@[simp] theorem State.rxb_storeRb (a : Nat) (v : Byte) : (State.storeRb a v s).rxb = s.rxb := rfl
@[simp] theorem State.lastAddr_storeRb (a : Nat) (v : Byte) : (State.storeRb a v s).lastAddr = s.lastAddr := rfl
@[simp] theorem State.cfgTimeout_storeRb (a : Nat) (v : Byte) : (State.storeRb a v s).cfgTimeout = s.cfgTimeout := rfl
@[simp] theorem State.cfgAddr_storeRb (a : Nat) (v : Byte) : (State.storeRb a v s).cfgAddr = s.cfgAddr := rfl
@[simp] theorem State.cfgAddrDirty_storeRb (a : Nat) (v : Byte) : (State.storeRb a v s).cfgAddrDirty = s.cfgAddrDirty := rfl
@[simp] theorem State.snap_storeRb (a : Nat) (v : Byte) : (State.storeRb a v s).snap = s.snap := rfl
@[simp] theorem State.ltRemaining_storeRb (a : Nat) (v : Byte) : (State.storeRb a v s).ltRemaining = s.ltRemaining := rfl
@[simp] theorem State.ltRunning_storeRb (a : Nat) (v : Byte) : (State.storeRb a v s).ltRunning = s.ltRunning := rfl
@[simp] theorem State.hwAddr_storeRb (a : Nat) (v : Byte) : (State.storeRb a v s).hwAddr = s.hwAddr := rfl
@[simp] theorem State.hwCommunicating_storeRb (a : Nat) (v : Byte) : (State.storeRb a v s).hwCommunicating = s.hwCommunicating := rfl
@[simp] theorem State.hwDir_storeRb (a : Nat) (v : Byte) : (State.storeRb a v s).hwDir = s.hwDir := rfl
@[simp] theorem State.hwResult_storeRb (a : Nat) (v : Byte) : (State.storeRb a v s).hwResult = s.hwResult := rfl
@[simp] theorem State.hwLast_storeRb (a : Nat) (v : Byte) : (State.storeRb a v s).hwLast = s.hwLast := rfl
@[simp] theorem State.hwSendBuf_storeRb (a : Nat) (v : Byte) : (State.storeRb a v s).hwSendBuf = s.hwSendBuf := rfl
@[simp] theorem State.hwSendLen_storeRb (a : Nat) (v : Byte) : (State.storeRb a v s).hwSendLen = s.hwSendLen := rfl
@[simp] theorem State.hwRecvBuf_storeRb (a : Nat) (v : Byte) : (State.storeRb a v s).hwRecvBuf = s.hwRecvBuf := rfl
@[simp] theorem State.hwRecvLen_storeRb (a : Nat) (v : Byte) : (State.storeRb a v s).hwRecvLen = s.hwRecvLen := rfl
@[simp] theorem State.hwCbSet_storeRb (a : Nat) (v : Byte) : (State.storeRb a v s).hwCbSet = s.hwCbSet := rfl
@[simp] theorem State.rxCnt_storeRb (a : Nat) (v : Byte) : (State.storeRb a v s).rxCnt = s.rxCnt := rfl
@[simp] theorem State.txCnt_storeRb (a : Nat) (v : Byte) : (State.storeRb a v s).txCnt = s.txCnt := rfl
@[simp] theorem State.rxOver_storeRb (a : Nat) (v : Byte) : (State.storeRb a v s).rxOver = s.rxOver := rfl
@[simp] theorem State.prevConnected_storeRb (a : Nat) (v : Byte) : (State.storeRb a v s).prevConnected = s.prevConnected := rfl
@[simp] theorem State.mcMode_storeRb (a : Nat) (v : Byte) : (State.storeRb a v s).mcMode = s.mcMode := rfl
@[simp] theorem State.mcOc_storeRb (a : Nat) (v : Byte) : (State.storeRb a v s).mcOc = s.mcOc := rfl
@[simp] theorem State.ptRemaining_storeRb (a : Nat) (v : Byte) : (State.storeRb a v s).ptRemaining = s.ptRemaining := rfl
@[simp] theorem State.ptRunning_storeRb (a : Nat) (v : Byte) : (State.storeRb a v s).ptRunning = s.ptRunning := rfl
@[simp] theorem State.panic_storeRb (a : Nat) (v : Byte) : (State.storeRb a v s).panic = s.panic := rfl
@[simp] theorem State.inbox_storeRb (a : Nat) (v : Byte) : (State.storeRb a v s).inbox = s.inbox := rfl
@[simp] theorem State.rebind_storeRb (a : Nat) (v : Byte) : (State.storeRb a v s).rebind = s.rebind := rfl
@[simp] theorem State.preempt_storeRb (a : Nat) (v : Byte) : (State.storeRb a v s).preempt = s.preempt := rfl
@[simp] theorem State.allocFail_storeRb (a : Nat) (v : Byte) : (State.storeRb a v s).allocFail = s.allocFail := rfl
@[simp] theorem State.draws_storeRb (a : Nat) (v : Byte) : (State.storeRb a v s).draws = s.draws := rfl
@[simp] theorem State.out_storeRb (a : Nat) (v : Byte) : (State.storeRb a v s).out = s.out := rfl

/-! ## storeRbList -/

@[simp] theorem State.cfg_storeRbList (a : Nat) (v : List Byte) : (State.storeRbList a v s).cfg = s.cfg := rfl
@[simp] theorem State.rbPresent_storeRbList (a : Nat) (v : List Byte) : (State.storeRbList a v s).rbPresent = s.rbPresent := rfl
@[simp] theorem State.rbLen_storeRbList (a : Nat) (v : List Byte) : (State.storeRbList a v s).rbLen = s.rbLen := rfl
@[simp] theorem State.rb_storeRbList (a : Nat) (v : List Byte) : (State.storeRbList a v s).rb = Memory.writeList s.rb a v := rfl
@[simp] theorem State.rbPos_storeRbList (a : Nat) (v : List Byte) : (State.storeRbList a v s).rbPos = s.rbPos := rfl
@[simp] theorem State.sbLen_storeRbList (a : Nat) (v : List Byte) : (State.storeRbList a v s).sbLen = s.sbLen := rfl
@[simp] theorem State.sb_storeRbList (a : Nat) (v : List Byte) : (State.storeRbList a v s).sb = s.sb := rfl
@[simp] theorem State.rxbLen_storeRbList (a : Nat) (v : List Byte) : (State.storeRbList a v s).rxbLen = s.rxbLen := rfl
@[simp] theorem State.rxb_storeRbList (a : Nat) (v : List Byte) : (State.storeRbList a v s).rxb = s.rxb := rfl
@[simp] theorem State.lastAddr_storeRbList (a : Nat) (v : List Byte) : (State.storeRbList a v s).lastAddr = s.lastAddr := rfl
@[simp] theorem State.cfgTimeout_storeRbList (a : Nat) (v : List Byte) : (State.storeRbList a v s).cfgTimeout = s.cfgTimeout := rfl
@[simp] theorem State.cfgAddr_storeRbList (a : Nat) (v : List Byte) : (State.storeRbList a v s).cfgAddr = s.cfgAddr := rfl
@[simp] theorem State.cfgAddrDirty_storeRbList (a : Nat) (v : List Byte) : (State.storeRbList a v s).cfgAddrDirty = s.cfgAddrDirty := rfl
@[simp] theorem State.snap_storeRbList (a : Nat) (v : List Byte) : (State.storeRbList a v s).snap = s.snap := rfl
@[simp] theorem State.ltRemaining_storeRbList (a : Nat) (v : List Byte) : (State.storeRbList a v s).ltRemaining = s.ltRemaining := rfl
@[simp] theorem State.ltRunning_storeRbList (a : Nat) (v : List Byte) : (State.storeRbList a v s).ltRunning = s.ltRunning := rfl
@[simp] theorem State.hwAddr_storeRbList (a : Nat) (v : List Byte) : (State.storeRbList a v s).hwAddr = s.hwAddr := rfl
@[simp] theorem State.hwCommunicating_storeRbList (a : Nat) (v : List Byte) : (State.storeRbList a v s).hwCommunicating = s.hwCommunicating := rfl
@[simp] theorem State.hwDir_storeRbList (a : Nat) (v : List Byte) : (State.storeRbList a v s).hwDir = s.hwDir := rfl
@[simp] theorem State.hwResult_storeRbList (a : Nat) (v : List Byte) : (State.storeRbList a v s).hwResult = s.hwResult := rfl
@[simp] theorem State.hwLast_storeRbList (a : Nat) (v : List Byte) : (State.storeRbList a v s).hwLast = s.hwLast := rfl
@[simp] theorem State.hwSendBuf_storeRbList (a : Nat) (v : List Byte) : (State.storeRbList a v s).hwSendBuf = s.hwSendBuf := rfl
@[simp] theorem State.hwSendLen_storeRbList (a : Nat) (v : List Byte) : (State.storeRbList a v s).hwSendLen = s.hwSendLen := rfl
@[simp] theorem State.hwRecvBuf_storeRbList (a : Nat) (v : List Byte) : (State.storeRbList a v s).hwRecvBuf = s.hwRecvBuf := rfl
@[simp] theorem State.hwRecvLen_storeRbList (a : Nat) (v : List Byte) : (State.storeRbList a v s).hwRecvLen = s.hwRecvLen := rfl
@[simp] theorem State.hwCbSet_storeRbList (a : Nat) (v : List Byte) : (State.storeRbList a v s).hwCbSet = s.hwCbSet := rfl
@[simp] theorem State.rxCnt_storeRbList (a : Nat) (v : List Byte) : (State.storeRbList a v s).rxCnt = s.rxCnt := rfl
@[simp] theorem State.txCnt_storeRbList (a : Nat) (v : List Byte) : (State.storeRbList a v s).txCnt = s.txCnt := rfl
@[simp] theorem State.rxOver_storeRbList (a : Nat) (v : List Byte) : (State.storeRbList a v s).rxOver = s.rxOver := rfl
@[simp] theorem State.prevConnected_storeRbList (a : Nat) (v : List Byte) : (State.storeRbList a v s).prevConnected = s.prevConnected := rfl
@[simp] theorem State.mcMode_storeRbList (a : Nat) (v : List Byte) : (State.storeRbList a v s).mcMode = s.mcMode := rfl
@[simp] theorem State.mcOc_storeRbList (a : Nat) (v : List Byte) : (State.storeRbList a v s).mcOc = s.mcOc := rfl
@[simp] theorem State.ptRemaining_storeRbList (a : Nat) (v : List Byte) : (State.storeRbList a v s).ptRemaining = s.ptRemaining := rfl
@[simp] theorem State.ptRunning_storeRbList (a : Nat) (v : List Byte) : (State.storeRbList a v s).ptRunning = s.ptRunning := rfl
@[simp] theorem State.panic_storeRbList (a : Nat) (v : List Byte) : (State.storeRbList a v s).panic = s.panic := rfl
@[simp] theorem State.inbox_storeRbList (a : Nat) (v : List Byte) : (State.storeRbList a v s).inbox = s.inbox := rfl
@[simp] theorem State.rebind_storeRbList (a : Nat) (v : List Byte) : (State.storeRbList a v s).rebind = s.rebind := rfl
@[simp] theorem State.preempt_storeRbList (a : Nat) (v : List Byte) : (State.storeRbList a v s).preempt = s.preempt := rfl
@[simp] theorem State.allocFail_storeRbList (a : Nat) (v : List Byte) : (State.storeRbList a v s).allocFail = s.allocFail := rfl
@[simp] theorem State.draws_storeRbList (a : Nat) (v : List Byte) : (State.storeRbList a v s).draws = s.draws := rfl
@[simp] theorem State.out_storeRbList (a : Nat) (v : List Byte) : (State.storeRbList a v s).out = s.out := rfl

/-! ## storeSbList -/

@[simp] theorem State.cfg_storeSbList (a : Nat) (v : List Byte) : (State.storeSbList a v s).cfg = s.cfg := rfl
@[simp] theorem State.rbPresent_storeSbList (a : Nat) (v : List Byte) : (State.storeSbList a v s).rbPresent = s.rbPresent := rfl
@[simp] theorem State.rbLen_storeSbList (a : Nat) (v : List Byte) : (State.storeSbList a v s).rbLen = s.rbLen := rfl
@[simp] theorem State.rb_storeSbList (a : Nat) (v : List Byte) : (State.storeSbList a v s).rb = s.rb := rfl
@[simp] theorem State.rbPos_storeSbList (a : Nat) (v : List Byte) : (State.storeSbList a v s).rbPos = s.rbPos := rfl
@[simp] theorem State.sbLen_storeSbList (a : Nat) (v : List Byte) : (State.storeSbList a v s).sbLen = s.sbLen := rfl
@[simp] theorem State.sb_storeSbList (a : Nat) (v : List Byte) : (State.storeSbList a v s).sb = Memory.writeList s.sb a v := rfl
@[simp] theorem State.rxbLen_storeSbList (a : Nat) (v : List Byte) : (State.storeSbList a v s).rxbLen = s.rxbLen := rfl
@[simp] theorem State.rxb_storeSbList (a : Nat) (v : List Byte) : (State.storeSbList a v s).rxb = s.rxb := rfl
@[simp] theorem State.lastAddr_storeSbList (a : Nat) (v : List Byte) : (State.storeSbList a v s).lastAddr = s.lastAddr := rfl
@[simp] theorem State.cfgTimeout_storeSbList (a : Nat) (v : List Byte) : (State.storeSbList a v s).cfgTimeout = s.cfgTimeout := rfl
@[simp] theorem State.cfgAddr_storeSbList (a : Nat) (v : List Byte) : (State.storeSbList a v s).cfgAddr = s.cfgAddr := rfl
@[simp] theorem State.cfgAddrDirty_storeSbList (a : Nat) (v : List Byte) : (State.storeSbList a v s).cfgAddrDirty = s.cfgAddrDirty := rfl
@[simp] theorem State.snap_storeSbList (a : Nat) (v : List Byte) : (State.storeSbList a v s).snap = s.snap := rfl
@[simp] theorem State.ltRemaining_storeSbList (a : Nat) (v : List Byte) : (State.storeSbList a v s).ltRemaining = s.ltRemaining := rfl
@[simp] theorem State.ltRunning_storeSbList (a : Nat) (v : List Byte) : (State.storeSbList a v s).ltRunning = s.ltRunning := rfl
@[simp] theorem State.hwAddr_storeSbList (a : Nat) (v : List Byte) : (State.storeSbList a v s).hwAddr = s.hwAddr := rfl
@[simp] theorem State.hwCommunicating_storeSbList (a : Nat) (v : List Byte) : (State.storeSbList a v s).hwCommunicating = s.hwCommunicating := rfl
@[simp] theorem State.hwDir_storeSbList (a : Nat) (v : List Byte) : (State.storeSbList a v s).hwDir = s.hwDir := rfl
@[simp] theorem State.hwResult_storeSbList (a : Nat) (v : List Byte) : (State.storeSbList a v s).hwResult = s.hwResult := rfl
@[simp] theorem State.hwLast_storeSbList (a : Nat) (v : List Byte) : (State.storeSbList a v s).hwLast = s.hwLast := rfl
@[simp] theorem State.hwSendBuf_storeSbList (a : Nat) (v : List Byte) : (State.storeSbList a v s).hwSendBuf = s.hwSendBuf := rfl
@[simp] theorem State.hwSendLen_storeSbList (a : Nat) (v : List Byte) : (State.storeSbList a v s).hwSendLen = s.hwSendLen := rfl
@[simp] theorem State.hwRecvBuf_storeSbList (a : Nat) (v : List Byte) : (State.storeSbList a v s).hwRecvBuf = s.hwRecvBuf := rfl
@[simp] theorem State.hwRecvLen_storeSbList (a : Nat) (v : List Byte) : (State.storeSbList a v s).hwRecvLen = s.hwRecvLen := rfl
@[simp] theorem State.hwCbSet_storeSbList (a : Nat) (v : List Byte) : (State.storeSbList a v s).hwCbSet = s.hwCbSet := rfl
@[simp] theorem State.rxCnt_storeSbList (a : Nat) (v : List Byte) : (State.storeSbList a v s).rxCnt = s.rxCnt := rfl
@[simp] theorem State.txCnt_storeSbList (a : Nat) (v : List Byte) : (State.storeSbList a v s).txCnt = s.txCnt := rfl
@[simp] theorem State.rxOver_storeSbList (a : Nat) (v : List Byte) : (State.storeSbList a v s).rxOver = s.rxOver := rfl
@[simp] theorem State.prevConnected_storeSbList (a : Nat) (v : List Byte) : (State.storeSbList a v s).prevConnected = s.prevConnected := rfl
@[simp] theorem State.mcMode_storeSbList (a : Nat) (v : List Byte) : (State.storeSbList a v s).mcMode = s.mcMode := rfl
@[simp] theorem State.mcOc_storeSbList (a : Nat) (v : List Byte) : (State.storeSbList a v s).mcOc = s.mcOc := rfl
@[simp] theorem State.ptRemaining_storeSbList (a : Nat) (v : List Byte) : (State.storeSbList a v s).ptRemaining = s.ptRemaining := rfl
@[simp] theorem State.ptRunning_storeSbList (a : Nat) (v : List Byte) : (State.storeSbList a v s).ptRunning = s.ptRunning := rfl
@[simp] theorem State.panic_storeSbList (a : Nat) (v : List Byte) : (State.storeSbList a v s).panic = s.panic := rfl
@[simp] theorem State.inbox_storeSbList (a : Nat) (v : List Byte) : (State.storeSbList a v s).inbox = s.inbox := rfl
@[simp] theorem State.rebind_storeSbList (a : Nat) (v : List Byte) : (State.storeSbList a v s).rebind = s.rebind := rfl
@[simp] theorem State.preempt_storeSbList (a : Nat) (v : List Byte) : (State.storeSbList a v s).preempt = s.preempt := rfl
@[simp] theorem State.allocFail_storeSbList (a : Nat) (v : List Byte) : (State.storeSbList a v s).allocFail = s.allocFail := rfl
@[simp] theorem State.draws_storeSbList (a : Nat) (v : List Byte) : (State.storeSbList a v s).draws = s.draws := rfl
@[simp] theorem State.out_storeSbList (a : Nat) (v : List Byte) : (State.storeSbList a v s).out = s.out := rfl

/-! ## ltStarted -/

@[simp] theorem State.cfg_ltStarted : (State.ltStarted s).cfg = s.cfg := rfl
@[simp] theorem State.rbPresent_ltStarted : (State.ltStarted s).rbPresent = s.rbPresent := rfl
@[simp] theorem State.rbLen_ltStarted : (State.ltStarted s).rbLen = s.rbLen := rfl
@[simp] theorem State.rb_ltStarted : (State.ltStarted s).rb = s.rb := rfl
@[simp] theorem State.rbPos_ltStarted : (State.ltStarted s).rbPos = s.rbPos := rfl
@[simp] theorem State.sbLen_ltStarted : (State.ltStarted s).sbLen = s.sbLen := rfl
@[simp] theorem State.sb_ltStarted : (State.ltStarted s).sb = s.sb := rfl
@[simp] theorem State.rxbLen_ltStarted : (State.ltStarted s).rxbLen = s.rxbLen := rfl
@[simp] theorem State.rxb_ltStarted : (State.ltStarted s).rxb = s.rxb := rfl
@[simp] theorem State.lastAddr_ltStarted : (State.ltStarted s).lastAddr = s.lastAddr := rfl
@[simp] theorem State.cfgTimeout_ltStarted : (State.ltStarted s).cfgTimeout = s.cfgTimeout := rfl
@[simp] theorem State.cfgAddr_ltStarted : (State.ltStarted s).cfgAddr = s.cfgAddr := rfl
@[simp] theorem State.cfgAddrDirty_ltStarted : (State.ltStarted s).cfgAddrDirty = s.cfgAddrDirty := rfl
@[simp] theorem State.snap_ltStarted : (State.ltStarted s).snap = s.snap := rfl
@[simp] theorem State.ltRemaining_ltStarted : (State.ltStarted s).ltRemaining = s.ltRemaining := rfl
@[simp] theorem State.ltRunning_ltStarted : (State.ltStarted s).ltRunning = true := rfl
@[simp] theorem State.hwAddr_ltStarted : (State.ltStarted s).hwAddr = s.hwAddr := rfl
@[simp] theorem State.hwCommunicating_ltStarted : (State.ltStarted s).hwCommunicating = s.hwCommunicating := rfl
@[simp] theorem State.hwDir_ltStarted : (State.ltStarted s).hwDir = s.hwDir := rfl
@[simp] theorem State.hwResult_ltStarted : (State.ltStarted s).hwResult = s.hwResult := rfl
@[simp] theorem State.hwLast_ltStarted : (State.ltStarted s).hwLast = s.hwLast := rfl
@[simp] theorem State.hwSendBuf_ltStarted : (State.ltStarted s).hwSendBuf = s.hwSendBuf := rfl
@[simp] theorem State.hwSendLen_ltStarted : (State.ltStarted s).hwSendLen = s.hwSendLen := rfl
@[simp] theorem State.hwRecvBuf_ltStarted : (State.ltStarted s).hwRecvBuf = s.hwRecvBuf := rfl
@[simp] theorem State.hwRecvLen_ltStarted : (State.ltStarted s).hwRecvLen = s.hwRecvLen := rfl
@[simp] theorem State.hwCbSet_ltStarted : (State.ltStarted s).hwCbSet = s.hwCbSet := rfl
@[simp] theorem State.rxCnt_ltStarted : (State.ltStarted s).rxCnt = s.rxCnt := rfl
@[simp] theorem State.txCnt_ltStarted : (State.ltStarted s).txCnt = s.txCnt := rfl
@[simp] theorem State.rxOver_ltStarted : (State.ltStarted s).rxOver = s.rxOver := rfl
@[simp] theorem State.prevConnected_ltStarted : (State.ltStarted s).prevConnected = s.prevConnected := rfl
@[simp] theorem State.mcMode_ltStarted : (State.ltStarted s).mcMode = s.mcMode := rfl
@[simp] theorem State.mcOc_ltStarted : (State.ltStarted s).mcOc = s.mcOc := rfl
@[simp] theorem State.ptRemaining_ltStarted : (State.ltStarted s).ptRemaining = s.ptRemaining := rfl
@[simp] theorem State.ptRunning_ltStarted : (State.ltStarted s).ptRunning = s.ptRunning := rfl
@[simp] theorem State.panic_ltStarted : (State.ltStarted s).panic = s.panic := rfl
@[simp] theorem State.inbox_ltStarted : (State.ltStarted s).inbox = s.inbox := rfl
@[simp] theorem State.rebind_ltStarted : (State.ltStarted s).rebind = s.rebind := rfl
@[simp] theorem State.preempt_ltStarted : (State.ltStarted s).preempt = s.preempt := rfl
@[simp] theorem State.allocFail_ltStarted : (State.ltStarted s).allocFail = s.allocFail := rfl
@[simp] theorem State.draws_ltStarted : (State.ltStarted s).draws = s.draws := rfl
@[simp] theorem State.out_ltStarted : (State.ltStarted s).out = s.out := rfl

/-! ## ltAssigned -/

@[simp] theorem State.cfg_ltAssigned (t : Ticks) : (State.ltAssigned t s).cfg = s.cfg := rfl
@[simp] theorem State.rbPresent_ltAssigned (t : Ticks) : (State.ltAssigned t s).rbPresent = s.rbPresent := rfl
@[simp] theorem State.rbLen_ltAssigned (t : Ticks) : (State.ltAssigned t s).rbLen = s.rbLen := rfl
@[simp] theorem State.rb_ltAssigned (t : Ticks) : (State.ltAssigned t s).rb = s.rb := rfl
@[simp] theorem State.rbPos_ltAssigned (t : Ticks) : (State.ltAssigned t s).rbPos = s.rbPos := rfl
@[simp] theorem State.sbLen_ltAssigned (t : Ticks) : (State.ltAssigned t s).sbLen = s.sbLen := rfl
@[simp] theorem State.sb_ltAssigned (t : Ticks) : (State.ltAssigned t s).sb = s.sb := rfl
@[simp] theorem State.rxbLen_ltAssigned (t : Ticks) : (State.ltAssigned t s).rxbLen = s.rxbLen := rfl
@[simp] theorem State.rxb_ltAssigned (t : Ticks) : (State.ltAssigned t s).rxb = s.rxb := rfl
@[simp] theorem State.lastAddr_ltAssigned (t : Ticks) : (State.ltAssigned t s).lastAddr = s.lastAddr := rfl
@[simp] theorem State.cfgTimeout_ltAssigned (t : Ticks) : (State.ltAssigned t s).cfgTimeout = s.cfgTimeout := rfl
@[simp] theorem State.cfgAddr_ltAssigned (t : Ticks) : (State.ltAssigned t s).cfgAddr = s.cfgAddr := rfl
@[simp] theorem State.cfgAddrDirty_ltAssigned (t : Ticks) : (State.ltAssigned t s).cfgAddrDirty = s.cfgAddrDirty := rfl
@[simp] theorem State.snap_ltAssigned (t : Ticks) : (State.ltAssigned t s).snap = s.snap := rfl
@[simp] theorem State.ltRemaining_ltAssigned (t : Ticks) : (State.ltAssigned t s).ltRemaining = t := rfl
@[simp] theorem State.ltRunning_ltAssigned (t : Ticks) : (State.ltAssigned t s).ltRunning = s.ltRunning := rfl
@[simp] theorem State.hwAddr_ltAssigned (t : Ticks) : (State.ltAssigned t s).hwAddr = s.hwAddr := rfl
@[simp] theorem State.hwCommunicating_ltAssigned (t : Ticks) : (State.ltAssigned t s).hwCommunicating = s.hwCommunicating := rfl
@[simp] theorem State.hwDir_ltAssigned (t : Ticks) : (State.ltAssigned t s).hwDir = s.hwDir := rfl
@[simp] theorem State.hwResult_ltAssigned (t : Ticks) : (State.ltAssigned t s).hwResult = s.hwResult := rfl
@[simp] theorem State.hwLast_ltAssigned (t : Ticks) : (State.ltAssigned t s).hwLast = s.hwLast := rfl
@[simp] theorem State.hwSendBuf_ltAssigned (t : Ticks) : (State.ltAssigned t s).hwSendBuf = s.hwSendBuf := rfl
@[simp] theorem State.hwSendLen_ltAssigned (t : Ticks) : (State.ltAssigned t s).hwSendLen = s.hwSendLen := rfl
@[simp] theorem State.hwRecvBuf_ltAssigned (t : Ticks) : (State.ltAssigned t s).hwRecvBuf = s.hwRecvBuf := rfl
@[simp] theorem State.hwRecvLen_ltAssigned (t : Ticks) : (State.ltAssigned t s).hwRecvLen = s.hwRecvLen := rfl
@[simp] theorem State.hwCbSet_ltAssigned (t : Ticks) : (State.ltAssigned t s).hwCbSet = s.hwCbSet := rfl
@[simp] theorem State.rxCnt_ltAssigned (t : Ticks) : (State.ltAssigned t s).rxCnt = s.rxCnt := rfl
@[simp] theorem State.txCnt_ltAssigned (t : Ticks) : (State.ltAssigned t s).txCnt = s.txCnt := rfl
@[simp] theorem State.rxOver_ltAssigned (t : Ticks) : (State.ltAssigned t s).rxOver = s.rxOver := rfl
@[simp] theorem State.prevConnected_ltAssigned (t : Ticks) : (State.ltAssigned t s).prevConnected = s.prevConnected := rfl
@[simp] theorem State.mcMode_ltAssigned (t : Ticks) : (State.ltAssigned t s).mcMode = s.mcMode := rfl
@[simp] theorem State.mcOc_ltAssigned (t : Ticks) : (State.ltAssigned t s).mcOc = s.mcOc := rfl
@[simp] theorem State.ptRemaining_ltAssigned (t : Ticks) : (State.ltAssigned t s).ptRemaining = s.ptRemaining := rfl
@[simp] theorem State.ptRunning_ltAssigned (t : Ticks) : (State.ltAssigned t s).ptRunning = s.ptRunning := rfl
@[simp] theorem State.panic_ltAssigned (t : Ticks) : (State.ltAssigned t s).panic = s.panic := rfl
@[simp] theorem State.inbox_ltAssigned (t : Ticks) : (State.ltAssigned t s).inbox = s.inbox := rfl
@[simp] theorem State.rebind_ltAssigned (t : Ticks) : (State.ltAssigned t s).rebind = s.rebind := rfl
@[simp] theorem State.preempt_ltAssigned (t : Ticks) : (State.ltAssigned t s).preempt = s.preempt := rfl
@[simp] theorem State.allocFail_ltAssigned (t : Ticks) : (State.ltAssigned t s).allocFail = s.allocFail := rfl
@[simp] theorem State.draws_ltAssigned (t : Ticks) : (State.ltAssigned t s).draws = s.draws := rfl
@[simp] theorem State.out_ltAssigned (t : Ticks) : (State.ltAssigned t s).out = s.out := rfl

/-! ## ltRestarted -/

@[simp] theorem State.cfg_ltRestarted : (State.ltRestarted s).cfg = s.cfg := rfl
@[simp] theorem State.rbPresent_ltRestarted : (State.ltRestarted s).rbPresent = s.rbPresent := rfl
@[simp] theorem State.rbLen_ltRestarted : (State.ltRestarted s).rbLen = s.rbLen := rfl
@[simp] theorem State.rb_ltRestarted : (State.ltRestarted s).rb = s.rb := rfl
@[simp] theorem State.rbPos_ltRestarted : (State.ltRestarted s).rbPos = s.rbPos := rfl
@[simp] theorem State.sbLen_ltRestarted : (State.ltRestarted s).sbLen = s.sbLen := rfl
@[simp] theorem State.sb_ltRestarted : (State.ltRestarted s).sb = s.sb := rfl
@[simp] theorem State.rxbLen_ltRestarted : (State.ltRestarted s).rxbLen = s.rxbLen := rfl
@[simp] theorem State.rxb_ltRestarted : (State.ltRestarted s).rxb = s.rxb := rfl
@[simp] theorem State.lastAddr_ltRestarted : (State.ltRestarted s).lastAddr = s.lastAddr := rfl
@[simp] theorem State.cfgTimeout_ltRestarted : (State.ltRestarted s).cfgTimeout = s.cfgTimeout := rfl
@[simp] theorem State.cfgAddr_ltRestarted : (State.ltRestarted s).cfgAddr = s.cfgAddr := rfl
@[simp] theorem State.cfgAddrDirty_ltRestarted : (State.ltRestarted s).cfgAddrDirty = s.cfgAddrDirty := rfl
@[simp] theorem State.snap_ltRestarted : (State.ltRestarted s).snap = s.snap := rfl
@[simp] theorem State.ltRemaining_ltRestarted : (State.ltRestarted s).ltRemaining = s.cfgTimeout := rfl
@[simp] theorem State.ltRunning_ltRestarted : (State.ltRestarted s).ltRunning = true := rfl
@[simp] theorem State.hwAddr_ltRestarted : (State.ltRestarted s).hwAddr = s.hwAddr := rfl
@[simp] theorem State.hwCommunicating_ltRestarted : (State.ltRestarted s).hwCommunicating = s.hwCommunicating := rfl
@[simp] theorem State.hwDir_ltRestarted : (State.ltRestarted s).hwDir = s.hwDir := rfl
@[simp] theorem State.hwResult_ltRestarted : (State.ltRestarted s).hwResult = s.hwResult := rfl
@[simp] theorem State.hwLast_ltRestarted : (State.ltRestarted s).hwLast = s.hwLast := rfl
@[simp] theorem State.hwSendBuf_ltRestarted : (State.ltRestarted s).hwSendBuf = s.hwSendBuf := rfl
@[simp] theorem State.hwSendLen_ltRestarted : (State.ltRestarted s).hwSendLen = s.hwSendLen := rfl
@[simp] theorem State.hwRecvBuf_ltRestarted : (State.ltRestarted s).hwRecvBuf = s.hwRecvBuf := rfl
@[simp] theorem State.hwRecvLen_ltRestarted : (State.ltRestarted s).hwRecvLen = s.hwRecvLen := rfl
@[simp] theorem State.hwCbSet_ltRestarted : (State.ltRestarted s).hwCbSet = s.hwCbSet := rfl
@[simp] theorem State.rxCnt_ltRestarted : (State.ltRestarted s).rxCnt = s.rxCnt := rfl
@[simp] theorem State.txCnt_ltRestarted : (State.ltRestarted s).txCnt = s.txCnt := rfl
@[simp] theorem State.rxOver_ltRestarted : (State.ltRestarted s).rxOver = s.rxOver := rfl
@[simp] theorem State.prevConnected_ltRestarted : (State.ltRestarted s).prevConnected = s.prevConnected := rfl
@[simp] theorem State.mcMode_ltRestarted : (State.ltRestarted s).mcMode = s.mcMode := rfl
@[simp] theorem State.mcOc_ltRestarted : (State.ltRestarted s).mcOc = s.mcOc := rfl
@[simp] theorem State.ptRemaining_ltRestarted : (State.ltRestarted s).ptRemaining = s.ptRemaining := rfl
@[simp] theorem State.ptRunning_ltRestarted : (State.ltRestarted s).ptRunning = s.ptRunning := rfl
@[simp] theorem State.panic_ltRestarted : (State.ltRestarted s).panic = s.panic := rfl
@[simp] theorem State.inbox_ltRestarted : (State.ltRestarted s).inbox = s.inbox := rfl
@[simp] theorem State.rebind_ltRestarted : (State.ltRestarted s).rebind = s.rebind := rfl
@[simp] theorem State.preempt_ltRestarted : (State.ltRestarted s).preempt = s.preempt := rfl
@[simp] theorem State.allocFail_ltRestarted : (State.ltRestarted s).allocFail = s.allocFail := rfl
@[simp] theorem State.draws_ltRestarted : (State.ltRestarted s).draws = s.draws := rfl
@[simp] theorem State.out_ltRestarted : (State.ltRestarted s).out = s.out := rfl

/-! ## ptRestarted -/

@[simp] theorem State.cfg_ptRestarted : (State.ptRestarted s).cfg = s.cfg := rfl
@[simp] theorem State.rbPresent_ptRestarted : (State.ptRestarted s).rbPresent = s.rbPresent := rfl
@[simp] theorem State.rbLen_ptRestarted : (State.ptRestarted s).rbLen = s.rbLen := rfl
@[simp] theorem State.rb_ptRestarted : (State.ptRestarted s).rb = s.rb := rfl
@[simp] theorem State.rbPos_ptRestarted : (State.ptRestarted s).rbPos = s.rbPos := rfl
@[simp] theorem State.sbLen_ptRestarted : (State.ptRestarted s).sbLen = s.sbLen := rfl
@[simp] theorem State.sb_ptRestarted : (State.ptRestarted s).sb = s.sb := rfl
@[simp] theorem State.rxbLen_ptRestarted : (State.ptRestarted s).rxbLen = s.rxbLen := rfl
@[simp] theorem State.rxb_ptRestarted : (State.ptRestarted s).rxb = s.rxb := rfl
@[simp] theorem State.lastAddr_ptRestarted : (State.ptRestarted s).lastAddr = s.lastAddr := rfl
@[simp] theorem State.cfgTimeout_ptRestarted : (State.ptRestarted s).cfgTimeout = s.cfgTimeout := rfl
@[simp] theorem State.cfgAddr_ptRestarted : (State.ptRestarted s).cfgAddr = s.cfgAddr := rfl
@[simp] theorem State.cfgAddrDirty_ptRestarted : (State.ptRestarted s).cfgAddrDirty = s.cfgAddrDirty := rfl
@[simp] theorem State.snap_ptRestarted : (State.ptRestarted s).snap = s.snap := rfl
@[simp] theorem State.ltRemaining_ptRestarted : (State.ptRestarted s).ltRemaining = s.ltRemaining := rfl
@[simp] theorem State.ltRunning_ptRestarted : (State.ptRestarted s).ltRunning = s.ltRunning := rfl
@[simp] theorem State.hwAddr_ptRestarted : (State.ptRestarted s).hwAddr = s.hwAddr := rfl
@[simp] theorem State.hwCommunicating_ptRestarted : (State.ptRestarted s).hwCommunicating = s.hwCommunicating := rfl
@[simp] theorem State.hwDir_ptRestarted : (State.ptRestarted s).hwDir = s.hwDir := rfl
@[simp] theorem State.hwResult_ptRestarted : (State.ptRestarted s).hwResult = s.hwResult := rfl
@[simp] theorem State.hwLast_ptRestarted : (State.ptRestarted s).hwLast = s.hwLast := rfl
@[simp] theorem State.hwSendBuf_ptRestarted : (State.ptRestarted s).hwSendBuf = s.hwSendBuf := rfl
@[simp] theorem State.hwSendLen_ptRestarted : (State.ptRestarted s).hwSendLen = s.hwSendLen := rfl
@[simp] theorem State.hwRecvBuf_ptRestarted : (State.ptRestarted s).hwRecvBuf = s.hwRecvBuf := rfl
@[simp] theorem State.hwRecvLen_ptRestarted : (State.ptRestarted s).hwRecvLen = s.hwRecvLen := rfl
@[simp] theorem State.hwCbSet_ptRestarted : (State.ptRestarted s).hwCbSet = s.hwCbSet := rfl
@[simp] theorem State.rxCnt_ptRestarted : (State.ptRestarted s).rxCnt = s.rxCnt := rfl
@[simp] theorem State.txCnt_ptRestarted : (State.ptRestarted s).txCnt = s.txCnt := rfl
@[simp] theorem State.rxOver_ptRestarted : (State.ptRestarted s).rxOver = s.rxOver := rfl
@[simp] theorem State.prevConnected_ptRestarted : (State.ptRestarted s).prevConnected = s.prevConnected := rfl
@[simp] theorem State.mcMode_ptRestarted : (State.ptRestarted s).mcMode = s.mcMode := rfl
@[simp] theorem State.mcOc_ptRestarted : (State.ptRestarted s).mcOc = s.mcOc := rfl
@[simp] theorem State.ptRemaining_ptRestarted : (State.ptRestarted s).ptRemaining = s.cfg.ptTimeout := rfl
@[simp] theorem State.ptRunning_ptRestarted : (State.ptRestarted s).ptRunning = true := rfl
@[simp] theorem State.panic_ptRestarted : (State.ptRestarted s).panic = s.panic := rfl
@[simp] theorem State.inbox_ptRestarted : (State.ptRestarted s).inbox = s.inbox := rfl
@[simp] theorem State.rebind_ptRestarted : (State.ptRestarted s).rebind = s.rebind := rfl
@[simp] theorem State.preempt_ptRestarted : (State.ptRestarted s).preempt = s.preempt := rfl
@[simp] theorem State.allocFail_ptRestarted : (State.ptRestarted s).allocFail = s.allocFail := rfl
@[simp] theorem State.draws_ptRestarted : (State.ptRestarted s).draws = s.draws := rfl
@[simp] theorem State.out_ptRestarted : (State.ptRestarted s).out = s.out := rfl

/-! ## ticked -/

@[simp] theorem State.cfg_ticked : (State.ticked s).cfg = s.cfg := rfl
@[simp] theorem State.rbPresent_ticked : (State.ticked s).rbPresent = s.rbPresent := rfl
@[simp] theorem State.rbLen_ticked : (State.ticked s).rbLen = s.rbLen := rfl
@[simp] theorem State.rb_ticked : (State.ticked s).rb = s.rb := rfl
@[simp] theorem State.rbPos_ticked : (State.ticked s).rbPos = s.rbPos := rfl
@[simp] theorem State.sbLen_ticked : (State.ticked s).sbLen = s.sbLen := rfl
@[simp] theorem State.sb_ticked : (State.ticked s).sb = s.sb := rfl
@[simp] theorem State.rxbLen_ticked : (State.ticked s).rxbLen = s.rxbLen := rfl
@[simp] theorem State.rxb_ticked : (State.ticked s).rxb = s.rxb := rfl
@[simp] theorem State.lastAddr_ticked : (State.ticked s).lastAddr = s.lastAddr := rfl
@[simp] theorem State.cfgTimeout_ticked : (State.ticked s).cfgTimeout = s.cfgTimeout := rfl
@[simp] theorem State.cfgAddr_ticked : (State.ticked s).cfgAddr = s.cfgAddr := rfl
@[simp] theorem State.cfgAddrDirty_ticked : (State.ticked s).cfgAddrDirty = s.cfgAddrDirty := rfl
@[simp] theorem State.snap_ticked : (State.ticked s).snap = s.snap := rfl
@[simp] theorem State.ltRemaining_ticked : (State.ticked s).ltRemaining = countdown s.ltRunning s.ltRemaining := rfl
@[simp] theorem State.ltRunning_ticked : (State.ticked s).ltRunning = s.ltRunning := rfl
@[simp] theorem State.hwAddr_ticked : (State.ticked s).hwAddr = s.hwAddr := rfl
@[simp] theorem State.hwCommunicating_ticked : (State.ticked s).hwCommunicating = s.hwCommunicating := rfl
@[simp] theorem State.hwDir_ticked : (State.ticked s).hwDir = s.hwDir := rfl
@[simp] theorem State.hwResult_ticked : (State.ticked s).hwResult = s.hwResult := rfl
@[simp] theorem State.hwLast_ticked : (State.ticked s).hwLast = s.hwLast := rfl
@[simp] theorem State.hwSendBuf_ticked : (State.ticked s).hwSendBuf = s.hwSendBuf := rfl
@[simp] theorem State.hwSendLen_ticked : (State.ticked s).hwSendLen = s.hwSendLen := rfl
@[simp] theorem State.hwRecvBuf_ticked : (State.ticked s).hwRecvBuf = s.hwRecvBuf := rfl
@[simp] theorem State.hwRecvLen_ticked : (State.ticked s).hwRecvLen = s.hwRecvLen := rfl
@[simp] theorem State.hwCbSet_ticked : (State.ticked s).hwCbSet = s.hwCbSet := rfl
@[simp] theorem State.rxCnt_ticked : (State.ticked s).rxCnt = s.rxCnt := rfl
@[simp] theorem State.txCnt_ticked : (State.ticked s).txCnt = s.txCnt := rfl
@[simp] theorem State.rxOver_ticked : (State.ticked s).rxOver = s.rxOver := rfl
@[simp] theorem State.prevConnected_ticked : (State.ticked s).prevConnected = s.prevConnected := rfl
@[simp] theorem State.mcMode_ticked : (State.ticked s).mcMode = s.mcMode := rfl
@[simp] theorem State.mcOc_ticked : (State.ticked s).mcOc = s.mcOc := rfl
@[simp] theorem State.ptRemaining_ticked : (State.ticked s).ptRemaining = countdown s.ptRunning s.ptRemaining := rfl
@[simp] theorem State.ptRunning_ticked : (State.ticked s).ptRunning = s.ptRunning := rfl
@[simp] theorem State.panic_ticked : (State.ticked s).panic = s.panic := rfl
@[simp] theorem State.inbox_ticked : (State.ticked s).inbox = s.inbox := rfl
@[simp] theorem State.rebind_ticked : (State.ticked s).rebind = s.rebind := rfl
@[simp] theorem State.preempt_ticked : (State.ticked s).preempt = s.preempt := rfl
@[simp] theorem State.allocFail_ticked : (State.ticked s).allocFail = s.allocFail := rfl
@[simp] theorem State.draws_ticked : (State.ticked s).draws = s.draws := rfl
@[simp] theorem State.out_ticked : (State.ticked s).out = s.out := rfl

/-! ## allocAsked -/

@[simp] theorem State.cfg_allocAsked : (State.allocAsked s).cfg = s.cfg := rfl
@[simp] theorem State.rbPresent_allocAsked : (State.allocAsked s).rbPresent = s.rbPresent := rfl
@[simp] theorem State.rbLen_allocAsked : (State.allocAsked s).rbLen = s.rbLen := rfl
@[simp] theorem State.rb_allocAsked : (State.allocAsked s).rb = s.rb := rfl
@[simp] theorem State.rbPos_allocAsked : (State.allocAsked s).rbPos = s.rbPos := rfl
@[simp] theorem State.sbLen_allocAsked : (State.allocAsked s).sbLen = s.sbLen := rfl
@[simp] theorem State.sb_allocAsked : (State.allocAsked s).sb = s.sb := rfl
@[simp] theorem State.rxbLen_allocAsked : (State.allocAsked s).rxbLen = s.rxbLen := rfl
@[simp] theorem State.rxb_allocAsked : (State.allocAsked s).rxb = s.rxb := rfl
@[simp] theorem State.lastAddr_allocAsked : (State.allocAsked s).lastAddr = s.lastAddr := rfl
@[simp] theorem State.cfgTimeout_allocAsked : (State.allocAsked s).cfgTimeout = s.cfgTimeout := rfl
@[simp] theorem State.cfgAddr_allocAsked : (State.allocAsked s).cfgAddr = s.cfgAddr := rfl
@[simp] theorem State.cfgAddrDirty_allocAsked : (State.allocAsked s).cfgAddrDirty = s.cfgAddrDirty := rfl
@[simp] theorem State.snap_allocAsked : (State.allocAsked s).snap = s.snap := rfl
@[simp] theorem State.ltRemaining_allocAsked : (State.allocAsked s).ltRemaining = s.ltRemaining := rfl
@[simp] theorem State.ltRunning_allocAsked : (State.allocAsked s).ltRunning = s.ltRunning := rfl
@[simp] theorem State.hwAddr_allocAsked : (State.allocAsked s).hwAddr = s.hwAddr := rfl
@[simp] theorem State.hwCommunicating_allocAsked : (State.allocAsked s).hwCommunicating = s.hwCommunicating := rfl
@[simp] theorem State.hwDir_allocAsked : (State.allocAsked s).hwDir = s.hwDir := rfl
@[simp] theorem State.hwResult_allocAsked : (State.allocAsked s).hwResult = s.hwResult := rfl
@[simp] theorem State.hwLast_allocAsked : (State.allocAsked s).hwLast = s.hwLast := rfl
@[simp] theorem State.hwSendBuf_allocAsked : (State.allocAsked s).hwSendBuf = s.hwSendBuf := rfl
@[simp] theorem State.hwSendLen_allocAsked : (State.allocAsked s).hwSendLen = s.hwSendLen := rfl
@[simp] theorem State.hwRecvBuf_allocAsked : (State.allocAsked s).hwRecvBuf = s.hwRecvBuf := rfl
@[simp] theorem State.hwRecvLen_allocAsked : (State.allocAsked s).hwRecvLen = s.hwRecvLen := rfl
@[simp] theorem State.hwCbSet_allocAsked : (State.allocAsked s).hwCbSet = s.hwCbSet := rfl
@[simp] theorem State.rxCnt_allocAsked : (State.allocAsked s).rxCnt = s.rxCnt := rfl
@[simp] theorem State.txCnt_allocAsked : (State.allocAsked s).txCnt = s.txCnt := rfl
@[simp] theorem State.rxOver_allocAsked : (State.allocAsked s).rxOver = s.rxOver := rfl
@[simp] theorem State.prevConnected_allocAsked : (State.allocAsked s).prevConnected = s.prevConnected := rfl
@[simp] theorem State.mcMode_allocAsked : (State.allocAsked s).mcMode = s.mcMode := rfl
@[simp] theorem State.mcOc_allocAsked : (State.allocAsked s).mcOc = s.mcOc := rfl
@[simp] theorem State.ptRemaining_allocAsked : (State.allocAsked s).ptRemaining = s.ptRemaining := rfl
@[simp] theorem State.ptRunning_allocAsked : (State.allocAsked s).ptRunning = s.ptRunning := rfl
@[simp] theorem State.panic_allocAsked : (State.allocAsked s).panic = s.panic := rfl
@[simp] theorem State.inbox_allocAsked : (State.allocAsked s).inbox = s.inbox := rfl
@[simp] theorem State.rebind_allocAsked : (State.allocAsked s).rebind = s.rebind := rfl
@[simp] theorem State.preempt_allocAsked : (State.allocAsked s).preempt = s.preempt := rfl
@[simp] theorem State.allocFail_allocAsked : (State.allocAsked s).allocFail = s.allocFail.tail := rfl
@[simp] theorem State.draws_allocAsked : (State.allocAsked s).draws = s.draws := rfl
@[simp] theorem State.out_allocAsked : (State.allocAsked s).out = s.out := rfl

/-! ## cursorLost -/

@[simp] theorem State.cfg_cursorLost : (State.cursorLost s).cfg = s.cfg := rfl
@[simp] theorem State.rbPresent_cursorLost : (State.cursorLost s).rbPresent = s.rbPresent := rfl
@[simp] theorem State.rbLen_cursorLost : (State.cursorLost s).rbLen = s.rbLen := rfl
@[simp] theorem State.rb_cursorLost : (State.cursorLost s).rb = s.rb := rfl
@[simp] theorem State.rbPos_cursorLost : (State.cursorLost s).rbPos = Config.freePos s.draws := rfl
@[simp] theorem State.sbLen_cursorLost : (State.cursorLost s).sbLen = s.sbLen := rfl
@[simp] theorem State.sb_cursorLost : (State.cursorLost s).sb = s.sb := rfl
@[simp] theorem State.rxbLen_cursorLost : (State.cursorLost s).rxbLen = s.rxbLen := rfl
@[simp] theorem State.rxb_cursorLost : (State.cursorLost s).rxb = s.rxb := rfl
@[simp] theorem State.lastAddr_cursorLost : (State.cursorLost s).lastAddr = s.lastAddr := rfl
@[simp] theorem State.cfgTimeout_cursorLost : (State.cursorLost s).cfgTimeout = s.cfgTimeout := rfl
@[simp] theorem State.cfgAddr_cursorLost : (State.cursorLost s).cfgAddr = s.cfgAddr := rfl
@[simp] theorem State.cfgAddrDirty_cursorLost : (State.cursorLost s).cfgAddrDirty = s.cfgAddrDirty := rfl
@[simp] theorem State.snap_cursorLost : (State.cursorLost s).snap = s.snap := rfl
@[simp] theorem State.ltRemaining_cursorLost : (State.cursorLost s).ltRemaining = s.ltRemaining := rfl
@[simp] theorem State.ltRunning_cursorLost : (State.cursorLost s).ltRunning = s.ltRunning := rfl
@[simp] theorem State.hwAddr_cursorLost : (State.cursorLost s).hwAddr = s.hwAddr := rfl
@[simp] theorem State.hwCommunicating_cursorLost : (State.cursorLost s).hwCommunicating = s.hwCommunicating := rfl
@[simp] theorem State.hwDir_cursorLost : (State.cursorLost s).hwDir = s.hwDir := rfl
@[simp] theorem State.hwResult_cursorLost : (State.cursorLost s).hwResult = s.hwResult := rfl
@[simp] theorem State.hwLast_cursorLost : (State.cursorLost s).hwLast = s.hwLast := rfl
@[simp] theorem State.hwSendBuf_cursorLost : (State.cursorLost s).hwSendBuf = s.hwSendBuf := rfl
@[simp] theorem State.hwSendLen_cursorLost : (State.cursorLost s).hwSendLen = s.hwSendLen := rfl
@[simp] theorem State.hwRecvBuf_cursorLost : (State.cursorLost s).hwRecvBuf = s.hwRecvBuf := rfl
@[simp] theorem State.hwRecvLen_cursorLost : (State.cursorLost s).hwRecvLen = s.hwRecvLen := rfl
@[simp] theorem State.hwCbSet_cursorLost : (State.cursorLost s).hwCbSet = s.hwCbSet := rfl
@[simp] theorem State.rxCnt_cursorLost : (State.cursorLost s).rxCnt = s.rxCnt := rfl
@[simp] theorem State.txCnt_cursorLost : (State.cursorLost s).txCnt = s.txCnt := rfl
@[simp] theorem State.rxOver_cursorLost : (State.cursorLost s).rxOver = s.rxOver := rfl
@[simp] theorem State.prevConnected_cursorLost : (State.cursorLost s).prevConnected = s.prevConnected := rfl
@[simp] theorem State.mcMode_cursorLost : (State.cursorLost s).mcMode = s.mcMode := rfl
@[simp] theorem State.mcOc_cursorLost : (State.cursorLost s).mcOc = s.mcOc := rfl
@[simp] theorem State.ptRemaining_cursorLost : (State.cursorLost s).ptRemaining = s.ptRemaining := rfl
@[simp] theorem State.ptRunning_cursorLost : (State.cursorLost s).ptRunning = s.ptRunning := rfl
@[simp] theorem State.panic_cursorLost : (State.cursorLost s).panic = s.panic := rfl
@[simp] theorem State.inbox_cursorLost : (State.cursorLost s).inbox = s.inbox := rfl
@[simp] theorem State.rebind_cursorLost : (State.cursorLost s).rebind = s.rebind := rfl
@[simp] theorem State.preempt_cursorLost : (State.cursorLost s).preempt = s.preempt := rfl
@[simp] theorem State.allocFail_cursorLost : (State.cursorLost s).allocFail = s.allocFail := rfl
@[simp] theorem State.draws_cursorLost : (State.cursorLost s).draws = s.draws + 1 := rfl
@[simp] theorem State.out_cursorLost : (State.cursorLost s).out = s.out := rfl

/-! ## begun -/

@[simp] theorem State.cfg_begun (rw : BusDir) : (State.begun rw s).cfg = s.cfg := rfl
@[simp] theorem State.rbPresent_begun (rw : BusDir) : (State.begun rw s).rbPresent = s.rbPresent := rfl
@[simp] theorem State.rbLen_begun (rw : BusDir) : (State.begun rw s).rbLen = s.rbLen := rfl
@[simp] theorem State.rb_begun (rw : BusDir) : (State.begun rw s).rb = s.rb := rfl
@[simp] theorem State.rbPos_begun (rw : BusDir) : (State.begun rw s).rbPos = s.rbPos := rfl
@[simp] theorem State.sbLen_begun (rw : BusDir) : (State.begun rw s).sbLen = s.sbLen := rfl
@[simp] theorem State.sb_begun (rw : BusDir) : (State.begun rw s).sb = s.sb := rfl
@[simp] theorem State.rxbLen_begun (rw : BusDir) : (State.begun rw s).rxbLen = s.rxbLen := rfl
@[simp] theorem State.rxb_begun (rw : BusDir) : (State.begun rw s).rxb = s.rxb := rfl
@[simp] theorem State.lastAddr_begun (rw : BusDir) : (State.begun rw s).lastAddr = s.lastAddr := rfl
@[simp] theorem State.cfgTimeout_begun (rw : BusDir) : (State.begun rw s).cfgTimeout = s.cfgTimeout := rfl
@[simp] theorem State.cfgAddr_begun (rw : BusDir) : (State.begun rw s).cfgAddr = s.cfgAddr := rfl
@[simp] theorem State.cfgAddrDirty_begun (rw : BusDir) : (State.begun rw s).cfgAddrDirty = s.cfgAddrDirty := rfl
@[simp] theorem State.snap_begun (rw : BusDir) : (State.begun rw s).snap = s.snap := rfl
@[simp] theorem State.ltRemaining_begun (rw : BusDir) : (State.begun rw s).ltRemaining = s.ltRemaining := rfl
@[simp] theorem State.ltRunning_begun (rw : BusDir) : (State.begun rw s).ltRunning = s.ltRunning := rfl
@[simp] theorem State.hwAddr_begun (rw : BusDir) : (State.begun rw s).hwAddr = s.hwAddr := rfl
@[simp] theorem State.hwCommunicating_begun (rw : BusDir) : (State.begun rw s).hwCommunicating = true := rfl
@[simp] theorem State.hwDir_begun (rw : BusDir) : (State.begun rw s).hwDir = rw := rfl
@[simp] theorem State.hwResult_begun (rw : BusDir) : (State.begun rw s).hwResult = s.hwResult := rfl
@[simp] theorem State.hwLast_begun (rw : BusDir) : (State.begun rw s).hwLast = s.hwLast := rfl
@[simp] theorem State.hwSendBuf_begun (rw : BusDir) : (State.begun rw s).hwSendBuf = s.hwSendBuf := rfl
@[simp] theorem State.hwSendLen_begun (rw : BusDir) : (State.begun rw s).hwSendLen = s.hwSendLen := rfl
@[simp] theorem State.hwRecvBuf_begun (rw : BusDir) : (State.begun rw s).hwRecvBuf = s.hwRecvBuf := rfl
@[simp] theorem State.hwRecvLen_begun (rw : BusDir) : (State.begun rw s).hwRecvLen = s.hwRecvLen := rfl
@[simp] theorem State.hwCbSet_begun (rw : BusDir) : (State.begun rw s).hwCbSet = s.hwCbSet := rfl
@[simp] theorem State.rxCnt_begun (rw : BusDir) : (State.begun rw s).rxCnt = 0 := rfl
@[simp] theorem State.txCnt_begun (rw : BusDir) : (State.begun rw s).txCnt = 0 := rfl
@[simp] theorem State.rxOver_begun (rw : BusDir) : (State.begun rw s).rxOver = false := rfl
@[simp] theorem State.prevConnected_begun (rw : BusDir) : (State.begun rw s).prevConnected = s.prevConnected := rfl
@[simp] theorem State.mcMode_begun (rw : BusDir) : (State.begun rw s).mcMode = s.mcMode := rfl
@[simp] theorem State.mcOc_begun (rw : BusDir) : (State.begun rw s).mcOc = s.mcOc := rfl
@[simp] theorem State.ptRemaining_begun (rw : BusDir) : (State.begun rw s).ptRemaining = s.ptRemaining := rfl
@[simp] theorem State.ptRunning_begun (rw : BusDir) : (State.begun rw s).ptRunning = s.ptRunning := rfl
@[simp] theorem State.panic_begun (rw : BusDir) : (State.begun rw s).panic = s.panic := rfl
@[simp] theorem State.inbox_begun (rw : BusDir) : (State.begun rw s).inbox = s.inbox := rfl
@[simp] theorem State.rebind_begun (rw : BusDir) : (State.begun rw s).rebind = s.rebind := rfl
@[simp] theorem State.preempt_begun (rw : BusDir) : (State.begun rw s).preempt = s.preempt := rfl
@[simp] theorem State.allocFail_begun (rw : BusDir) : (State.begun rw s).allocFail = s.allocFail := rfl
@[simp] theorem State.draws_begun (rw : BusDir) : (State.begun rw s).draws = s.draws := rfl
@[simp] theorem State.out_begun (rw : BusDir) : (State.begun rw s).out = s.out := rfl

/-! ## withHwAddr -/

@[simp] theorem State.cfg_withHwAddr (a : BusAddr) : (State.withHwAddr a s).cfg = s.cfg := rfl
@[simp] theorem State.rbPresent_withHwAddr (a : BusAddr) : (State.withHwAddr a s).rbPresent = s.rbPresent := rfl
@[simp] theorem State.rbLen_withHwAddr (a : BusAddr) : (State.withHwAddr a s).rbLen = s.rbLen := rfl
@[simp] theorem State.rb_withHwAddr (a : BusAddr) : (State.withHwAddr a s).rb = s.rb := rfl
@[simp] theorem State.rbPos_withHwAddr (a : BusAddr) : (State.withHwAddr a s).rbPos = s.rbPos := rfl
@[simp] theorem State.sbLen_withHwAddr (a : BusAddr) : (State.withHwAddr a s).sbLen = s.sbLen := rfl
@[simp] theorem State.sb_withHwAddr (a : BusAddr) : (State.withHwAddr a s).sb = s.sb := rfl
@[simp] theorem State.rxbLen_withHwAddr (a : BusAddr) : (State.withHwAddr a s).rxbLen = s.rxbLen := rfl
@[simp] theorem State.rxb_withHwAddr (a : BusAddr) : (State.withHwAddr a s).rxb = s.rxb := rfl
@[simp] theorem State.lastAddr_withHwAddr (a : BusAddr) : (State.withHwAddr a s).lastAddr = s.lastAddr := rfl
@[simp] theorem State.cfgTimeout_withHwAddr (a : BusAddr) : (State.withHwAddr a s).cfgTimeout = s.cfgTimeout := rfl
@[simp] theorem State.cfgAddr_withHwAddr (a : BusAddr) : (State.withHwAddr a s).cfgAddr = s.cfgAddr := rfl
@[simp] theorem State.cfgAddrDirty_withHwAddr (a : BusAddr) : (State.withHwAddr a s).cfgAddrDirty = s.cfgAddrDirty := rfl
@[simp] theorem State.snap_withHwAddr (a : BusAddr) : (State.withHwAddr a s).snap = s.snap := rfl
@[simp] theorem State.ltRemaining_withHwAddr (a : BusAddr) : (State.withHwAddr a s).ltRemaining = s.ltRemaining := rfl
@[simp] theorem State.ltRunning_withHwAddr (a : BusAddr) : (State.withHwAddr a s).ltRunning = s.ltRunning := rfl
@[simp] theorem State.hwAddr_withHwAddr (a : BusAddr) : (State.withHwAddr a s).hwAddr = a := rfl
@[simp] theorem State.hwCommunicating_withHwAddr (a : BusAddr) : (State.withHwAddr a s).hwCommunicating = s.hwCommunicating := rfl
@[simp] theorem State.hwDir_withHwAddr (a : BusAddr) : (State.withHwAddr a s).hwDir = s.hwDir := rfl
@[simp] theorem State.hwResult_withHwAddr (a : BusAddr) : (State.withHwAddr a s).hwResult = s.hwResult := rfl
@[simp] theorem State.hwLast_withHwAddr (a : BusAddr) : (State.withHwAddr a s).hwLast = s.hwLast := rfl
@[simp] theorem State.hwSendBuf_withHwAddr (a : BusAddr) : (State.withHwAddr a s).hwSendBuf = s.hwSendBuf := rfl
@[simp] theorem State.hwSendLen_withHwAddr (a : BusAddr) : (State.withHwAddr a s).hwSendLen = s.hwSendLen := rfl
@[simp] theorem State.hwRecvBuf_withHwAddr (a : BusAddr) : (State.withHwAddr a s).hwRecvBuf = s.hwRecvBuf := rfl
@[simp] theorem State.hwRecvLen_withHwAddr (a : BusAddr) : (State.withHwAddr a s).hwRecvLen = s.hwRecvLen := rfl
@[simp] theorem State.hwCbSet_withHwAddr (a : BusAddr) : (State.withHwAddr a s).hwCbSet = s.hwCbSet := rfl
@[simp] theorem State.rxCnt_withHwAddr (a : BusAddr) : (State.withHwAddr a s).rxCnt = s.rxCnt := rfl
@[simp] theorem State.txCnt_withHwAddr (a : BusAddr) : (State.withHwAddr a s).txCnt = s.txCnt := rfl
@[simp] theorem State.rxOver_withHwAddr (a : BusAddr) : (State.withHwAddr a s).rxOver = s.rxOver := rfl
@[simp] theorem State.prevConnected_withHwAddr (a : BusAddr) : (State.withHwAddr a s).prevConnected = s.prevConnected := rfl
@[simp] theorem State.mcMode_withHwAddr (a : BusAddr) : (State.withHwAddr a s).mcMode = s.mcMode := rfl
@[simp] theorem State.mcOc_withHwAddr (a : BusAddr) : (State.withHwAddr a s).mcOc = s.mcOc := rfl
@[simp] theorem State.ptRemaining_withHwAddr (a : BusAddr) : (State.withHwAddr a s).ptRemaining = s.ptRemaining := rfl
@[simp] theorem State.ptRunning_withHwAddr (a : BusAddr) : (State.withHwAddr a s).ptRunning = s.ptRunning := rfl
@[simp] theorem State.panic_withHwAddr (a : BusAddr) : (State.withHwAddr a s).panic = s.panic := rfl
@[simp] theorem State.inbox_withHwAddr (a : BusAddr) : (State.withHwAddr a s).inbox = s.inbox := rfl
@[simp] theorem State.rebind_withHwAddr (a : BusAddr) : (State.withHwAddr a s).rebind = s.rebind := rfl
@[simp] theorem State.preempt_withHwAddr (a : BusAddr) : (State.withHwAddr a s).preempt = s.preempt := rfl
@[simp] theorem State.allocFail_withHwAddr (a : BusAddr) : (State.withHwAddr a s).allocFail = s.allocFail := rfl
@[simp] theorem State.draws_withHwAddr (a : BusAddr) : (State.withHwAddr a s).draws = s.draws := rfl
@[simp] theorem State.out_withHwAddr (a : BusAddr) : (State.withHwAddr a s).out = s.out := rfl

end Sys2Proof.Machine
end

