-- ==== Sys2Proof/Laws/Ops.lean ====
section
/-! SUPPORT. What each shared operation can do, said once: sequencing, panics, hooks, the points where
interrupt steps fall, the steps of the main context; and what they keep. -/

namespace Sys2Proof.Machine

/-! ## Panics and preconditions -/

/-- Taking a panic is a next state in which only `panic` differs (R240). -/
theorem raise_eq (c : PanicCause) (s : State) : raise c s = .next (s.panicked c) := rfl

@[simp] theorem raise_eq_next_iff (c : PanicCause) (s t : State) :
    raise c s = .next t ↔ t = s.panicked c := by
  simp [raise, eq_comm]

theorem whenLive_of_panic {s : State} {c : PanicCause} (h : s.panic = some c) (f : State → Result) :
    whenLive s f = .fault (.halted c) := by
  simp [whenLive, h]

theorem whenLive_of_live {s : State} (h : s.panic = none) (f : State → Result) :
    whenLive s f = f s.clearOut := by
  simp [whenLive, h]

/-- If an operation under the precondition answers a next state, the block was not panicked (R240). -/
theorem whenLive_eq_next_iff {s t : State} {f : State → Result} :
    whenLive s f = .next t ↔ s.panic = none ∧ f s.clearOut = .next t := by
  cases h : s.panic <;> simp [whenLive, h]

/-! ## Sequencing -/

@[simp] theorem andThen_fault (r : Fault) (f : State → Result) : andThen (.fault r) f = .fault r := rfl

@[simp] theorem andThen_refused (r : Refusal) (f : State → Result) :
    andThen (.refused r) f = .refused r := rfl

theorem andThen_of_live {s : State} (h : s.panic = none) (f : State → Result) :
    andThen (.next s) f = f s := by
  simp [andThen, h]

theorem andThen_of_panic {s : State} (h : s.panic ≠ none) (f : State → Result) :
    andThen (.next s) f = .next s := by
  cases hp : s.panic with
  | none => exact absurd hp h
  | some c => simp [andThen, hp]

@[simp] theorem andThen_raise (c : PanicCause) (s : State) (f : State → Result) :
    andThen (raise c s) f = raise c s := rfl

/-- Two operations in sequence answer a next state when the first ended in a panic, or when it did not and
the second answered (R240). -/
theorem andThen_eq_next_iff {o : Result} {f : State → Result} {t : State} :
    andThen o f = .next t ↔
      ∃ s, o = .next s ∧ ((s.panic ≠ none ∧ t = s) ∨ (s.panic = none ∧ f s = .next t)) := by
  cases o with
  | next s => cases h : s.panic <;> simp [andThen, h, eq_comm]
  | fault r => simp
  | refused r => simp

theorem andThen_next_congr {o o' : Result} {f g : State → Result} (ho : o = o')
    (hf : ∀ s, o = .next s → s.panic = none → f s = g s) : andThen o f = andThen o' g := by
  subst ho
  cases o with
  | next s =>
    cases h : s.panic with
    | none => simp [andThen, h, hf s rfl h]
    | some c => simp [andThen, h]
  | fault r => rfl
  | refused r => rfl

theorem andThen_assoc (o : Result) (f g : State → Result) :
    andThen (andThen o f) g = andThen o fun s => andThen (f s) g := by
  cases o with
  | next s => cases h : s.panic <;> simp [andThen, h]
  | fault r => rfl
  | refused r => rfl

/-! ## Main context -/

theorem preemptionPoint_of_quiet {s : State} (h : s.preempt = []) : preemptionPoint s = .next s := by
  simp [preemptionPoint, h]

/-- With no interrupt step due, the main context just goes on. -/
theorem andThenMain_of_quiet {s : State} (hp : s.panic = none) (h : s.preempt = [])
    (f : State → Result) : andThenMain (.next s) f = f s := by
  simp [andThenMain, andThen_of_live hp, preemptionPoint_of_quiet h]

@[simp] theorem andThenMain_raise (c : PanicCause) (s : State) (f : State → Result) :
    andThenMain (raise c s) f = raise c s := rfl

@[simp] theorem andThenMain_fault (r : Fault) (f : State → Result) :
    andThenMain (.fault r) f = .fault r := rfl

@[simp] theorem andThenMain_refused (r : Refusal) (f : State → Result) :
    andThenMain (.refused r) f = .refused r := rfl

theorem andThenMain_of_panic {s : State} (h : s.panic ≠ none) (f : State → Result) :
    andThenMain (.next s) f = .next s := by
  simp [andThenMain, andThen_of_panic h]

@[simp] theorem mainSteps_nil (s : State) : mainSteps [] s = .next s := rfl

@[simp] theorem mainSteps_one (f : State → Result) (s : State) : mainSteps [f] s = f s := rfl

theorem mainSteps_cons_cons (f g : State → Result) (fs : List (State → Result)) (s : State) :
    mainSteps (f :: g :: fs) s = andThenMain (f s) (mainSteps (g :: fs)) := rfl

/-! ## Hooks -/

theorem fireHook_of_safe {s : State} {kind : HookKind} (h : hookSafe s.cfg kind) (pos len : Nat) :
    fireHook kind pos len s = .next { s with out := s.out ++ hookCalls s.cfg kind pos len } := by
  cases hh : s.cfg.hasHook <;> cases hn : hookNull s.cfg kind <;>
    simp_all [fireHook, hookSafe, hookCalls, State.emit]

theorem managerHook_of_safe {s : State} {kind : HookKind} (h : managerHookSafe s.cfg kind)
    (pos len : Nat) :
    managerHook kind pos len s = .next { s with out := s.out ++ managerCalls s.cfg kind pos len } := by
  cases hm : s.cfg.hookOnManager with
  | false => simp [managerHook, managerCalls, hm]
  | true =>
    have h' : hookSafe s.cfg kind := by simpa [managerHookSafe, hm] using h
    simp [managerHook, managerCalls, hm, fireHook_of_safe h']

/-- An invoked null hook panics (R118). -/
theorem fireHook_of_null {s : State} {kind : HookKind} (h : s.cfg.hasHook = true)
    (hn : hookNull s.cfg kind = true) (pos len : Nat) : fireHook kind pos len s = raise .nullCallback s := by
  simp [fireHook, h, hn]

/-- A hook only puts something out, or panics when it is a null pointer (R118). -/
theorem fireHook_cases (kind : HookKind) (pos len : Nat) (s : State) :
    fireHook kind pos len s = .next s ∨ fireHook kind pos len s = .next (s.emit (.hook kind pos len)) ∨
      fireHook kind pos len s = raise .nullCallback s := by
  unfold fireHook
  split
  · split
    · exact Or.inr (Or.inr rfl)
    · exact Or.inr (Or.inl rfl)
  · exact Or.inl rfl

theorem managerHook_cases (kind : HookKind) (pos len : Nat) (s : State) :
    managerHook kind pos len s = .next s ∨
      managerHook kind pos len s = .next (s.emit (.hook kind pos len)) ∨
      managerHook kind pos len s = raise .nullCallback s := by
  unfold managerHook
  split
  · exact fireHook_cases kind pos len s
  · exact Or.inl rfl

/-! ## What sequencing keeps

`Keeps P f`: whenever `f` answers a next state from a state with `P`, that state has `P` too. -/

/-- `f` keeps `P`. -/
def Keeps (P : State → Prop) (f : State → Result) : Prop := ∀ s t, P s → f s = .next t → P t

theorem Keeps.next {P : State → Prop} {u : State → State} (h : ∀ s, P s → P (u s)) :
    Keeps P fun s => .next (u s) := by
  rintro s t hs ⟨⟩
  exact h s hs

theorem Keeps.raise {P : State → Prop} {c : PanicCause} (h : ∀ s, P s → P (s.panicked c)) :
    Keeps P (Sys2Proof.Machine.raise c) := Keeps.next h

theorem Keeps.andThen {P : State → Prop} {f g : State → Result} (hf : Keeps P f) (hg : Keeps P g) :
    Keeps P fun s => Sys2Proof.Machine.andThen (f s) g := by
  intro s t hs h
  obtain ⟨u, hu, ⟨-, rfl⟩ | ⟨-, ht⟩⟩ := andThen_eq_next_iff.mp h
  · exact hf s _ hs hu
  · exact hg u t (hf s u hs hu) ht

theorem Keeps.ite {P : State → Prop} {c : State → Prop} [DecidablePred c] {f g : State → Result}
    (hf : Keeps P f) (hg : Keeps P g) : Keeps P fun s => if c s then f s else g s := by
  intro s t hs h
  by_cases hc : c s
  · exact hf s t hs (by simpa [hc] using h)
  · exact hg s t hs (by simpa [hc] using h)

theorem Keeps.deliver {P : State → Prop} (h : ∀ e, Keeps P (interruptStep e)) :
    ∀ es, Keeps P (Sys2Proof.Machine.deliver es)
  | [] => Keeps.next fun _ hs => hs
  | e :: es => Keeps.andThen (h e) (Keeps.deliver h es)

/-- A property that every interrupt step keeps, and that does not speak of the arrivals still to come,
holds after a point between two atomic steps. -/
theorem Keeps.preemptionPoint {P : State → Prop} (h : ∀ e, Keeps P (interruptStep e))
    (hp : ∀ s later, P s → P { s with preempt := later }) :
    Keeps P Sys2Proof.Machine.preemptionPoint := by
  intro s t hs ht
  unfold Sys2Proof.Machine.preemptionPoint at ht
  split at ht
  · cases ht
    exact hs
  · exact Keeps.deliver h _ _ t (hp s _ hs) ht

theorem Keeps.andThenMain {P : State → Prop} {f g : State → Result}
    (hm : Keeps P Sys2Proof.Machine.preemptionPoint) (hf : Keeps P f) (hg : Keeps P g) :
    Keeps P fun s => Sys2Proof.Machine.andThenMain (f s) g :=
  Keeps.andThen (Keeps.andThen hf hm) hg

theorem Keeps.mainSteps {P : State → Prop} (hm : Keeps P Sys2Proof.Machine.preemptionPoint) :
    ∀ fs : List (State → Result), (∀ f ∈ fs, Keeps P f) → Keeps P (Sys2Proof.Machine.mainSteps fs)
  | [], _ => Keeps.next fun _ hs => hs
  | [f], h => h f (by simp)
  | f :: g :: fs, h =>
    Keeps.andThenMain hm (h f (by simp)) (Keeps.mainSteps hm (g :: fs) fun x hx => h x (by simp_all))

theorem Keeps.whenLive {P : State → Prop} {f : State → Result} (hc : ∀ s, P s → P s.clearOut)
    (hf : Keeps P f) : Keeps P fun s => Sys2Proof.Machine.whenLive s f := by
  intro s t hs h
  exact hf _ t (hc s hs) (whenLive_eq_next_iff.mp h).2

end Sys2Proof.Machine
end

