-- ==== Sys2Proof/Laws/Good.lean ====
section
/-! SUPPORT. What the conditions of Safety.lean say, each as a proposition. -/

namespace Sys2Proof.Machine

theorem Config.wf_iff (c : Config) :
    c.wf = true ↔ c.rbLen.toNat ≤ c.lMax.toNat ∧ c.lMax.toNat + c.h ≤ lenMax ∧
      (c.hasModule = true → c.rbPresent = true → 14 ≤ c.rbLen.toNat) ∧ c.ocMask &&& 0x03#8 = 0x00#8 ∧
      c.resetBit.toNat ≤ 7 := by
  simp only [Config.wf, Bool.and_eq_true, decide_eq_true_eq, Bool.or_eq_true, Bool.not_eq_true',
    Bool.and_eq_false_iff]
  constructor
  · rintro ⟨⟨⟨⟨h1, h2⟩, h3⟩, h4⟩, h5⟩
    refine ⟨h1, h2, fun a b => ?_, h4, h5⟩
    simpa [a, b] using h3
  · rintro ⟨h1, h2, h3, h4, h5⟩
    refine ⟨⟨⟨⟨h1, h2⟩, ?_⟩, h4⟩, h5⟩
    cases a : c.hasModule <;> cases b : c.rbPresent <;> simp_all

/-- The header in place, byte by byte (R162). -/
theorem State.headerInPlace_iff (s : State) :
    s.headerInPlace = true ↔
      ∀ x, x < s.cfg.h → x < s.sbLen.toNat → Memory.byte s.sb x = s.cfg.fhdr.getD x 0x00 := by
  have hh : s.cfg.h = s.cfg.fhdr.length := rfl
  rw [State.headerInPlace, decide_eq_true_eq]
  constructor
  · intro h x hx hx'
    have h1 := Memory.getElem?_bytes s.sb 0 (min s.cfg.h s.sbLen.toNat) x (by omega)
    rw [h, Nat.zero_add, List.getElem?_take_of_lt hx'] at h1
    simp [List.getD, h1]
  · intro h
    apply List.ext_getElem?
    intro x
    by_cases hx : x < min s.cfg.h s.sbLen.toNat
    · rw [Memory.getElem?_bytes _ _ _ _ hx, Nat.zero_add, List.getElem?_take_of_lt (by omega),
        h x (by omega) (by omega)]
      simp [show x < s.cfg.fhdr.length by omega]
    · rw [List.getElem?_eq_none (by rw [Memory.length_bytes]; omega),
        List.getElem?_eq_none (by rw [List.length_take]; omega)]

/-- What the invariant says (R9, R36, R38, R162). -/
theorem State.wf_iff (s : State) :
    s.wf = true ↔ Memory.spans s.rb s.rbLen.toNat = true ∧ Memory.spans s.sb s.sbLen.toNat = true ∧
      Memory.spans s.rxb s.rxbLen.toNat = true ∧ s.rbLen.toNat ≤ s.cfg.lMax.toNat ∧
      s.headerInPlace = true ∧ s.cfg.wf = true := by
  simp only [State.wf, Bool.and_eq_true, decide_eq_true_eq, and_assoc]

theorem State.quiet_iff (s : State) : s.quiet = true ↔ s.panic = none ∧ s.preempt = [] := by
  simp only [State.quiet, Bool.and_eq_true, decide_eq_true_eq]

theorem State.rbUsable_iff (s : State) :
    s.rbUsable = true ↔ s.rbPresent = true ∧ 0 < s.rbLen.toNat := by
  simp only [State.rbUsable, Bool.and_eq_true, decide_eq_true_eq, ne_eq, ← BitVec.toNat_inj,
    Nat.pos_iff_ne_zero]
  rfl

theorem State.inBounds_iff (s : State) (pos len : Nat) :
    s.inBounds pos len = true ↔
      s.rbPresent = true ∧ pos < s.rbLen.toNat ∧ pos + len ≤ s.rbLen.toNat := by
  simp only [State.inBounds, Bool.and_eq_true, decide_eq_true_eq, and_assoc]

theorem State.canAllocate_iff (s : State) :
    s.canAllocate = true ↔ s.allocFail = [] ∧ s.rbLen.toNat + s.cfg.h ≤ lenMax ∧
      s.rbLen.toNat + s.cfg.h ≤ s.cfg.capTx ∧ s.rbLen.toNat + 1 ≤ lenMax ∧
      s.rbLen.toNat + 1 ≤ s.cfg.capRx := by
  simp only [State.canAllocate, Bool.and_eq_true, decide_eq_true_eq, and_assoc]

theorem State.canRefresh_iff (s : State) :
    s.canRefresh = true ↔
      s.lastAddr.toNat < s.rbLen.toNat ∧ managerHookSafe s.cfg .read = true := by
  simp only [State.canRefresh, Bool.and_eq_true, decide_eq_true_eq]

theorem State.updateReady_iff (s : State) :
    s.updateReady = true ↔ s.panic = none ∧ s.preempt = [] ∧
      (s.rbUsable = true → s.canAllocate = true ∧ (s.hwCommunicating = false → s.canRefresh = true)) := by
  rw [State.updateReady, Bool.and_eq_true, State.quiet_iff]
  cases s.rbUsable <;> cases s.canAllocate <;> cases s.hwCommunicating <;> cases s.canRefresh <;>
    simp

theorem State.staged_iff (s : State) :
    s.staged = true ↔ s.sbLen.toNat = s.rbLen.toNat + s.cfg.h ∧ s.rxbLen.toNat = s.rbLen.toNat + 1 ∧
      s.hwSendLen = s.sbLen ∧ s.hwRecvLen = s.rxbLen := by
  simp only [State.staged, Bool.and_eq_true, decide_eq_true_eq, and_assoc]

theorem State.booted_iff (s : State) :
    s.booted = true ↔ s.panic = none ∧ s.hwCbSet = true ∧ s.rbUsable = true ∧ s.staged = true ∧
      s.canRefresh = true ∧ managerHookSafe s.cfg .write = true := by
  simp only [State.booted, Bool.and_eq_true, decide_eq_true_eq, and_assoc]

theorem State.moduleReady_iff (s : State) :
    s.moduleReady = true ↔ s.updateReady = true ∧ s.rbPresent = true ∧ 13 ≤ s.rbLen.toNat ∧
      hookSafe s.cfg .write = true := by
  simp only [State.moduleReady, Bool.and_eq_true, decide_eq_true_eq, and_assoc]

theorem State.motorReady_iff (s : State) :
    s.motorReady = true ↔
      s.moduleReady = true ∧ s.cfg.constants = some [] ∧ 14 ≤ s.rbLen.toNat ∧ s.cfg.resetBit.toNat ≤ 7 := by
  simp only [State.motorReady, Bool.and_eq_true, decide_eq_true_eq, and_assoc]

theorem State.receiving_iff (s : State) :
    s.receiving = true ↔ s.hwCommunicating = true ∧ s.hwDir = .write := by
  simp only [State.receiving, Bool.and_eq_true, decide_eq_true_eq]

theorem State.sending_iff (s : State) :
    s.sending = true ↔ s.hwCommunicating = true ∧ s.hwDir = .read := by
  simp only [State.sending, Bool.and_eq_true, decide_eq_true_eq]

theorem managerHookSafe_of_hookSafe {c : Config} {kind : HookKind} (h : hookSafe c kind = true) :
    managerHookSafe c kind = true := by
  simp [managerHookSafe, h]

end Sys2Proof.Machine
end

