-- ==== Sys2Proof/Laws/Buffers.lean ====
section
/-! SUPPORT. What each shared operation may do to the three byte spaces, said once for every property of
them. `RbInv`, `HostInv` and `BufferInv` collect the changes that the Register Buffer operations, the host's
calls and the whole block can make while a Register Buffer of length `n` is bound; every shared operation
keeps a `P` that its changes keep. -/

namespace Sys2Proof.Machine

/-- `P` says that the Register Buffer has length `n`, speaks of the configuration, the spaces and their
lengths, `last_addr` and the arrivals to come only, and is kept by a byte write inside RB and by the points
between two atomic steps of the main context. -/
structure RbInv (n : Nat) (P : State → Prop) : Prop where
  rbLen_eq : ∀ s, P s → s.rbLen.toNat = n
  congr : ∀ s t, P s → t.cfg = s.cfg → t.rbLen = s.rbLen → t.rb = s.rb → t.sbLen = s.sbLen →
    t.sb = s.sb → t.rxbLen = s.rxbLen → t.rxb = s.rxb → t.lastAddr = s.lastAddr →
    t.preempt = s.preempt → P t
  storeRb : ∀ s a v, P s → a < n → P (s.storeRb a v)
  preemptionPoint : Keeps P Sys2Proof.Machine.preemptionPoint

/-- `P` is also kept by a refresh and by the resizes. -/
structure HostInv (n : Nat) (P : State → Prop) : Prop extends RbInv n P where
  storeSb : ∀ s v, P s → s.sbLen.toNat = n + s.cfg.h → v.length = n → P (s.storeSbList s.cfg.h v)
  resizeSend : ∀ s k m, P s → s.cfg.h ≤ m → m ≤ lenMax →
    P { s with sbLen := BitVec.ofNat 16 m, sb := resizedSend s.cfg.fhdr k m }
  cutSend : ∀ s m, P s → m < s.cfg.h → m ≤ lenMax →
    P { s with sbLen := BitVec.ofNat 16 m, sb := cutSend s.cfg.fhdr m }
  resizeRecv : ∀ s k m, P s → m ≤ lenMax →
    P { s with rxbLen := BitVec.ofNat 16 m, rxb := resizedRecv k m }

/-- `P` speaks of the configuration, the spaces and their lengths only, says that the Register Buffer has
length `n`, and is kept by each change the block can make to them. -/
structure BufferInv (n : Nat) (P : State → Prop) : Prop where
  rbLen_eq : ∀ s, P s → s.rbLen.toNat = n
  congr : ∀ s t, P s → t.cfg = s.cfg → t.rbLen = s.rbLen → t.rb = s.rb → t.sbLen = s.sbLen →
    t.sb = s.sb → t.rxbLen = s.rxbLen → t.rxb = s.rxb → P t
  storeRb : ∀ s a v, P s → a < n → P (s.storeRb a v)
  storeSb : ∀ s v, P s → s.sbLen.toNat = n + s.cfg.h → v.length = n → P (s.storeSbList s.cfg.h v)
  storeRxb : ∀ s a v, P s → (Memory.read s.rxb a).isSome = true →
    P { s with rxb := Memory.write s.rxb a v }
  resizeSend : ∀ s k m, P s → s.cfg.h ≤ m → m ≤ lenMax →
    P { s with sbLen := BitVec.ofNat 16 m, sb := resizedSend s.cfg.fhdr k m }
  cutSend : ∀ s m, P s → m < s.cfg.h → m ≤ lenMax →
    P { s with sbLen := BitVec.ofNat 16 m, sb := cutSend s.cfg.fhdr m }
  resizeRecv : ∀ s k m, P s → m ≤ lenMax →
    P { s with rxbLen := BitVec.ofNat 16 m, rxb := resizedRecv k m }

/-- Where nothing arrives, the points between atomic steps change nothing. -/
theorem Keeps.preemptionPoint_of_quiet {P : State → Prop} (h : ∀ s, P s → s.preempt = []) :
    Keeps P Sys2Proof.Machine.preemptionPoint := by
  intro s t hs ht
  rw [Sys2Proof.Machine.preemptionPoint_of_quiet (h s hs)] at ht
  cases ht
  exact hs

/-- An operation that answers a state in which none of the fields `P` speaks of differs keeps `P`. -/
theorem RbInv.next {n : Nat} {P : State → Prop} (h : RbInv n P) {u : State → State}
    (h1 : ∀ s, (u s).cfg = s.cfg := by intros; rfl) (h2 : ∀ s, (u s).rbLen = s.rbLen := by intros; rfl)
    (h3 : ∀ s, (u s).rb = s.rb := by intros; rfl) (h4 : ∀ s, (u s).sbLen = s.sbLen := by intros; rfl)
    (h5 : ∀ s, (u s).sb = s.sb := by intros; rfl) (h6 : ∀ s, (u s).rxbLen = s.rxbLen := by intros; rfl)
    (h7 : ∀ s, (u s).rxb = s.rxb := by intros; rfl)
    (h8 : ∀ s, (u s).lastAddr = s.lastAddr := by intros; rfl)
    (h9 : ∀ s, (u s).preempt = s.preempt := by intros; rfl) : Keeps P fun s => .next (u s) :=
  Keeps.next fun s hs => h.congr s _ hs (h1 s) (h2 s) (h3 s) (h4 s) (h5 s) (h6 s) (h7 s) (h8 s) (h9 s)

/-- The same, of the fields a `BufferInv` speaks of. -/
theorem BufferInv.next {n : Nat} {P : State → Prop} (h : BufferInv n P) {u : State → State}
    (h1 : ∀ s, (u s).cfg = s.cfg := by intros; rfl) (h2 : ∀ s, (u s).rbLen = s.rbLen := by intros; rfl)
    (h3 : ∀ s, (u s).rb = s.rb := by intros; rfl) (h4 : ∀ s, (u s).sbLen = s.sbLen := by intros; rfl)
    (h5 : ∀ s, (u s).sb = s.sb := by intros; rfl) (h6 : ∀ s, (u s).rxbLen = s.rxbLen := by intros; rfl)
    (h7 : ∀ s, (u s).rxb = s.rxb := by intros; rfl) : Keeps P fun s => .next (u s) :=
  Keeps.next fun s hs => h.congr s _ hs (h1 s) (h2 s) (h3 s) (h4 s) (h5 s) (h6 s) (h7 s)

theorem RbInv.raise {n : Nat} {P : State → Prop} (h : RbInv n P) (c : PanicCause) :
    Keeps P (Sys2Proof.Machine.raise c) := h.next

theorem BufferInv.raise {n : Nat} {P : State → Prop} (h : BufferInv n P) (c : PanicCause) :
    Keeps P (Sys2Proof.Machine.raise c) := h.next

theorem BufferInv.storeRbList {n : Nat} {P : State → Prop} (h : BufferInv n P) :
    ∀ (v : List Byte) (s : State) (a : Nat), P s → a + v.length ≤ n → P (s.storeRbList a v)
  | [], s, _, hs, _ => h.congr s _ hs rfl rfl rfl rfl rfl rfl rfl
  | b :: v, s, a, hs, ha => by
    simp only [List.length_cons] at ha
    exact h.storeRbList v (s.storeRb a b) (a + 1) (h.storeRb s a b hs (by omega)) (by omega)

theorem RbInv.fireHook {n : Nat} {P : State → Prop} (h : RbInv n P) (kind : HookKind)
    (pos len : Nat) : Keeps P (Sys2Proof.Machine.fireHook kind pos len) := by
  intro s t hs ht
  rcases fireHook_cases kind pos len s with he | he | he
  · exact (h.next (u := fun s => s)) s t hs (by rw [← ht, he])
  · exact (h.next (u := fun s => s.emit (.hook kind pos len))) s t hs (by rw [← ht, he])
  · exact h.raise _ s t hs (he ▸ ht)

theorem RbInv.managerHook {n : Nat} {P : State → Prop} (h : RbInv n P) (kind : HookKind)
    (pos len : Nat) : Keeps P (Sys2Proof.Machine.managerHook kind pos len) := by
  intro s t hs ht
  unfold Sys2Proof.Machine.managerHook at ht
  split at ht
  · exact h.fireHook kind pos len s t hs ht
  · cases ht
    exact hs

theorem BufferInv.fireHook {n : Nat} {P : State → Prop} (h : BufferInv n P) (kind : HookKind)
    (pos len : Nat) : Keeps P (Sys2Proof.Machine.fireHook kind pos len) := by
  intro s t hs ht
  rcases fireHook_cases kind pos len s with he | he | he
  · exact (h.next (u := fun s => s)) s t hs (by rw [← ht, he])
  · exact (h.next (u := fun s => s.emit (.hook kind pos len))) s t hs (by rw [← ht, he])
  · exact h.raise _ s t hs (he ▸ ht)

theorem BufferInv.managerHook {n : Nat} {P : State → Prop} (h : BufferInv n P) (kind : HookKind)
    (pos len : Nat) : Keeps P (Sys2Proof.Machine.managerHook kind pos len) := by
  intro s t hs ht
  unfold Sys2Proof.Machine.managerHook at ht
  split at ht
  · exact h.fireHook kind pos len s t hs ht
  · cases ht
    exact hs

/-! ## Lengths of free bytes -/

@[simp] theorem length_freeBytes (k start n : Nat) : (freeBytes k start n).length = n := by
  simp [freeBytes]

theorem getElem?_freeBytes (k start n i : Nat) :
    (freeBytes k start n)[i]? = if i < n then some (Config.freeByte k (start + i)) else none := by
  by_cases h : i < n <;> simp [freeBytes, h]

/-- `SB` after a resize lists exactly its offsets: the frame header, then free bytes (R162). -/
theorem spans_resizedSend (fhdr : List Byte) (k m : Nat) (h : fhdr.length ≤ m) :
    Memory.spans (resizedSend fhdr k m) m = true := by
  have := Memory.spans_ofBytes (fhdr ++ freeBytes k fhdr.length (m - fhdr.length))
  rwa [List.length_append, length_freeBytes, Nat.add_sub_cancel' h] at this

theorem read_cutSend (fhdr : List Byte) (m x : Nat) :
    Memory.read (cutSend fhdr m) x = if x < m then fhdr[x]? else none := by
  rw [cutSend, Memory.read_ofBytes, List.getElem?_take]

/-- `SB` after the stopped `resize_send` lists exactly its offsets (R162). -/
theorem spans_cutSend {fhdr : List Byte} {m : Nat} (h : m ≤ fhdr.length) :
    Memory.spans (cutSend fhdr m) m = true := by
  have := Memory.spans_ofBytes (fhdr.take m)
  rwa [List.length_take, Nat.min_eq_left h] at this

theorem read_resizedSend (fhdr : List Byte) (k m x : Nat) :
    Memory.read (resizedSend fhdr k m) x =
      if x < fhdr.length then fhdr[x]?
      else if x < m then some (Config.freeByte k x) else none := by
  rw [resizedSend, Memory.read_ofBytes]
  by_cases h : x < fhdr.length
  · rw [List.getElem?_append_left h, if_pos h]
  · rw [List.getElem?_append_right (by omega), if_neg h, getElem?_freeBytes]
    by_cases h2 : x < m
    · rw [if_pos h2, if_pos (by omega), show fhdr.length + (x - fhdr.length) = x by omega]
    · rw [if_neg h2, if_neg (by omega)]

theorem spans_resizedRecv (k m : Nat) : Memory.spans (resizedRecv k m) m = true := by
  have := Memory.spans_ofBytes (freeBytes k 0 m)
  rwa [length_freeBytes] at this

theorem read_resizedRecv (k m x : Nat) :
    Memory.read (resizedRecv k m) x = if x < m then some (Config.freeByte k x) else none := by
  simp [resizedRecv, Memory.read_ofBytes, getElem?_freeBytes]

/-! ## Staging -/

/-- What `refresh` can do (R163): panic with nothing changed, or rewrite the data region of a send buffer of
the right length. -/
theorem refresh_cases (s : State) :
    ((s.sbLen.toNat ≠ s.rbLen.toNat + s.cfg.h ∨
        s.inBounds s.lastAddr.toNat (s.rbLen.toNat - s.lastAddr.toNat) = false) ∧
      refresh s = raise .outOfBounds s) ∨
    (s.sbLen.toNat = s.rbLen.toNat + s.cfg.h ∧ s.rbPresent = true ∧
      s.lastAddr.toNat < s.rbLen.toNat ∧
      refresh s = managerHook .read s.lastAddr.toNat (s.rbLen.toNat - s.lastAddr.toNat)
        (s.storeSbList s.cfg.h s.refreshData)) := by
  unfold refresh
  split
  · rename_i h
    exact Or.inl ⟨Or.inl h, rfl⟩
  · rename_i h
    split
    · rename_i h2
      exact Or.inl ⟨Or.inr (by simpa using h2), rfl⟩
    · rename_i h2
      have h3 : s.inBounds s.lastAddr.toNat (s.rbLen.toNat - s.lastAddr.toNat) = true := by simpa using h2
      simp only [State.inBounds, Bool.and_eq_true, decide_eq_true_eq] at h3
      exact Or.inr ⟨by simpa using h, h3.1.1, h3.1.2, rfl⟩

theorem length_refreshData (s : State) (h : s.lastAddr.toNat ≤ s.rbLen.toNat) :
    s.refreshData.length = s.rbLen.toNat := by
  simp [State.refreshData]
  omega

theorem HostInv.refresh {n : Nat} {P : State → Prop} (h : HostInv n P) :
    Keeps P Sys2Proof.Machine.refresh := by
  intro s t hs ht
  have hn := h.toRbInv.rbLen_eq s hs
  rcases refresh_cases s with ⟨-, he⟩ | ⟨hl, -, ha, he⟩
  · exact h.toRbInv.raise _ s t hs (he ▸ ht)
  · refine h.toRbInv.managerHook _ _ _ _ t (h.storeSb s _ hs (by omega) ?_) (he ▸ ht)
    rw [length_refreshData s (by omega), hn]

theorem HostInv.resizeSendOp {n : Nat} {P : State → Prop} (h : HostInv n P) (m : Nat) :
    Keeps P (Sys2Proof.Machine.resizeSend m) := by
  intro s t hs ht
  unfold Sys2Proof.Machine.resizeSend at ht
  split at ht
  · exact h.toRbInv.raise _ _ t (by exact h.toRbInv.congr s _ hs rfl rfl rfl rfl rfl rfl rfl rfl rfl) ht
  · rename_i hf
    simp only [State.resizeFails, Bool.or_eq_true, decide_eq_true_eq, not_or] at hf
    split at ht
    · rename_i hm
      refine h.toRbInv.raise _ _ t ?_ ht
      exact h.toRbInv.congr _ _ (h.cutSend s m hs hm (by omega)) rfl rfl rfl rfl rfl rfl rfl rfl rfl
    · rename_i hm
      cases ht
      exact h.toRbInv.congr _ _ (h.resizeSend s s.draws m hs (by omega) (by omega)) rfl rfl rfl rfl rfl rfl rfl rfl rfl

theorem HostInv.resizeRecvOp {n : Nat} {P : State → Prop} (h : HostInv n P) (m : Nat) :
    Keeps P (Sys2Proof.Machine.resizeRecv m) := by
  intro s t hs ht
  unfold Sys2Proof.Machine.resizeRecv at ht
  split at ht
  · exact h.toRbInv.raise _ _ t (by exact h.toRbInv.congr s _ hs rfl rfl rfl rfl rfl rfl rfl rfl rfl) ht
  · rename_i hf
    cases ht
    simp only [State.resizeFails, Bool.or_eq_true, decide_eq_true_eq, not_or] at hf
    exact h.toRbInv.congr _ _ (h.resizeRecv s s.draws m hs (by omega)) rfl rfl rfl rfl rfl rfl rfl rfl rfl

theorem BufferInv.refresh {n : Nat} {P : State → Prop} (h : BufferInv n P) :
    Keeps P Sys2Proof.Machine.refresh := by
  intro s t hs ht
  have hn := h.rbLen_eq s hs
  rcases refresh_cases s with ⟨-, he⟩ | ⟨hl, -, ha, he⟩
  · exact h.raise _ s t hs (he ▸ ht)
  · refine h.managerHook _ _ _ _ t (h.storeSb s _ hs (by omega) ?_) (he ▸ ht)
    rw [length_refreshData s (by omega), hn]

theorem length_frameData (s : State) (k : Nat) :
    (s.frameData k).length = min (s.rbLen.toNat - (s.frameAddr k).toNat) (k - 1) := by
  simp [State.frameData]

/-- What `received` can do (R166): with an in-range address, the address and the data stored, then the hook
and the refresh; else nothing but the cursor (U7). -/
theorem received_cases (k : Nat) (s : State) :
    (s.rbPresent = true ∧ (s.frameAddr k).toNat < s.rbLen.toNat ∧
      received k s = andThen (managerHook .write (s.frameAddr k).toNat (s.frameData k).length
        ({ s.cursorLost with lastAddr := s.frameAddr k }.storeRbList (s.frameAddr k).toNat
          (s.frameData k))) refresh) ∨
    (¬ (s.rbPresent = true ∧ (s.frameAddr k).toNat < s.rbLen.toNat) ∧
      received k s = .next s.cursorLost) := by
  by_cases h : s.rbPresent = true ∧ (s.frameAddr k).toNat < s.rbLen.toNat
  · refine Or.inl ⟨h.1, h.2, ?_⟩
    rw [received, if_pos (by simp [h.1, h.2])]
  · refine Or.inr ⟨h, ?_⟩
    rw [received, if_neg (by simpa using h)]

theorem BufferInv.received {n : Nat} {P : State → Prop} (h : BufferInv n P) (k : Nat) :
    Keeps P (Sys2Proof.Machine.received k) := by
  intro s t hs ht
  have hn := h.rbLen_eq s hs
  rcases received_cases k s with ⟨-, ha, he⟩ | ⟨-, he⟩
  · rw [he] at ht
    refine Keeps.andThen (h.managerHook _ _ _) h.refresh _ t ?_ ht
    refine h.storeRbList _ _ _ (h.congr s _ hs rfl rfl rfl rfl rfl rfl rfl) ?_
    rw [length_frameData]
    omega
  · rw [he] at ht
    cases ht
    exact h.congr s _ hs rfl rfl rfl rfl rfl rfl rfl

/-! ## Bus -/

theorem BufferInv.completeTransaction {n : Nat} {P : State → Prop} (h : BufferInv n P) :
    Keeps P Sys2Proof.Machine.completeTransaction := by
  intro s t hs ht
  unfold Sys2Proof.Machine.completeTransaction at ht
  simp only at ht
  split at ht
  · split at ht
    · cases ht
      exact h.congr s _ hs rfl rfl rfl rfl rfl rfl rfl
    · unfold receiveDone at ht
      simp only at ht
      split at ht
      · exact h.received _ _ t (by exact h.congr s _ hs rfl rfl rfl rfl rfl rfl rfl) ht
      · exact h.raise _ _ t (by exact h.congr s _ hs rfl rfl rfl rfl rfl rfl rfl) ht
  · unfold sendDone at ht
    simp only at ht
    split at ht
    · cases ht
      exact h.congr s _ hs rfl rfl rfl rfl rfl rfl rfl
    · exact h.raise _ _ t (by exact h.congr s _ hs rfl rfl rfl rfl rfl rfl rfl) ht

theorem BufferInv.busStart {n : Nat} {P : State → Prop} (h : BufferInv n P) (a7 : BusAddr) (rw : BusDir) :
    Keeps P (Sys2Proof.Machine.busStart a7 rw) := by
  refine Keeps.andThen (Keeps.ite h.completeTransaction (h.next (u := fun s => s))) ?_
  exact Keeps.ite (h.next (u := State.begun rw)) (h.next (u := fun s => s))

theorem BufferInv.busWbyte {n : Nat} {P : State → Prop} (h : BufferInv n P) (b : Byte) :
    Keeps P (Sys2Proof.Machine.busWbyte b) := by
  intro s t hs ht
  unfold Sys2Proof.Machine.busWbyte at ht
  split at ht
  · simp at ht
  · split at ht
    · rename_i hr
      cases ht
      exact h.congr _ _ (h.storeRxb s s.rxCnt.toNat b hs hr.2) rfl rfl rfl rfl rfl rfl rfl
    · cases ht
      exact h.congr s _ hs rfl rfl rfl rfl rfl rfl rfl

theorem BufferInv.busRbyte {n : Nat} {P : State → Prop} (h : BufferInv n P) :
    Keeps P Sys2Proof.Machine.busRbyte := by
  intro s t hs ht
  unfold Sys2Proof.Machine.busRbyte at ht
  repeat' split at ht
  all_goals first | (simp at ht; done) | skip
  all_goals
    cases ht
    exact h.congr s _ hs rfl rfl rfl rfl rfl rfl rfl

theorem BufferInv.busEnd {n : Nat} {P : State → Prop} (h : BufferInv n P) :
    Keeps P Sys2Proof.Machine.busEnd := by
  refine Keeps.ite h.completeTransaction ?_
  intro s t _ ht
  simp at ht

theorem BufferInv.busAbort {n : Nat} {P : State → Prop} (h : BufferInv n P) (kind : AbortKind) :
    Keeps P (Sys2Proof.Machine.busAbort kind) := by
  refine Keeps.ite h.next ?_
  intro s t _ ht
  simp at ht

/-- Every step of the interrupt context keeps what the changes of the spaces keep. -/
theorem BufferInv.interruptStep {n : Nat} {P : State → Prop} (h : BufferInv n P) (e : Interrupt) :
    Keeps P (Sys2Proof.Machine.interruptStep e) := by
  cases e with
  | start a7 rw => exact h.busStart a7 rw
  | wbyte b => exact h.busWbyte b
  | rbyte => exact h.busRbyte
  | stop => exact h.busEnd
  | abort kind => exact h.busAbort kind
  | tick => exact h.next (u := State.ticked)

theorem BufferInv.preemptionPoint {n : Nat} {P : State → Prop} (h : BufferInv n P) :
    Keeps P Sys2Proof.Machine.preemptionPoint :=
  Keeps.preemptionPoint h.interruptStep fun s _ hs => h.congr s _ hs rfl rfl rfl rfl rfl rfl rfl

/-- A property that each change of the spaces keeps is one that each change of the host keeps. -/
theorem BufferInv.toHostInv {n : Nat} {P : State → Prop} (h : BufferInv n P) : HostInv n P where
  rbLen_eq := h.rbLen_eq
  congr s t hs h1 h2 h3 h4 h5 h6 h7 _ _ := h.congr s t hs h1 h2 h3 h4 h5 h6 h7
  storeRb := h.storeRb
  preemptionPoint := h.preemptionPoint
  storeSb := h.storeSb
  resizeSend := h.resizeSend
  cutSend := h.cutSend
  resizeRecv := h.resizeRecv

theorem BufferInv.writeBytes {n : Nat} {P : State → Prop} (h : BufferInv n P) :
    ∀ bs, Keeps P (Sys2Proof.Machine.writeBytes bs)
  | [] => h.next (u := fun s => s)
  | b :: bs => Keeps.andThen (h.busWbyte b) (h.writeBytes bs)

theorem BufferInv.readBytes {n : Nat} {P : State → Prop} (h : BufferInv n P) :
    ∀ k, Keeps P (Sys2Proof.Machine.readBytes k)
  | 0 => h.next (u := fun s => s)
  | k + 1 => Keeps.andThen h.busRbyte (h.readBytes k)

theorem BufferInv.masterWrite {n : Nat} {P : State → Prop} (h : BufferInv n P) (a7 : BusAddr)
    (f : List Byte) : Keeps P (Sys2Proof.Machine.masterWrite a7 f) :=
  Keeps.andThen (h.busStart a7 .write)
    (Keeps.ite (Keeps.andThen (h.writeBytes f) h.busEnd) (h.next (u := fun s => s)))

theorem BufferInv.masterRead {n : Nat} {P : State → Prop} (h : BufferInv n P) (a7 : BusAddr) (k : Nat) :
    Keeps P (Sys2Proof.Machine.masterRead a7 k) :=
  Keeps.andThen (h.busStart a7 .read)
    (Keeps.ite (Keeps.andThen (h.readBytes k) h.busEnd) (h.next (u := fun s => s)))

/-! ## Main context -/

theorem RbInv.andThenMain {n : Nat} {P : State → Prop} (h : RbInv n P) {f g : State → Result}
    (hf : Keeps P f) (hg : Keeps P g) : Keeps P fun s => Sys2Proof.Machine.andThenMain (f s) g :=
  Keeps.andThenMain h.preemptionPoint hf hg

theorem RbInv.mainSteps {n : Nat} {P : State → Prop} (h : RbInv n P)
    (fs : List (State → Result)) (hf : ∀ f ∈ fs, Keeps P f) : Keeps P (Sys2Proof.Machine.mainSteps fs) :=
  Keeps.mainSteps h.preemptionPoint fs hf

/-! ## Register Buffer -/

theorem byteWrites_mem {pos : Nat} {v : List Byte} {f : State → Result} (hf : f ∈ byteWrites pos v) :
    ∃ a b, pos ≤ a ∧ a < pos + v.length ∧ f = fun s => .next (s.storeRb a b) := by
  induction v generalizing pos with
  | nil => simp [byteWrites] at hf
  | cons b v ih =>
    simp only [byteWrites, List.mem_cons] at hf
    rcases hf with rfl | hf
    · exact ⟨pos, b, le_refl _, by simp, rfl⟩
    · obtain ⟨a, b, h1, h2, rfl⟩ := ih hf
      exact ⟨a, b, by omega, by simp only [List.length_cons]; omega, rfl⟩

theorem RbInv.byteWrites {n : Nat} {P : State → Prop} (h : RbInv n P) {pos : Nat}
    {v : List Byte} (hl : pos + v.length ≤ n) :
    Keeps P (Sys2Proof.Machine.mainSteps (Sys2Proof.Machine.byteWrites pos v)) := by
  refine h.mainSteps _ fun f hf => ?_
  obtain ⟨a, b, -, h2, rfl⟩ := byteWrites_mem hf
  exact Keeps.next fun s hs => h.storeRb s a b hs (by omega)

theorem RbInv.rbWrite {n : Nat} {P : State → Prop} (h : RbInv n P) (pos len : Nat)
    (v : List Byte) : Keeps P (Sys2Proof.Machine.rbWrite pos len v) := by
  intro s t hs ht
  unfold Sys2Proof.Machine.rbWrite at ht
  split at ht
  · exact h.raise _ s t hs ht
  · rename_i hb
    have hn := h.rbLen_eq s hs
    simp only [State.inBounds, Bool.not_eq_true, Bool.not_eq_false', Bool.and_eq_true,
      decide_eq_true_eq] at hb
    refine Keeps.andThen (h.byteWrites ?_) (h.fireHook _ _ _) s t hs ht
    simp only [List.length_take]
    omega

theorem RbInv.byteReads {n : Nat} {P : State → Prop} (h : RbInv n P)
    {k : List Byte → State → Result} (hk : ∀ v, Keeps P (k v)) :
    ∀ (len pos : Nat) (acc : List Byte), Keeps P (Sys2Proof.Machine.byteReads pos len acc k)
  | 0, _, acc => hk acc
  | 1, pos, acc => fun s t hs ht => hk (acc ++ [Memory.byte s.rb pos]) s t hs ht
  | len + 2, pos, acc => fun s t hs ht =>
    h.andThenMain (h.next (u := fun s => s))
      (h.byteReads hk (len + 1) (pos + 1) (acc ++ [Memory.byte s.rb pos])) s t hs ht

theorem RbInv.rbRead {n : Nat} {P : State → Prop} (h : RbInv n P) (pos len : Nat)
    {k : List Byte → State → Result} (hk : ∀ v, Keeps P (k v)) :
    Keeps P (Sys2Proof.Machine.rbRead pos len k) := by
  intro s t hs ht
  unfold Sys2Proof.Machine.rbRead at ht
  split at ht
  · exact h.raise _ s t hs ht
  · exact h.byteReads (fun v => Keeps.andThen (h.fireHook _ _ _) (hk v)) _ _ _ s t hs ht

theorem RbInv.rbBitGet {n : Nat} {P : State → Prop} (h : RbInv n P) (pos : Nat) (b : Byte)
    {k : Bool → State → Result} (hk : ∀ v, Keeps P (k v)) :
    Keeps P (Sys2Proof.Machine.rbBitGet pos b k) := by
  intro s t hs ht
  unfold Sys2Proof.Machine.rbBitGet at ht
  split at ht
  · exact h.raise _ s t hs ht
  · split at ht
    · exact h.raise _ s t hs ht
    · exact hk _ s t hs ht

theorem RbInv.modifyByte {n : Nat} {P : State → Prop} (h : RbInv n P) {pos : Nat}
    (f : Byte → Byte) (hpos : pos < n) : Keeps P (Sys2Proof.Machine.modifyByte pos f) := by
  intro s t hs ht
  refine h.andThenMain (h.next (u := fun s => s)) ?_ s t hs ht
  exact fun s' t' hs' ht' => h.fireHook _ _ _ _ t' (h.storeRb s' _ _ hs' hpos) ht'

theorem RbInv.rbBitSet {n : Nat} {P : State → Prop} (h : RbInv n P) (pos : Nat) (b : Byte)
    (v : Bool) : Keeps P (Sys2Proof.Machine.rbBitSet pos b v) := by
  intro s t hs ht
  unfold Sys2Proof.Machine.rbBitSet at ht
  split at ht
  · exact h.raise _ s t hs ht
  · rename_i hb
    split at ht
    · exact h.raise _ s t hs ht
    · have hn := h.rbLen_eq s hs
      simp only [State.inBounds, Bool.not_eq_true, Bool.not_eq_false', Bool.and_eq_true,
        decide_eq_true_eq] at hb
      exact h.modifyByte _ (by omega) s t hs ht

theorem RbInv.rbMask {n : Nat} {P : State → Prop} (h : RbInv n P) (pos : Nat) (m v : Byte) :
    Keeps P (Sys2Proof.Machine.rbMask pos m v) := by
  intro s t hs ht
  unfold Sys2Proof.Machine.rbMask at ht
  split at ht
  · exact h.raise _ s t hs ht
  · rename_i hb
    have hn := h.rbLen_eq s hs
    simp only [State.inBounds, Bool.not_eq_true, Bool.not_eq_false', Bool.and_eq_true,
      decide_eq_true_eq] at hb
    exact h.modifyByte _ (by omega) s t hs ht

theorem RbInv.rbSeek {n : Nat} {P : State → Prop} (h : RbInv n P) (pos : Len) :
    Keeps P (Sys2Proof.Machine.rbSeek pos) := by
  intro s t hs ht
  unfold Sys2Proof.Machine.rbSeek at ht
  split at ht
  · cases ht
    exact h.congr s _ hs rfl rfl rfl rfl rfl rfl rfl rfl rfl
  · exact h.raise _ s t hs ht

theorem RbInv.rbFill {n : Nat} {P : State → Prop} (h : RbInv n P) (v : Byte) :
    Keeps P (Sys2Proof.Machine.rbFill v) := by
  intro s t hs ht
  have hn := h.rbLen_eq s hs
  unfold Sys2Proof.Machine.rbFill at ht
  split at ht
  · cases ht
    exact hs
  · split at ht
    · exact h.raise _ s t hs ht
    · exact h.byteWrites (by simp; omega) s t hs ht

theorem RbInv.advanceCursor {n : Nat} {P : State → Prop} (h : RbInv n P) (place : Place)
    (len : Nat) (s : State) (hs : P s) : P (s.advanceCursor place len) := by
  cases place with
  | offset pos => exact hs
  | cursor =>
    unfold State.advanceCursor
    simp only
    split
    · exact h.congr s _ hs rfl rfl rfl rfl rfl rfl rfl rfl rfl
    · exact h.congr s _ hs rfl rfl rfl rfl rfl rfl rfl rfl rfl

theorem RbInv.rbWriteAt {n : Nat} {P : State → Prop} (h : RbInv n P) (place : Place) (len : Nat)
    (v : List Byte) : Keeps P (Sys2Proof.Machine.rbWriteAt place len v) := fun s =>
  Keeps.andThen (fun s => h.rbWrite _ len v s) (Keeps.next fun s hs => h.advanceCursor place len s hs) s

theorem RbInv.rbTypedWrite {n : Nat} {P : State → Prop} (h : RbInv n P) (pos w value : Nat) :
    Keeps P (Sys2Proof.Machine.rbTypedWrite pos w value) := fun s => h.rbWrite _ _ _ s

/-! ## Manager, Module, MotorController -/

theorem HostInv.managerUpdate {n : Nat} {P : State → Prop} (h : HostInv n P) :
    Keeps P Sys2Proof.Machine.managerUpdate := by
  refine h.toRbInv.mainSteps _ fun f hf => ?_
  simp only [List.mem_cons, List.not_mem_nil, or_false] at hf
  rcases hf with rfl | rfl | rfl | rfl | rfl
  · exact Keeps.ite (h.toRbInv.next (u := fun s => { s.cursorLost.withHwAddr s.cursorLost.cfgAddr with
      cfgAddrDirty := false })) (h.toRbInv.next (u := State.cursorLost))
  · exact h.toRbInv.next
  · exact Keeps.ite (h.toRbInv.next (u := State.ltRestarted)) (h.toRbInv.next (u := fun s => s))
  · refine Keeps.ite (Keeps.andThen ?_ ?_) (h.toRbInv.next (u := fun s => s))
    · exact Keeps.ite (fun s => h.resizeSendOp _ s) (h.toRbInv.next (u := fun s => s))
    · exact Keeps.ite (fun s => h.resizeRecvOp _ s) (h.toRbInv.next (u := fun s => s))
  · refine Keeps.andThen ?_ h.toRbInv.next
    exact Keeps.ite (c := fun s => (s.rbUsable && !s.hwCommunicating) = true) h.refresh
      (h.toRbInv.next (u := fun s => s))

theorem RbInv.writeHeader {n : Nat} {P : State → Prop} (h : RbInv n P) :
    Keeps P Sys2Proof.Machine.writeHeader := by
  refine h.mainSteps _ fun f hf => ?_
  simp only [List.mem_cons, List.not_mem_nil, or_false] at hf
  rcases hf with rfl | rfl
  · exact fun s => h.rbWrite _ _ _ s
  · exact fun s => h.rbWrite _ _ _ s

theorem RbInv.constantWrite {n : Nat} {P : State → Prop} (h : RbInv n P) (w : ConstantWrite) :
    Keeps P (Sys2Proof.Machine.constantWrite w) := by
  cases w with
  | bytes pos v => exact h.rbWrite _ _ _
  | atCursor v => exact h.rbWriteAt _ _ _
  | seek pos => exact h.rbSeek pos
  | typed pos w x => exact h.rbTypedWrite _ _ _
  | bit pos b v => exact h.rbBitSet _ _ _
  | mask pos m v => exact h.rbMask _ _ _
  | fill v => exact h.rbFill v

theorem RbInv.writeConstants {n : Nat} {P : State → Prop} (h : RbInv n P) :
    Keeps P Sys2Proof.Machine.writeConstants := by
  intro s t hs ht
  unfold Sys2Proof.Machine.writeConstants at ht
  split at ht
  · exact h.raise _ s t hs ht
  · refine h.mainSteps _ (fun f hf => ?_) s t hs ht
    simp only [List.mem_map] at hf
    obtain ⟨w, -, rfl⟩ := hf
    exact h.constantWrite w

theorem HostInv.moduleUpdate {n : Nat} {P : State → Prop} (h : HostInv n P) :
    Keeps P Sys2Proof.Machine.moduleUpdate := by
  have hstore : ∀ c, Keeps P (storeConnected c) := fun c => h.toRbInv.next
  refine h.toRbInv.andThenMain h.managerUpdate fun s t hs ht => ?_
  refine h.toRbInv.andThenMain (h.toRbInv.next (u := fun s => s)) ?_ s t hs ht
  refine Keeps.ite (h.toRbInv.mainSteps _ fun f hf => ?_) (hstore _)
  simp only [List.mem_cons, List.not_mem_nil, or_false] at hf
  rcases hf with rfl | rfl
  · refine h.toRbInv.mainSteps _ fun f hf => ?_
    simp only [List.mem_cons, List.not_mem_nil, or_false] at hf
    rcases hf with rfl | rfl | rfl
    · exact h.toRbInv.writeHeader
    · exact h.toRbInv.rbBitSet _ _ _
    · exact h.toRbInv.writeConstants
  · exact hstore _

theorem RbInv.setOverCurrent {n : Nat} {P : State → Prop} (h : RbInv n P) (x : OverCurrent) :
    Keeps P (Sys2Proof.Machine.setOverCurrent x) := by
  refine Keeps.ite (h.next (u := fun s => s)) (h.mainSteps _ fun f hf => ?_)
  simp only [List.mem_cons, List.not_mem_nil, or_false] at hf
  rcases hf with rfl | rfl
  · exact h.next
  · exact fun s => h.rbMask _ _ _ s

/-- Everything `MC_UPDATE` does. -/
theorem HostInv.motorUpdate {n : Nat} {P : State → Prop} (h : HostInv n P) (i o v p : Current) :
    Keeps P (Sys2Proof.Machine.motorUpdate i o v p) := by
  have hmode : ∀ m, Keeps P (storeMode m) := fun m => h.toRbInv.next
  have hprot : Keeps P restartProtection := h.toRbInv.next (u := State.ptRestarted)
  refine h.toRbInv.andThenMain h.moduleUpdate fun s t hs ht => ?_
  refine h.toRbInv.andThenMain (h.toRbInv.next (u := fun s => s)) (h.toRbInv.mainSteps _ fun f hf => ?_) s t hs ht
  simp only [List.mem_cons, List.not_mem_nil, or_false] at hf
  rcases hf with rfl | rfl | rfl
  · refine fun s => h.toRbInv.rbBitGet _ _ (fun requested => ?_) s
    cases requested with
    | false => exact h.toRbInv.next (u := fun s => s)
    | true =>
      refine h.toRbInv.andThenMain (h.toRbInv.next (u := fun s => s)) (h.toRbInv.mainSteps _ fun f hf => ?_)
      simp only [List.mem_cons, List.not_mem_nil, or_false] at hf
      rcases hf with rfl | rfl | rfl
      · exact fun s => h.toRbInv.rbBitSet _ _ _ s
      · exact h.toRbInv.setOverCurrent _
      · exact hprot
  · refine Keeps.ite (Keeps.ite (Keeps.ite (h.toRbInv.mainSteps _ fun f hf => ?_)
      (h.toRbInv.mainSteps _ fun f hf => ?_)) (h.toRbInv.next (u := fun s => s))) hprot
    · simp only [List.mem_cons, List.not_mem_nil, or_false] at hf
      rcases hf with rfl | rfl
      · exact h.toRbInv.setOverCurrent _
      · exact hmode _
    · simp only [List.mem_cons, List.not_mem_nil, or_false] at hf
      rcases hf with rfl | rfl | rfl
      · exact h.toRbInv.setOverCurrent _
      · exact hmode _
      · exact h.toRbInv.rbBitSet _ _ _
  · refine Keeps.ite (h.toRbInv.mainSteps _ fun f hf => ?_) (h.toRbInv.next (u := fun s => s))
    simp only [List.mem_cons, List.not_mem_nil, or_false] at hf
    rcases hf with rfl | rfl
    · intro s t hs ht
      unfold slaveMode at ht
      split at ht
      · exact h.toRbInv.raise _ s t hs ht
      · exact hmode _ s t hs ht
    · exact h.toRbInv.rbBitSet _ _ _

/-! ## Binding a Register Buffer -/

/-- If a Register Buffer is bound, it is within `L_MAX` and only its presence, length and bytes change
(R21). -/
theorem bindBuffer_eq_next_iff (b : Binding) (s t : State) :
    bindBuffer b s = .next t ↔ b.len.toNat ≤ s.cfg.lMax.toNat ∧
      t = { s with rbPresent := b.present, rbLen := b.len, draws := s.draws + 1
                   rb := Memory.ofBytes (freeBytes s.draws 0 b.len.toNat) } := by
  unfold bindBuffer
  split
  · simp only [reduceCtorEq, false_iff, not_and]
    omega
  · constructor
    · intro h
      cases h
      exact ⟨by omega, rfl⟩
    · rintro ⟨-, rfl⟩
      rfl

/-- Construction binds, then sets the manager's variables (R161). -/
theorem constructManager_eq_next_iff (buf : Option Len) (s t : State) :
    constructManager buf s = .next t ↔
      ∃ u, bindBuffer (bindingOf buf) s = .next u ∧
        ((u.panic ≠ none ∧ t = u) ∨ (u.panic = none ∧ t = u.managerReset)) := by
  rw [constructManager, andThen_eq_next_iff]
  constructor
  · rintro ⟨u, hu, h | ⟨hp, h⟩⟩
    · exact ⟨u, hu, Or.inl h⟩
    · cases h
      exact ⟨u, hu, Or.inr ⟨hp, rfl⟩⟩
  · rintro ⟨u, hu, h | ⟨hp, rfl⟩⟩
    · exact ⟨u, hu, Or.inl h⟩
    · exact ⟨u, hu, Or.inr ⟨hp, rfl⟩⟩

@[simp] theorem length_resetBytes (c : Config) : (resetBytes c).length = c.rbLen.toNat := by
  unfold resetBytes
  simp only
  split <;> simp

/-! ## Two such properties -/

/-- The configuration and the length of the Register Buffer are kept by every change of the spaces. -/
theorem bufferInv_cfg (c : Config) (n : Nat) :
    BufferInv n fun s => s.cfg = c ∧ s.rbLen.toNat = n where
  rbLen_eq _ h := h.2
  congr s t h h1 h2 _ _ _ _ _ := by
    rw [h1, h2]
    exact h
  storeRb _ _ _ h _ := h
  storeSb _ _ h _ _ := h
  storeRxb _ _ _ h _ := h
  resizeSend _ _ _ h _ _ := h
  cutSend _ _ h _ _ := h
  resizeRecv _ _ _ h _ := h

/-- So is the invariant `State.wf` (R36, R38, R162). -/
theorem bufferInv_wf (n : Nat) : BufferInv n fun s => s.wf = true ∧ s.rbLen.toNat = n where
  rbLen_eq _ h := h.2
  congr s t h h1 h2 h3 h4 h5 h6 h7 := by
    rw [State.wf_iff, State.headerInPlace_iff] at h ⊢
    rw [h1, h2, h3, h4, h5, h6, h7]
    exact h
  storeRb s a v h ha := by
    rw [State.wf_iff] at h ⊢
    obtain ⟨h, rfl⟩ := h
    exact ⟨⟨Memory.spans_write h.1 ha, h.2⟩, rfl⟩
  storeSb s v h hl hv := by
    rw [State.wf_iff, State.headerInPlace_iff] at h ⊢
    obtain ⟨⟨h1, h2, h3, h4, h5, h6⟩, hn⟩ := h
    refine ⟨⟨h1, Memory.spans_writeList h2 (by show _ ≤ s.sbLen.toNat; omega), h3, h4, ?_, h6⟩, hn⟩
    intro x hx hx2
    refine Eq.trans (Memory.byte_congr ?_) (h5 x hx hx2)
    have hx' : x < s.cfg.h := hx
    simp only [State.storeSbList]
    rw [Memory.read_writeList, if_neg (by omega)]
  storeRxb s a v h ha := by
    rw [State.wf_iff] at h ⊢
    obtain ⟨⟨h1, h2, h3, h4, h5, h6⟩, hn⟩ := h
    refine ⟨⟨h1, h2, Memory.spans_write h3 ?_, h4, h5, h6⟩, hn⟩
    simpa [Memory.isSome_read_of_spans h3] using ha
  resizeSend s k m h hm hm' := by
    rw [State.wf_iff, State.headerInPlace_iff] at h ⊢
    obtain ⟨⟨h1, h2, h3, h4, h5, h6⟩, hn⟩ := h
    have hm2 : (BitVec.ofNat 16 m).toNat = m := by
      unfold lenMax at hm'
      simp
      omega
    refine ⟨⟨h1, ?_, h3, h4, fun x hx _ => ?_, h6⟩, hn⟩
    · show Memory.spans (resizedSend s.cfg.fhdr k m) (BitVec.ofNat 16 m).toNat = true
      rw [hm2]
      exact spans_resizedSend _ _ _ hm
    · have hx' : x < s.cfg.fhdr.length := hx
      simp [Memory.byte, read_resizedSend, hx']
  cutSend s m h hm hm' := by
    rw [State.wf_iff, State.headerInPlace_iff] at h ⊢
    obtain ⟨⟨h1, h2, h3, h4, h5, h6⟩, hn⟩ := h
    have hm2 : (BitVec.ofNat 16 m).toNat = m := by
      unfold lenMax at hm'
      simp
      omega
    refine ⟨⟨h1, ?_, h3, h4, fun x hx hx2 => ?_, h6⟩, hn⟩
    · show Memory.spans (cutSend s.cfg.fhdr m) (BitVec.ofNat 16 m).toNat = true
      rw [hm2]
      exact spans_cutSend hm.le
    · have hx2' : x < (BitVec.ofNat 16 m).toNat := hx2
      have hx' : x < s.cfg.fhdr.length := hx
      rw [hm2] at hx2'
      simp [Memory.byte, read_cutSend, hx2', hx']
  resizeRecv s k m h hm' := by
    rw [State.wf_iff] at h ⊢
    obtain ⟨⟨h1, h2, h3, h4, h5, h6⟩, hn⟩ := h
    have hm2 : (BitVec.ofNat 16 m).toNat = m := by
      unfold lenMax at hm'
      simp
      omega
    refine ⟨⟨h1, h2, ?_, h4, h5, h6⟩, hn⟩
    show Memory.spans (resizedRecv k m) (BitVec.ofNat 16 m).toNat = true
    rw [hm2]
    exact spans_resizedRecv _ _

/-- The memories right after reset have the canonical form. -/
theorem wf_memories_resetOf (c : Config) :
    Memory.wf (State.resetOf c).rb = true ∧ Memory.wf (State.resetOf c).sb = true ∧
      Memory.wf (State.resetOf c).rxb = true :=
  ⟨Memory.wf_ofBytes _, rfl, rfl⟩

end Sys2Proof.Machine
end

