-- ==== Sys2Proof/Laws/Decode.lean ====
section
/-! SUPPORT. Each field of a record, read forwards (what the encoder wrote is taken back) and backwards (what
was taken is what stood there); values as bytes. -/

namespace Sys2Proof

variable {α : Type}

/-! ## Values as bytes -/

theorem lenOfBytes_lenBytes (x : BitVec 16) : lenOfBytes (x.extractLsb' 0 8) (x.extractLsb' 8 8) = x := by
  unfold lenOfBytes
  ext i hi
  simp only [BitVec.getElem_append, BitVec.getElem_extractLsb']
  split
  · simp [BitVec.getLsbD_eq_getElem, hi]
  · rw [show 8 + (i - 8) = i by omega, BitVec.getLsbD_eq_getElem hi]

theorem lenBytes_lenOfBytes (lo hi : Byte) : lenBytes (lenOfBytes lo hi) = [lo, hi] := by
  have h0 : (lenOfBytes lo hi).extractLsb' 0 8 = lo := by
    apply BitVec.eq_of_toNat_eq
    have := lo.isLt
    have := hi.isLt
    simp only [lenOfBytes, BitVec.extractLsb'_toNat, BitVec.toNat_append, Nat.shiftRight_zero,
      Nat.shiftLeft_eq]
    rw [← Nat.mul_comm (2 ^ 8), ← Nat.two_pow_add_eq_or_of_lt (by omega)]
    omega
  have h8 : (lenOfBytes lo hi).extractLsb' 8 8 = hi := by
    apply BitVec.eq_of_toNat_eq
    have := lo.isLt
    have := hi.isLt
    simp only [lenOfBytes, BitVec.extractLsb'_toNat, BitVec.toNat_append, Nat.shiftRight_eq_div_pow,
      Nat.shiftLeft_eq]
    rw [← Nat.mul_comm (2 ^ 8), ← Nat.two_pow_add_eq_or_of_lt (by omega)]
    omega
  simp [lenBytes, h0, h8]

@[simp] theorem length_bytesOfNat (w v : Nat) : (bytesOfNat w v).length = w := by
  induction w generalizing v with
  | zero => rfl
  | succ w ih => simp [bytesOfNat, ih]

/-- The bytes of a value give the value back when it fits (R62, R119). -/
theorem natOfBytes_bytesOfNat (w v : Nat) (h : v < 256 ^ w) : natOfBytes (bytesOfNat w v) = v := by
  induction w generalizing v with
  | zero => simp_all [bytesOfNat, natOfBytes]
  | succ w ih =>
    have : v / 256 < 256 ^ w := Nat.div_lt_of_lt_mul (by rw [← Nat.pow_succ']; exact h)
    simp only [bytesOfNat, natOfBytes, ih _ this, BitVec.toNat_ofNat]
    omega

theorem bytesOfNat_natOfBytes (bs : List Byte) : bytesOfNat bs.length (natOfBytes bs) = bs := by
  induction bs with
  | nil => rfl
  | cons b bs ih =>
    have h1 : (b.toNat + 256 * natOfBytes bs) / 256 = natOfBytes bs := by
      have := b.isLt
      omega
    simp only [List.length_cons, bytesOfNat, natOfBytes, h1, ih]
    congr 1
    apply BitVec.eq_of_toNat_eq
    have := b.isLt
    simp only [BitVec.toNat_ofNat]
    omega

theorem natOfBytes_lt (bs : List Byte) : natOfBytes bs < 256 ^ bs.length := by
  induction bs with
  | nil => simp [natOfBytes]
  | cons b bs ih =>
    have := b.isLt
    simp only [natOfBytes, List.length_cons, Nat.pow_succ]
    omega

/-- The two fields of the address byte `(a7 << 1) | rw` are `a7` and `rw` (R94). -/
theorem splitAddress_addressByte (a7 : BusAddr) (rw : BusDir) :
    splitAddress (addressByte a7 rw) = (a7, rw) := by
  revert a7
  cases rw <;> decide

theorem addressByte_splitAddress (b : Byte) :
    addressByte (splitAddress b).1 (splitAddress b).2 = b := by
  revert b
  decide

/-! ## Fields read forwards -/

@[simp] theorem withByte_cons (b : Byte) (r : List Byte) (k : Byte → List Byte → Except DecodeError α) :
    withByte (b :: r) k = k b r := rfl

@[simp] theorem withLen_lenBytes (x : Len) (r : List Byte) (k : Len → List Byte → Except DecodeError α) :
    withLen (lenBytes x ++ r) k = k x r := by
  simp [withLen, lenBytes, lenOfBytes_lenBytes]

@[simp] theorem withBytes_append (v r : List Byte)
    (k : List Byte → List Byte → Except DecodeError α) : withBytes v.length (v ++ r) k = k v r := by
  simp [withBytes]

@[simp] theorem withBool_boolByte (b : Bool) (r : List Byte)
    (k : Bool → List Byte → Except DecodeError α) : withBool (boolByte b :: r) k = k b r := by
  cases b <;> simp [withBool, boolByte]

@[simp] theorem withBuf_code (b : BufId) (r : List Byte)
    (k : BufId → List Byte → Except DecodeError α) : withBuf (b.code :: r) k = k b r := by
  cases b <;> simp [withBuf, BufId.code]

@[simp] theorem withKind_code (x : AbortKind) (r : List Byte)
    (k : AbortKind → List Byte → Except DecodeError α) : withKind (x.code :: r) k = k x r := by
  cases x <;> simp [withKind, AbortKind.code]

@[simp] theorem withAddress_addressByte (a7 : BusAddr) (rw : BusDir) (r : List Byte)
    (k : BusAddr → BusDir → List Byte → Except DecodeError α) :
    withAddress (addressByte a7 rw :: r) k = k a7 rw r := by
  simp [withAddress, splitAddress_addressByte]

@[simp] theorem withAddressFor_addressByte (a7 : BusAddr) (rw : BusDir) (r : List Byte)
    (k : BusAddr → List Byte → Except DecodeError α) :
    withAddressFor rw (addressByte a7 rw :: r) k = k a7 r := by
  simp [withAddressFor]

@[simp] theorem withPlace_encode (p : Place) (r : List Byte)
    (k : Place → List Byte → Except DecodeError α) : withPlace (p.encode ++ r) k = k p r := by
  cases p with
  | offset pos =>
    have := withBool_boolByte false (lenBytes pos ++ r) fun cursor rest =>
      if cursor then k .cursor rest else withLen rest fun pos rest => k (.offset pos) rest
    simpa [withPlace, Place.encode, boolByte] using this
  | cursor =>
    have := withBool_boolByte true r fun cursor rest =>
      if cursor then k .cursor rest else withLen rest fun pos rest => k (.offset pos) rest
    simpa [withPlace, Place.encode, boolByte] using this

/-! ## Fields read backwards -/

theorem withByte_eq_ok_iff {bs : List Byte} {k : Byte → List Byte → Except DecodeError α} {x : α} :
    withByte bs k = .ok x ↔ ∃ b r, bs = b :: r ∧ k b r = .ok x := by
  cases bs <;> simp [withByte]

theorem withLen_eq_ok_iff {bs : List Byte} {k : Len → List Byte → Except DecodeError α} {x : α} :
    withLen bs k = .ok x ↔ ∃ v r, bs = lenBytes v ++ r ∧ k v r = .ok x := by
  constructor
  · intro h
    simp only [withLen, withByte_eq_ok_iff] at h
    obtain ⟨lo, r, rfl, hi, r', rfl, h⟩ := h
    exact ⟨lenOfBytes lo hi, r', by simp [lenBytes_lenOfBytes], h⟩
  · rintro ⟨v, r, rfl, h⟩
    simpa using h

theorem withBytes_eq_ok_iff {n : Nat} {bs : List Byte}
    {k : List Byte → List Byte → Except DecodeError α} {x : α} :
    withBytes n bs k = .ok x ↔ ∃ v r, bs = v ++ r ∧ v.length = n ∧ k v r = .ok x := by
  constructor
  · intro h
    unfold withBytes at h
    split at h
    · simp at h
    · exact ⟨bs.take n, bs.drop n, by simp, by simp; omega, h⟩
  · rintro ⟨v, r, rfl, rfl, h⟩
    simpa using h

theorem withBool_eq_ok_iff {bs : List Byte} {k : Bool → List Byte → Except DecodeError α} {x : α} :
    withBool bs k = .ok x ↔ ∃ b r, bs = boolByte b :: r ∧ k b r = .ok x := by
  constructor
  · intro h
    simp only [withBool, withByte_eq_ok_iff] at h
    obtain ⟨b, r, rfl, h⟩ := h
    split at h
    · exact ⟨false, r, by simp_all [boolByte], h⟩
    · split at h
      · exact ⟨true, r, by simp_all [boolByte], h⟩
      · simp at h
  · rintro ⟨b, r, rfl, h⟩
    simpa using h

theorem withBuf_eq_ok_iff {bs : List Byte} {k : BufId → List Byte → Except DecodeError α} {x : α} :
    withBuf bs k = .ok x ↔ ∃ b r, bs = BufId.code b :: r ∧ k b r = .ok x := by
  constructor
  · intro h
    simp only [withBuf, withByte_eq_ok_iff] at h
    obtain ⟨b, r, rfl, h⟩ := h
    split at h
    · exact ⟨.sb, r, by simp_all [BufId.code], h⟩
    · split at h
      · exact ⟨.rxb, r, by simp_all [BufId.code], h⟩
      · simp at h
  · rintro ⟨b, r, rfl, h⟩
    simpa using h

theorem withKind_eq_ok_iff {bs : List Byte} {k : AbortKind → List Byte → Except DecodeError α} {x : α} :
    withKind bs k = .ok x ↔ ∃ b r, bs = AbortKind.code b :: r ∧ k b r = .ok x := by
  constructor
  · intro h
    simp only [withKind, withByte_eq_ok_iff] at h
    obtain ⟨b, r, rfl, h⟩ := h
    split at h
    · exact ⟨.nackSent, r, by simp_all [AbortKind.code], h⟩
    · split at h
      · exact ⟨.error, r, by simp_all [AbortKind.code], h⟩
      · simp at h
  · rintro ⟨b, r, rfl, h⟩
    simpa using h

theorem withAddress_eq_ok_iff {bs : List Byte}
    {k : BusAddr → BusDir → List Byte → Except DecodeError α} {x : α} :
    withAddress bs k = .ok x ↔ ∃ a7 rw r, bs = addressByte a7 rw :: r ∧ k a7 rw r = .ok x := by
  constructor
  · intro h
    simp only [withAddress, withByte_eq_ok_iff] at h
    obtain ⟨b, r, rfl, h⟩ := h
    exact ⟨_, _, r, by rw [addressByte_splitAddress], h⟩
  · rintro ⟨a7, rw, r, rfl, h⟩
    simpa using h

theorem withAddressFor_eq_ok_iff {rw : BusDir} {bs : List Byte}
    {k : BusAddr → List Byte → Except DecodeError α} {x : α} :
    withAddressFor rw bs k = .ok x ↔ ∃ a7 r, bs = addressByte a7 rw :: r ∧ k a7 r = .ok x := by
  constructor
  · intro h
    simp only [withAddressFor, withAddress_eq_ok_iff] at h
    obtain ⟨a7, rw', r, rfl, h⟩ := h
    split at h
    · rename_i hrw
      exact ⟨a7, r, by rw [hrw], h⟩
    · simp at h
  · rintro ⟨a7, r, rfl, h⟩
    simpa using h

theorem withPlace_eq_ok_iff {bs : List Byte} {k : Place → List Byte → Except DecodeError α} {x : α} :
    withPlace bs k = .ok x ↔ ∃ p r, bs = Place.encode p ++ r ∧ k p r = .ok x := by
  constructor
  · intro h
    simp only [withPlace, withBool_eq_ok_iff] at h
    obtain ⟨b, r, rfl, h⟩ := h
    cases b with
    | true => exact ⟨.cursor, r, rfl, by simpa using h⟩
    | false =>
      simp only [Bool.false_eq_true, if_false, withLen_eq_ok_iff] at h
      obtain ⟨v, r', rfl, h⟩ := h
      exact ⟨.offset v, r', rfl, h⟩
  · rintro ⟨p, r, rfl, h⟩
    simpa using h

/-- The bytes of an optional length are those of a truth value and of the length. -/
theorem withOptLen_eq_ok_iff {bs : List Byte} {k : Option Len → List Byte → Except DecodeError α}
    {x : α} :
    withOptLen bs k = .ok x ↔
      ∃ o r, bs = Instr.operands (.mgrConstruct o) ++ r ∧ k o r = .ok x := by
  constructor
  · intro h
    simp only [withOptLen, withBool_eq_ok_iff] at h
    obtain ⟨b, r, rfl, h⟩ := h
    cases b with
    | true =>
      simp only [if_true, withLen_eq_ok_iff] at h
      obtain ⟨v, r', rfl, h⟩ := h
      exact ⟨some v, r', rfl, h⟩
    | false => exact ⟨none, r, rfl, by simpa using h⟩
  · rintro ⟨o, r, rfl, h⟩
    cases o with
    | none => simpa [withOptLen, Instr.operands, boolByte, withBool] using h
    | some v => simpa [withOptLen, Instr.operands, boolByte, withBool] using h

end Sys2Proof
end

