-- ==== Sys2Proof/Laws/Exec.lean ====
section
/-! SUPPORT. The meaning of each operation as its precondition and the shared operation it runs (R240:
every operation but `RESET` needs `panic = none`). -/

namespace Sys2Proof.Machine

theorem exec_mw (a7 : BusAddr) (frame : List Byte) (s : State) :
    exec (.mw a7 frame) s = whenLive s (masterWrite a7 frame) := rfl

theorem exec_mr (a7 : BusAddr) (n : Len) (s : State) :
    exec (.mr a7 n) s = whenLive s (masterRead a7 n.toNat) := rfl

theorem exec_mwr (a7 : BusAddr) (a : Byte) (n : Len) (s : State) :
    exec (.mwr a7 a n) s = whenLive s
      (fun s => andThen (masterWrite a7 [a] s) (masterRead a7 n.toNat)) := rfl

theorem exec_busStart (a7 : BusAddr) (rw : BusDir) (s : State) :
    exec (.busStart a7 rw) s = whenLive s (busStart a7 rw) := rfl

theorem exec_busWbyte (b : Byte) (s : State) :
    exec (.busWbyte b) s = whenLive s (busWbyte b) := rfl

theorem exec_busRbyte (s : State) :
    exec .busRbyte s = whenLive s busRbyte := rfl

theorem exec_busEnd (s : State) :
    exec .busEnd s = whenLive s busEnd := rfl

theorem exec_busAbort (kind : AbortKind) (s : State) :
    exec (.busAbort kind) s = whenLive s (busAbort kind) := rfl

theorem exec_hwCommunicating (s : State) :
    exec .hwCommunicating s = whenLive s (fun s => .next (s.emit (.bit s.hwCommunicating))) := rfl

theorem exec_hwResult (s : State) :
    exec .hwResult s = whenLive s (fun s => .next (s.emit (.result s.hwResult))) := rfl

theorem exec_hwLastTransaction (s : State) :
    exec .hwLastTransaction s = whenLive s (fun s => .next (s.emit (.info s.hwLast))) := rfl

theorem exec_hwSetCallbacks (r t : Bool) (s : State) :
    exec (.hwSetCallbacks r t) s = whenLive s (fun s => .next { s with hwCbSet := r && t }) := rfl

theorem exec_hwSetAddress (a : Byte) (s : State) :
    exec (.hwSetAddress a) s = whenLive s (fun s => .next (s.withHwAddr (a.setWidth 7))) := rfl

theorem exec_hwSetRecvbuffer (buf : BufId) (len : Len) (s : State) :
    exec (.hwSetRecvbuffer buf len) s = whenLive s
      (fun s => .next { s with hwRecvBuf := some buf, hwRecvLen := len }) := rfl

theorem exec_hwSetSendbuffer (buf : BufId) (len : Len) (s : State) :
    exec (.hwSetSendbuffer buf len) s = whenLive s
      (fun s => .next { s with hwSendBuf := some buf, hwSendLen := len }) := rfl

theorem exec_update (s : State) :
    exec .update s = whenLive s managerUpdate := rfl

theorem exec_connected (s : State) :
    exec .connected s = whenLive s (fun s => .next (s.emit (.bit s.isConnected))) := rfl

theorem exec_setTimeout (x : Ticks) (s : State) :
    exec (.setTimeout x) s = whenLive s (fun s => .next { s with cfgTimeout := x }) := rfl

theorem exec_setAddress (x : Len) (s : State) :
    exec (.setAddress x) s = whenLive s
      (fun s => if 0x7F < x.toNat then raise .invalidArgument s else .next { s with cfgAddr := x.setWidth 7, cfgAddrDirty := true }) := rfl

theorem exec_mgrConstruct (buf : Option Len) (s : State) :
    exec (.mgrConstruct buf) s = whenLive s (constructManager buf) := rfl

theorem exec_received (n : Len) (s : State) :
    exec (.received n) s = whenLive s (received n.toNat) := rfl

theorem exec_sent (n : Len) (s : State) :
    exec (.sent n) s = whenLive s (sentCallback n.toNat) := rfl

theorem exec_refresh (s : State) :
    exec .refresh s = whenLive s refresh := rfl

theorem exec_resizeSend (m : Len) (s : State) :
    exec (.resizeSend m) s = whenLive s (resizeSend m.toNat) := rfl

theorem exec_resizeRecv (m : Len) (s : State) :
    exec (.resizeRecv m) s = whenLive s (resizeRecv m.toNat) := rfl

theorem exec_rbWrite (place : Place) (len : Len) (v : List Byte) (s : State) :
    exec (.rbWrite place len v) s = whenLive s
      (fun s => andThen (rbWrite (placeOffset s place) len.toNat v s) fun s => .next (s.advanceCursor place len.toNat)) := rfl

theorem exec_rbRead (place : Place) (len : Len) (s : State) :
    exec (.rbRead place len) s = whenLive s
      (fun s => rbRead (placeOffset s place) len.toNat (fun out s => .next ((s.advanceCursor place len.toNat).emit (.bytes out))) s) := rfl

theorem exec_rbBitGet (pos : Len) (b : Byte) (s : State) :
    exec (.rbBitGet pos b) s = whenLive s (rbBitGet pos.toNat b fun v s => .next (s.emit (.bit v))) := rfl

theorem exec_rbBitSet (pos : Len) (b : Byte) (v : Bool) (s : State) :
    exec (.rbBitSet pos b v) s = whenLive s (rbBitSet pos.toNat b v) := rfl

theorem exec_rbMask (pos : Len) (m v : Byte) (s : State) :
    exec (.rbMask pos m v) s = whenLive s (rbMask pos.toNat m v) := rfl

theorem exec_rbSeek (pos : Len) (s : State) :
    exec (.rbSeek pos) s = whenLive s (rbSeek pos) := rfl

theorem exec_rbTypedRead (pos w : Len) (s : State) :
    exec (.rbTyped pos w none) s = whenLive s
      (fun s => rbRead pos.toNat w.toNat (fun out s => .next (s.emit (.value (typedValue s.cfg.fieldEndian out)))) s) := rfl

theorem exec_rbTypedWrite (pos w : Len) (x : Nat) (s : State) :
    exec (.rbTyped pos w (some x)) s = whenLive s
      (fun s => rbWrite pos.toNat w.toNat (typedBytes s.cfg.fieldEndian w.toNat x) s) := rfl

theorem exec_rbFill (v : Byte) (s : State) :
    exec (.rbFill v) s = whenLive s (rbFill v) := rfl

theorem exec_ltStart (s : State) :
    exec .ltStart s = whenLive s (fun s => .next s.ltStarted) := rfl

theorem exec_ltAssign (x : Ticks) (s : State) :
    exec (.ltAssign x) s = whenLive s (fun s => .next (s.ltAssigned x)) := rfl

theorem exec_ltTick (s : State) :
    exec .ltTick s = whenLive s (fun s => .next s.ticked) := rfl

theorem exec_ltExpired (s : State) :
    exec .ltExpired s = whenLive s (fun s => .next (s.emit (.bit s.ltExpired))) := rfl

theorem exec_modConstruct (buf : Len) (s : State) :
    exec (.modConstruct buf) s = whenLive s (constructModule buf) := rfl

theorem exec_modUpdate (s : State) :
    exec .modUpdate s = whenLive s moduleUpdate := rfl

theorem exec_modConnected (s : State) :
    exec .modConnected s = whenLive s (fun s => .next (s.emit (.bit s.isConnected))) := rfl

theorem exec_writeHeader (s : State) :
    exec .writeHeader s = whenLive s writeHeader := rfl

theorem exec_writeConstants (s : State) :
    exec .writeConstants s = whenLive s writeConstants := rfl

theorem exec_setId (id : Byte) (s : State) :
    exec (.setId id) s = whenLive s (rbWrite idPos 1 [id]) := rfl

theorem exec_setName (nm : List Byte) (len : Len) (s : State) :
    exec (.setName nm len) s = whenLive s
      (rbWrite namePos (min len.toNat nameSize) (nameBytes nm len)) := rfl

theorem exec_getLed (s : State) :
    exec .getLed s = whenLive s
      (fun s => rbBitGet s.cfg.ledPos.toNat s.cfg.ledBit (fun v s => .next (s.emit (.bit v))) s) := rfl

theorem exec_getPower (s : State) :
    exec .getPower s = whenLive s
      (fun s => rbBitGet s.cfg.powerPos.toNat s.cfg.powerBit (fun v s => .next (s.emit (.bit v))) s) := rfl

theorem exec_mcUpdate (i o v p : Current) (s : State) :
    exec (.mcUpdate i o v p) s = whenLive s (motorUpdate i o v p) := rfl

theorem exec_reset (s : State) : exec .reset s = .next s.afterReset := rfl

end Sys2Proof.Machine
end

