-- ==== Sys2Proof/Laws/Quiet.lean ====
section
/-! SUPPORT. What each shared operation answers when no interrupt step falls inside it, as one equation
each. -/

namespace Sys2Proof.Machine

/-! ## Steps of the main context -/

/-- With nothing due, the steps of the main context run one after another. -/
theorem mainSteps_cons_of_quiet {f : State → Result} {fs : List (State → Result)} {s t : State}
    (hf : f s = .next t) (hp : t.panic = none) (hq : t.preempt = []) :
    mainSteps (f :: fs) s = mainSteps fs t := by
  cases fs with
  | nil => simpa using hf
  | cons g fs => rw [mainSteps_cons_cons, hf, andThenMain_of_quiet hp hq]

/-- A panic ends the steps (R240, R242). -/
theorem mainSteps_cons_of_raise {f : State → Result} {fs : List (State → Result)} {s u : State}
    {c : PanicCause} (hf : f s = raise c u) : mainSteps (f :: fs) s = raise c u := by
  cases fs with
  | nil => simpa using hf
  | cons g fs => rw [mainSteps_cons_cons, hf, andThenMain_raise]

/-! ## Register Buffer -/

@[simp] theorem State.storeRbList_nil (a : Nat) (s : State) : s.storeRbList a [] = s := rfl

theorem State.storeRbList_cons (a : Nat) (b : Byte) (v : List Byte) (s : State) :
    s.storeRbList a (b :: v) = (s.storeRb a b).storeRbList (a + 1) v := rfl

theorem byteWrites_of_quiet {s : State} (hp : s.panic = none) (hq : s.preempt = []) (pos : Nat)
    (v : List Byte) : mainSteps (byteWrites pos v) s = .next (s.storeRbList pos v) := by
  induction v generalizing s pos with
  | nil => rfl
  | cons b v ih =>
    refine (mainSteps_cons_of_quiet (f := fun s => .next (s.storeRb pos b)) (s := s)
      (t := s.storeRb pos b) rfl hp hq).trans ?_
    rw [ih (s := s.storeRb pos b) hp hq]
    rfl

/-- `RB_WRITE` in bounds and undisturbed (R112). -/
theorem rbWrite_of_quiet {s : State} {pos len : Nat} {v : List Byte} (hp : s.panic = none)
    (hq : s.preempt = []) (hh : hookSafe s.cfg .write = true) (hb : s.inBounds pos len = true)
    (hv : v.length = len) :
    rbWrite pos len v s =
      .next { s with rb := Memory.writeList s.rb pos v, out := s.out ++ hookCalls s.cfg .write pos len } := by
  rw [rbWrite, if_neg (by simp [hb]), List.take_of_length_le (by omega), byteWrites_of_quiet hp hq,
    andThen_of_live (by simpa using hp)]
  exact fireHook_of_safe (s := s.storeRbList pos v) hh pos len

/-- Out of bounds, before any byte moves (R111). -/
theorem rbWrite_of_outOfBounds {s : State} {pos len : Nat} {v : List Byte}
    (hb : s.inBounds pos len = false) : rbWrite pos len v s = raise .outOfBounds s := by
  simp [rbWrite, hb]

theorem rbRead_of_outOfBounds {s : State} {pos len : Nat} {k : List Byte → State → Result}
    (hb : s.inBounds pos len = false) : rbRead pos len k s = raise .outOfBounds s := by
  simp [rbRead, hb]

theorem byteReads_of_quiet {s : State} (hp : s.panic = none) (hq : s.preempt = [])
    (k : List Byte → State → Result) (n pos : Nat) (acc : List Byte) :
    byteReads pos n acc k s = k (acc ++ Memory.bytes s.rb pos n) s := by
  induction n using Nat.strongRecOn generalizing pos acc with
  | ind n ih =>
    match n with
    | 0 => simp [byteReads, Memory.bytes]
    | 1 => simp [byteReads, Memory.bytes]
    | n + 2 =>
      rw [byteReads, andThenMain_of_quiet hp hq, ih (n + 1) (by omega)]
      simp only [Memory.bytes, List.append_assoc, List.range_succ_eq_map (n := n + 1), List.map_cons,
        List.map_map, List.singleton_append]
      congr 3
      apply List.map_congr_left
      intro i _
      simp only [Function.comp_apply]
      congr 1
      omega

/-- `RB_READ` in bounds and undisturbed (R113). -/
theorem rbRead_of_quiet {s : State} {pos len : Nat} {k : List Byte → State → Result}
    (hp : s.panic = none) (hq : s.preempt = []) (hh : hookSafe s.cfg .read = true)
    (hb : s.inBounds pos len = true) :
    rbRead pos len k s =
      k (Memory.bytes s.rb pos len) { s with out := s.out ++ hookCalls s.cfg .read pos len } := by
  rw [rbRead, if_neg (by simp [hb]), byteReads_of_quiet hp hq, fireHook_of_safe hh,
    andThen_of_live (by simpa using hp)]
  rfl

theorem rbBitGet_of_inBounds {s : State} {pos : Nat} {b : Byte} {k : Bool → State → Result}
    (hb : s.inBounds pos 1 = true) (h7 : b.toNat ≤ 7) :
    rbBitGet pos b k s = k ((Memory.byte s.rb pos).getLsbD b.toNat) s := by
  rw [rbBitGet, if_neg (by simp [hb]), if_neg (by omega)]
  rfl

theorem modifyByte_of_quiet {s : State} {pos : Nat} {f : Byte → Byte} (hp : s.panic = none)
    (hq : s.preempt = []) (hh : hookSafe s.cfg .write = true) :
    modifyByte pos f s = .next { s with
      rb := Memory.write s.rb pos (f (Memory.byte s.rb pos))
      out := s.out ++ hookCalls s.cfg .write pos 1 } := by
  rw [modifyByte, andThenMain_of_quiet hp hq]
  exact fireHook_of_safe (s := s.storeRb pos (f (Memory.byte s.rb pos))) hh pos 1

/-- `RB_BIT_SET` in bounds and undisturbed (R115). -/
theorem rbBitSet_of_quiet {s : State} {pos : Nat} {b : Byte} {v : Bool} (hp : s.panic = none)
    (hq : s.preempt = []) (hh : hookSafe s.cfg .write = true) (hb : s.inBounds pos 1 = true)
    (h7 : b.toNat ≤ 7) :
    rbBitSet pos b v s = .next { s with
      rb := Memory.write s.rb pos (setBit (Memory.byte s.rb pos) b.toNat v)
      out := s.out ++ hookCalls s.cfg .write pos 1 } := by
  rw [rbBitSet, if_neg (by simp [hb]), if_neg (by omega), modifyByte_of_quiet hp hq hh]

/-- `RB_MASK` in bounds and undisturbed (R116). -/
theorem rbMask_of_quiet {s : State} {pos : Nat} {m v : Byte} (hp : s.panic = none)
    (hq : s.preempt = []) (hh : hookSafe s.cfg .write = true) (hb : s.inBounds pos 1 = true) :
    rbMask pos m v s = .next { s with
      rb := Memory.write s.rb pos (maskBits (Memory.byte s.rb pos) m v)
      out := s.out ++ hookCalls s.cfg .write pos 1 } := by
  rw [rbMask, if_neg (by simp [hb]), modifyByte_of_quiet hp hq hh]

/-- `RB_FILL` of a bound buffer, or of an empty one, undisturbed (R120). -/
theorem rbFill_of_quiet {s : State} (hp : s.panic = none) (hq : s.preempt = [])
    (hb : s.rbPresent = true ∨ s.rbLen = 0) (v : Byte) :
    rbFill v s = .next (s.storeRbList 0 (List.replicate s.rbLen.toNat v)) := by
  by_cases h0 : s.rbLen = 0
  · rw [rbFill, if_pos h0, h0]
    rfl
  · have hl : s.rbLen.toNat ≠ 0 := fun h => h0 (BitVec.eq_of_toNat_eq h)
    rw [rbFill, if_neg h0, (State.inBounds_iff s 0 s.rbLen.toNat).mpr ⟨hb.resolve_right h0, by omega, by omega⟩]
    exact byteWrites_of_quiet hp hq 0 _

/-- `RB_FILL` with no buffer bound (R65, R111, R120). -/
theorem rbFill_of_unbound {s : State} (h0 : s.rbLen ≠ 0) (hb : s.rbPresent = false) (v : Byte) :
    rbFill v s = raise .outOfBounds s := by
  rw [rbFill, if_neg h0, if_pos (by simp [State.inBounds, hb])]

/-! ## Null hooks (R118) -/

/-- `RB_WRITE` in bounds and undisturbed with a null write hook: the bytes, then the panic. -/
theorem rbWrite_of_nullHook {s : State} {pos len : Nat} {v : List Byte} (hp : s.panic = none)
    (hq : s.preempt = []) (hk : s.cfg.hasHook = true) (hn : s.cfg.writeHookNull = true)
    (hb : s.inBounds pos len = true) (hv : v.length = len) :
    rbWrite pos len v s = raise .nullCallback (s.storeRbList pos v) := by
  rw [rbWrite, if_neg (by simp [hb]), List.take_of_length_le (by omega), byteWrites_of_quiet hp hq,
    andThen_of_live (by exact hp), fireHook_of_null (by exact hk) (by exact hn)]

/-- `RB_READ` with a null read hook: nothing is returned (R113). -/
theorem rbRead_of_nullHook {s : State} {pos len : Nat} {k : List Byte → State → Result}
    (hp : s.panic = none) (hq : s.preempt = []) (hk : s.cfg.hasHook = true)
    (hn : s.cfg.readHookNull = true) (hb : s.inBounds pos len = true) :
    rbRead pos len k s = raise .nullCallback s := by
  rw [rbRead, if_neg (by simp [hb]), byteReads_of_quiet hp hq,
    fireHook_of_null (by exact hk) (by exact hn), andThen_raise]

/-- A read-modify-write with a null write hook (R115, R116). -/
theorem modifyByte_of_nullHook {s : State} {pos : Nat} {f : Byte → Byte} (hp : s.panic = none)
    (hq : s.preempt = []) (hk : s.cfg.hasHook = true) (hn : s.cfg.writeHookNull = true) :
    modifyByte pos f s = raise .nullCallback (s.storeRb pos (f (Memory.byte s.rb pos))) := by
  rw [modifyByte, andThenMain_of_quiet hp hq, fireHook_of_null (by exact hk) (by exact hn)]

/-! ## Bits -/

/-- `RB_BIT_SET` changes one bit of the byte (R115). -/
theorem getLsbD_setBit (t : Byte) (b : Nat) (v : Bool) (hb : b < 8) (k : Nat) (hk : k < 8) :
    (setBit t b v).getLsbD k = if k = b then v else t.getLsbD k := by
  have h1 : ∀ x : BitVec 8, x = 1#8 → ∀ j, x.getLsbD j = decide (j = 0) := by
    rintro x rfl j
    cases j <;> simp
  simp only [setBit, BitVec.getLsbD_or, BitVec.getLsbD_and, BitVec.getLsbD_not,
    BitVec.getLsbD_shiftLeft, hk, decide_true, Bool.true_and]
  by_cases h : k = b
  · subst h
    cases v <;> simp
  · by_cases hlt : k < b
    · cases v <;> simp [h, hlt]
    · cases v <;> simp [h, hlt, show k - b ≠ 0 by omega, h1 1#8 rfl]

/-- `RB_MASK` changes the masked bits of the byte (R116). -/
theorem getLsbD_maskBits (t m v : Byte) (k : Nat) (hk : k < 8) :
    (maskBits t m v).getLsbD k = if m.getLsbD k then v.getLsbD k else t.getLsbD k := by
  simp only [maskBits, BitVec.getLsbD_or, BitVec.getLsbD_and, BitVec.getLsbD_not, hk, decide_true,
    Bool.true_and]
  cases m.getLsbD k <;> simp

theorem setBit_active (t : Byte) : setBit t 0 true = t ||| 0x01 := by
  revert t
  decide

theorem setBit_operational (t : Byte) : setBit t 1 true = t ||| 0x02 := by
  revert t
  decide

theorem setBit_operational_clear (t : Byte) : setBit t 1 false = t &&& 0xFD := by
  revert t
  decide

/-! ## Staging -/

/-- `refresh` where nothing can panic (R163). -/
theorem refresh_of_ready {s : State} (hl : s.sbLen.toNat = s.rbLen.toNat + s.cfg.h)
    (hpres : s.rbPresent = true) (ha : s.lastAddr.toNat < s.rbLen.toNat)
    (hh : managerHookSafe s.cfg .read = true) :
    refresh s = .next { s with
      sb := Memory.writeList s.sb s.cfg.h s.refreshData
      out := s.out ++ managerCalls s.cfg .read s.lastAddr.toNat (s.rbLen.toNat - s.lastAddr.toNat) } := by
  have hb : s.inBounds s.lastAddr.toNat (s.rbLen.toNat - s.lastAddr.toNat) = true := by
    rw [State.inBounds_iff]
    exact ⟨hpres, ha, by omega⟩
  rw [refresh, if_neg (by simp [hl]), if_neg (by simp [hb])]
  exact managerHook_of_safe (s := s.storeSbList s.cfg.h s.refreshData) hh _ _

/-- Byte `x` of the data region of SB after a refresh (R163). -/
theorem getElem?_refreshData (s : State) (x : Nat) (hx : x < s.rbLen.toNat)
    (ha : s.lastAddr.toNat ≤ s.rbLen.toNat) :
    s.refreshData[x]? = some
      (if x < s.rbLen.toNat - s.lastAddr.toNat then Memory.byte s.rb (s.lastAddr.toNat + x) else 0x00) := by
  unfold State.refreshData
  by_cases h : x < s.rbLen.toNat - s.lastAddr.toNat
  · rw [List.getElem?_append_left (by simpa using h), Memory.getElem?_bytes _ _ _ _ h, if_pos h]
  · rw [List.getElem?_append_right (by simpa using h), if_neg h, List.getElem?_replicate, if_pos]
    · rfl
    · simp only [Memory.length_bytes]
      omega

/-- SB after a refresh is the master read frame of the Register Buffer from `last_addr` (R92, R163). -/
theorem read_sb_refresh {s : State} (hw : s.wf = true) (hl : s.sbLen.toNat = s.rbLen.toNat + s.cfg.h)
    (ha : s.lastAddr.toNat < s.rbLen.toNat) (x : Nat) :
    Memory.read (Memory.writeList s.sb s.cfg.h s.refreshData) x =
      if x < s.sbLen.toNat then
        some (frameByteAt s.cfg s.rb s.rbLen.toNat s.lastAddr.toNat x)
      else none := by
  rw [State.wf_iff, State.headerInPlace_iff] at hw
  obtain ⟨-, h2, -, -, h5, -⟩ := hw
  have hlen := length_refreshData s ha.le
  rw [Memory.read_writeList, hlen]
  by_cases h1 : s.cfg.h ≤ x ∧ x < s.cfg.h + s.rbLen.toNat
  · rw [if_pos h1, if_pos (by omega), getElem?_refreshData s _ (by omega) ha.le, frameByteAt,
      if_neg (show ¬ x < s.cfg.h by omega)]
    by_cases h3 : x - s.cfg.h < s.rbLen.toNat - s.lastAddr.toNat
    · rw [if_pos h3, if_pos (by omega)]
    · rw [if_neg h3, if_neg (by omega)]
  · rw [if_neg h1]
    by_cases h3 : x < s.sbLen.toNat
    · rw [if_pos h3, Memory.read_of_spans h2 h3, frameByteAt, if_pos (by omega)]
      rw [h5 x (by omega) h3]
    · rw [if_neg h3, Memory.read_none_of_spans h2 (by omega)]

/-- `received` with an in-range address where nothing can panic (R166). -/
theorem received_of_inRange {s : State} {n : Nat} (hp : s.panic = none) (hpres : s.rbPresent = true)
    (ha : (s.frameAddr n).toNat < s.rbLen.toNat) (hl : s.sbLen.toNat = s.rbLen.toNat + s.cfg.h)
    (hw : managerHookSafe s.cfg .write = true) (hr : managerHookSafe s.cfg .read = true) :
    ∃ u, u = { s with
        rbPos := Config.freePos s.draws, draws := s.draws + 1, lastAddr := s.frameAddr n
        rb := Memory.writeList s.rb (s.frameAddr n).toNat (s.frameData n)
        out := s.out ++ managerCalls s.cfg .write (s.frameAddr n).toNat (s.frameData n).length } ∧
      received n s = .next { u with
        sb := Memory.writeList s.sb s.cfg.h u.refreshData
        out := u.out ++ managerCalls s.cfg .read (s.frameAddr n).toNat
          (s.rbLen.toNat - (s.frameAddr n).toNat) } := by
  refine ⟨_, rfl, ?_⟩
  have hm := managerHook_of_safe (s := { s.cursorLost with lastAddr := s.frameAddr n }.storeRbList
    (s.frameAddr n).toNat (s.frameData n)) hw (s.frameAddr n).toNat (s.frameData n).length
  rw [received, if_pos (by simp [hpres, ha])]
  refine (andThen_next_congr hm fun _ _ _ => rfl).trans ?_
  rw [andThen_of_live (by exact hp)]
  exact refresh_of_ready hl hpres ha hr

/-- `received` with an out-of-range address (R65, R166). -/
theorem received_of_outOfRange {s : State} {n : Nat}
    (ha : s.rbPresent = false ∨ s.rbLen.toNat ≤ (s.frameAddr n).toNat) :
    received n s = .next s.cursorLost := by
  rcases received_cases n s with ⟨h1, h2, -⟩ | ⟨-, h⟩
  · rcases ha with ha | ha
    · simp [ha] at h1
    · omega
  · exact h

theorem getElem?_frameData (s : State) (n x : Nat) :
    (s.frameData n)[x]? =
      if x < min (s.rbLen.toNat - (s.frameAddr n).toNat) (n - 1) then some (s.frameByte (1 + x))
      else none := by
  by_cases h : x < min (s.rbLen.toNat - (s.frameAddr n).toNat) (n - 1)
  · rw [if_pos h]
    simp [State.frameData, h]
  · rw [if_neg h]
    exact List.getElem?_eq_none (by rw [length_frameData]; omega)

/-! ## Timers -/

/-- One countdown (R192). -/
theorem countdown_eq (running : Bool) (remaining : Ticks) :
    countdown running remaining = if running = true ∧ remaining ≠ 0 then remaining - 1 else remaining := by
  cases running <;> by_cases h : remaining = 0 <;> simp [countdown, h]

/-- A running count that has not reached zero loses one (R192). -/
theorem State.ltRemaining_ticked_of_running {s : State} (hr : s.ltRunning = true) (h : s.ltRemaining ≠ 0) :
    s.ticked.ltRemaining = s.ltRemaining - 1 := by
  show countdown s.ltRunning s.ltRemaining = _
  rw [countdown_eq, if_pos ⟨hr, h⟩]

/-! ## Bus -/

/-- The end of a master write that is not refused, with callbacks registered (R135). -/
theorem completeTransaction_write {s : State} (hd : s.hwDir = .write)
    (ho : ¬ (s.rxOver = true ∧ s.cfg.rxOverflow = .nack)) (hcb : s.hwCbSet = true) :
    completeTransaction s = received s.rxCnt.toNat { s with
      hwCommunicating := false, hwResult := .received, hwLast := ⟨.receive, .rxb, s.rxCnt⟩ } := by
  have ho' : (s.rxOver && decide (s.cfg.rxOverflow = .nack)) = false := by
    cases h : s.rxOver <;> simp_all
  simp [completeTransaction, hd, ho', receiveDone, hcb]

/-- The number of bytes a master read took from SB (R97). -/
theorem State.toNat_sentCount (s : State) :
    s.sentCount.toNat = min s.txCnt.toNat s.hwSendLen.toNat := by
  unfold State.sentCount
  split
  · rename_i h
    rw [BitVec.le_def] at h
    omega
  · rename_i h
    rw [BitVec.le_def] at h
    omega

/-- The end of a master read with callbacks registered (R135, R167). -/
theorem completeTransaction_read {s : State} (hd : s.hwDir = .read) (hcb : s.hwCbSet = true) :
    completeTransaction s = .next { s with
      hwCommunicating := false, hwResult := .sent, hwLast := ⟨.send, .sb, s.sentCount⟩ } := by
  simp only [completeTransaction, hd, sendDone, hcb, if_true, sentCallback]
  rfl

/-- The bytes of a master write that fit the receive buffer (R133). -/
theorem writeBytes_of_fits {s : State} (bs : List Byte) (hp : s.panic = none) (hr : s.receiving = true)
    (hs : Memory.spans s.rxb s.rxbLen.toNat = true) (hl : s.hwRecvLen = s.rxbLen)
    (hn : s.rxCnt.toNat + bs.length ≤ s.rxbLen.toNat) :
    writeBytes bs s = .next { s with
      rxb := Memory.writeList s.rxb s.rxCnt.toNat bs
      rxCnt := s.rxCnt + BitVec.ofNat 16 bs.length } := by
  induction bs generalizing s with
  | nil => simp [writeBytes, Memory.writeList]
  | cons b bs ih =>
    simp only [List.length_cons] at hn
    have hlt : s.rxCnt.toNat < s.rxbLen.toNat := by omega
    have hread := Memory.read_of_spans hs hlt
    have hw : busWbyte b s = .next { s with
        rxb := Memory.write s.rxb s.rxCnt.toNat b, rxCnt := s.rxCnt + 1 } := by
      simp [busWbyte, hr, hl, hlt, hread]
    have hlen := s.rxbLen.isLt
    have hcnt : (s.rxCnt + 1).toNat = s.rxCnt.toNat + 1 := by
      rw [BitVec.toNat_add]
      simp
      omega
    rw [writeBytes, hw, andThen_of_live (by simpa using hp)]
    have hr' := (State.receiving_iff s).mp hr
    rw [ih]
    · congr 2
      · rw [hcnt]
        rfl
      · apply BitVec.eq_of_toNat_eq
        simp [BitVec.toNat_add]
        omega
    · exact hp
    · rw [State.receiving_iff]
      exact hr'
    · exact Memory.spans_write hs hlt
    · exact hl
    · show (s.rxCnt + 1).toNat + bs.length ≤ s.rxbLen.toNat
      omega

/-- Excess bytes are discarded (R133). -/
theorem writeBytes_of_full {s : State} (bs : List Byte) (hp : s.panic = none) (hr : s.receiving = true)
    (hl : s.hwRecvLen.toNat ≤ s.rxCnt.toNat) (hn : bs ≠ []) :
    writeBytes bs s = .next { s with rxOver := true } := by
  induction bs generalizing s with
  | nil => exact absurd rfl hn
  | cons b bs ih =>
    rw [writeBytes, busWbyte, if_neg (by simp [hr]), if_neg (by omega), andThen_of_live (by exact hp)]
    by_cases h : bs = []
    · rw [h, writeBytes]
    · rw [ih (by exact hp) (by exact (State.receiving_iff _).mpr ((State.receiving_iff s).mp hr))
        (by exact hl) h]

/-- The bytes of a master write longer than the receive buffer: the first that fit, then the overflow
(R133, R99 case 5). -/
theorem writeBytes_of_overflow {s : State} (bs : List Byte) (hp : s.panic = none)
    (hr : s.receiving = true) (hs : Memory.spans s.rxb s.rxbLen.toNat = true)
    (hl : s.hwRecvLen = s.rxbLen) (hc : s.rxCnt.toNat ≤ s.rxbLen.toNat)
    (hn : s.rxbLen.toNat < s.rxCnt.toNat + bs.length) :
    writeBytes bs s = .next { s with
      rxb := Memory.writeList s.rxb s.rxCnt.toNat (bs.take (s.rxbLen.toNat - s.rxCnt.toNat))
      rxCnt := s.rxbLen, rxOver := true } := by
  induction bs generalizing s with
  | nil => simp only [List.length_nil] at hn; omega
  | cons b bs ih =>
    simp only [List.length_cons] at hn
    by_cases hlt : s.rxCnt.toNat < s.rxbLen.toNat
    · have hread := Memory.read_of_spans hs hlt
      have hw : busWbyte b s = .next { s with
          rxb := Memory.write s.rxb s.rxCnt.toNat b, rxCnt := s.rxCnt + 1 } := by
        simp [busWbyte, hr, hl, hlt, hread]
      have hlen := s.rxbLen.isLt
      have hcnt : (s.rxCnt + 1).toNat = s.rxCnt.toNat + 1 := by
        rw [BitVec.toNat_add]
        simp
        omega
      rw [writeBytes, hw, andThen_of_live (by exact hp),
        ih (by exact hp) (by exact (State.receiving_iff _).mpr ((State.receiving_iff s).mp hr))
          (by exact Memory.spans_write hs hlt) (by exact hl)
          (by show (s.rxCnt + 1).toNat ≤ s.rxbLen.toNat; omega)
          (by show s.rxbLen.toNat < (s.rxCnt + 1).toNat + bs.length; omega)]
      simp only [hcnt]
      rw [show s.rxbLen.toNat - s.rxCnt.toNat = s.rxbLen.toNat - (s.rxCnt.toNat + 1) + 1 by omega,
        List.take_succ_cons]
      rfl
    · have he : s.rxCnt = s.rxbLen := BitVec.eq_of_toNat_eq (by omega)
      rw [writeBytes_of_full _ hp hr (by rw [hl]; omega) (by simp), he, Nat.sub_self, ← he]
      rfl

/-- The bytes of a master read (R134): SB from `tx_cnt`, then zeros. -/
theorem readBytes_of_live {s : State} (n : Nat) (hp : s.panic = none) (hr : s.sending = true)
    (hs : Memory.spans s.sb s.sbLen.toNat = true) (hl : s.hwSendLen = s.sbLen)
    (hn : s.txCnt.toNat + n ≤ lenMax) :
    readBytes n s = .next { s with
      txCnt := s.txCnt + BitVec.ofNat 16 n
      out := s.out ++ (List.range n).map fun i =>
        .wire ((Memory.read s.sb (s.txCnt.toNat + i)).getD 0x00) } := by
  induction n generalizing s with
  | zero => simp [readBytes]
  | succ n ih =>
    have hlm : lenMax = 65535 := rfl
    have hcnt : (s.txCnt + 1).toNat = s.txCnt.toNat + 1 := by
      rw [BitVec.toNat_add]
      simp
      omega
    have hw : busRbyte s = .next { s with
        txCnt := s.txCnt + 1
        out := s.out ++ [.wire ((Memory.read s.sb s.txCnt.toNat).getD 0x00)] } := by
      by_cases hlt : s.txCnt.toNat < s.sbLen.toNat
      · have hread := Memory.read_of_spans hs hlt
        simp [busRbyte, State.sendByte, hr, hl, hlt, hread, show s.txCnt.toNat ≠ lenMax by omega, State.emit]
      · have hread := Memory.read_none_of_spans hs (Nat.le_of_not_lt hlt)
        simp [busRbyte, State.sendByte, hr, hl, hlt, hread, show s.txCnt.toNat ≠ lenMax by omega, State.emit,
          txUnderrun]
    rw [readBytes, hw, andThen_of_live (by simpa using hp)]
    have hr' := (State.sending_iff s).mp hr
    rw [ih]
    · congr 2
      · apply BitVec.eq_of_toNat_eq
        simp [BitVec.toNat_add]
        omega
      · show (s.out ++ _) ++ _ = _
        rw [List.append_assoc]
        congr 1
        rw [List.range_succ_eq_map, List.map_cons, List.map_map, List.singleton_append]
        congr 1
        apply List.map_congr_left
        intro i _
        simp only [Function.comp_apply]
        rw [hcnt, show s.txCnt.toNat + 1 + i = s.txCnt.toNat + i.succ by omega]
    · exact hp
    · rw [State.sending_iff]
      exact hr'
    · exact hs
    · exact hl
    · show (s.txCnt + 1).toNat + n ≤ lenMax
      omega

end Sys2Proof.Machine
end

