-- ==== Sys2Proof/Laws/Frames.lean ====
section
/-! SUPPORT. Whole frames of the master to this slave's address, with the bus idle, as one equation each. -/

namespace Sys2Proof.Machine

/-- A start with this slave's address on an idle bus (R132). -/
theorem busStart_of_idle {s : State} (hp : s.panic = none) (hc : s.hwCommunicating = false) (a7 : BusAddr)
    (rw : BusDir) : busStart a7 rw s = if a7 = s.hwAddr then .next (s.begun rw) else .next s := by
  rw [busStart, hc, if_neg (by simp), andThen_of_live hp]

/-- The state in which `received` runs at the end of a master write that fits (R135, R173). -/
def State.frameDone (s : State) (f : List Byte) : State :=
  { s with
    hwCommunicating := false, hwDir := .write, rxCnt := BitVec.ofNat 16 f.length, txCnt := 0
    rxOver := false, hwResult := .received, hwLast := ⟨.receive, .rxb, BitVec.ofNat 16 f.length⟩
    rxb := Memory.writeList s.rxb 0 f }

/-- A whole master write that fits the receive buffer ends in `received` of all its bytes (R91, R173). -/
theorem masterWrite_of_fits {s : State} {f : List Byte} (hp : s.panic = none)
    (hc : s.hwCommunicating = false) (hs : Memory.spans s.rxb s.rxbLen.toNat = true)
    (hl : s.hwRecvLen = s.rxbLen) (hcb : s.hwCbSet = true) (hn : f.length ≤ s.rxbLen.toNat) :
    masterWrite s.hwAddr f s = received f.length (s.frameDone f) := by
  have hlen := s.rxbLen.isLt
  have hr : (s.begun .write).receiving = true := (State.receiving_iff _).mpr ⟨rfl, rfl⟩
  have hw := writeBytes_of_fits (s := s.begun .write) f hp hr hs hl (by
    show (0 : Len).toNat + f.length ≤ s.rxbLen.toNat
    simpa using hn)
  rw [masterWrite, busStart_of_idle hp hc, if_pos rfl, andThen_of_live (by exact hp),
    if_pos (show (s.begun .write).hwCommunicating = true from rfl), hw, andThen_of_live (by exact hp),
    busEnd, if_pos (show (s.begun .write).hwCommunicating = true from rfl),
    completeTransaction_write (by rfl) (by simp [State.begun]) (by exact hcb)]
  have h0 : (0 : Len) + BitVec.ofNat 16 f.length = BitVec.ofNat 16 f.length := BitVec.zero_add _
  have h1 : (BitVec.ofNat 16 f.length).toNat = f.length := by
    simp
    omega
  simp only [State.begun, h0, h1]
  rfl

/-- A whole master write longer than the receive buffer, up to its end (R99 case 5, R133). -/
theorem masterWrite_of_overflow {s : State} {f : List Byte} (hp : s.panic = none)
    (hc : s.hwCommunicating = false) (hs : Memory.spans s.rxb s.rxbLen.toNat = true)
    (hl : s.hwRecvLen = s.rxbLen) (hn : s.rxbLen.toNat < f.length) :
    masterWrite s.hwAddr f s = completeTransaction { s with
      hwCommunicating := true, hwDir := .write, rxCnt := s.rxbLen, txCnt := 0, rxOver := true
      rxb := Memory.writeList s.rxb 0 (f.take s.rxbLen.toNat) } := by
  have hz : (s.begun .write).rxCnt.toNat = 0 := rfl
  have hw := writeBytes_of_overflow (s := s.begun .write) f hp ((State.receiving_iff _).mpr ⟨rfl, rfl⟩) hs hl
    (by rw [hz]; exact Nat.zero_le _) (by rw [hz, Nat.zero_add]; exact hn)
  rw [masterWrite, busStart_of_idle hp hc, if_pos rfl, andThen_of_live (by exact hp),
    if_pos (show (s.begun .write).hwCommunicating = true from rfl), hw, andThen_of_live (by exact hp),
    busEnd, if_pos (show (s.begun .write).hwCommunicating = true from rfl)]
  rfl

/-- Under `nack` it ends as `NACKSent`, with no callback (R99 case 5, R135). -/
theorem masterWrite_of_refused {s : State} {f : List Byte} (hp : s.panic = none)
    (hc : s.hwCommunicating = false) (hs : Memory.spans s.rxb s.rxbLen.toNat = true)
    (hl : s.hwRecvLen = s.rxbLen) (hn : s.rxbLen.toNat < f.length) (ho : s.cfg.rxOverflow = .nack) :
    masterWrite s.hwAddr f s = .next { s with
      hwDir := .write, rxCnt := s.rxbLen, txCnt := 0, rxOver := true, hwResult := .nackSent
      rxb := Memory.writeList s.rxb 0 (f.take s.rxbLen.toNat) } := by
  rw [masterWrite_of_overflow hp hc hs hl hn]
  simp only [completeTransaction, ho, decide_true, Bool.and_true, if_true, hc]

/-- Under `truncate` it ends in `received` of the bytes that fit (R99 case 5, R135). -/
theorem masterWrite_of_truncated {s : State} {f : List Byte} (hp : s.panic = none)
    (hc : s.hwCommunicating = false) (hs : Memory.spans s.rxb s.rxbLen.toNat = true)
    (hl : s.hwRecvLen = s.rxbLen) (hcb : s.hwCbSet = true) (hn : s.rxbLen.toNat < f.length)
    (ho : s.cfg.rxOverflow ≠ .nack) :
    masterWrite s.hwAddr f s =
      received s.rxbLen.toNat { s.frameDone (f.take s.rxbLen.toNat) with rxOver := true } := by
  rw [masterWrite_of_overflow hp hc hs hl hn,
    completeTransaction_write (by rfl) (by exact fun h => ho h.2) (by exact hcb)]
  have h1 : (f.take s.rxbLen.toNat).length = s.rxbLen.toNat := by
    rw [List.length_take]
    omega
  simp only [State.frameDone, h1, BitVec.ofNat_toNat, BitVec.setWidth_eq]

/-- A whole master read (R92, R173). -/
theorem masterRead_of_idle {s : State} {n : Nat} (hp : s.panic = none) (hc : s.hwCommunicating = false)
    (hs : Memory.spans s.sb s.sbLen.toNat = true) (hl : s.hwSendLen = s.sbLen) (hcb : s.hwCbSet = true)
    (hn : n ≤ lenMax) :
    masterRead s.hwAddr n s = .next { s with
      hwDir := .read, rxCnt := 0, txCnt := BitVec.ofNat 16 n, rxOver := false, hwResult := .sent
      hwLast := ⟨.send, .sb, BitVec.ofNat 16 (min n s.sbLen.toNat)⟩
      out := s.out ++ (List.range n).map fun i => .wire ((Memory.read s.sb i).getD 0x00) } := by
  have hlm : lenMax = 65535 := rfl
  have hr : (s.begun .read).sending = true := (State.sending_iff _).mpr ⟨rfl, rfl⟩
  have hw := readBytes_of_live (s := s.begun .read) n hp hr hs hl (by
    show (0 : Len).toNat + n ≤ lenMax
    simpa using hn)
  rw [masterRead, busStart_of_idle hp hc, if_pos rfl, andThen_of_live (by exact hp),
    if_pos (show (s.begun .read).hwCommunicating = true from rfl), hw, andThen_of_live (by exact hp),
    busEnd, if_pos (show (s.begun .read).hwCommunicating = true from rfl),
    completeTransaction_read (by rfl) (by exact hcb)]
  have h0 : (0 : Len) + BitVec.ofNat 16 n = BitVec.ofNat 16 n := BitVec.zero_add _
  have h1 : (BitVec.ofNat 16 n).toNat = n := by
    simp
    omega
  have hcount : ∀ u : State, u.txCnt = BitVec.ofNat 16 n → u.hwSendLen = s.sbLen →
      u.sentCount = BitVec.ofNat 16 (min n s.sbLen.toNat) := by
    intro u h2 h3
    rw [← BitVec.toNat_inj, State.toNat_sentCount, h2, h3, h1]
    simp
    omega
  rw [hcount _ (by exact h0) (by exact hl)]
  have hz : (0 : Len).toNat = 0 := rfl
  simp only [State.begun, h0, hz, Nat.zero_add, hc]

/-! ## What the callbacks and the end of a transaction can change -/

theorem managerHook_frame {kind : HookKind} {pos len : Nat} {s t : State}
    (h : managerHook kind pos len s = .next t) : t = { s with out := t.out, panic := t.panic } := by
  rcases managerHook_cases kind pos len s with he | he | he
  all_goals
    rw [he] at h
    cases h
    rfl

/-- `refresh` changes SB only, panics and hook calls apart (R163). -/
theorem refresh_frame {s t : State} (h : refresh s = .next t) :
    t = { s with sb := t.sb, out := t.out, panic := t.panic } := by
  rcases refresh_cases s with ⟨-, he⟩ | ⟨-, -, -, he⟩
  · rw [he] at h
    cases h
    rfl
  · rw [he] at h
    rw [managerHook_frame h]
    rfl

/-- `received` changes RB, SB, `last_addr` and the cursor only, panics and hook calls apart; `last_addr`
takes an address inside the Register Buffer (R24 a, R166). -/
theorem received_frame {n : Nat} {s t : State} (h : received n s = .next t) :
    t = { s with rbPos := t.rbPos, draws := t.draws, lastAddr := t.lastAddr, rb := t.rb, sb := t.sb
                 out := t.out, panic := t.panic } ∧
      (t.lastAddr = s.lastAddr ∨ (s.rbPresent = true ∧ t.lastAddr.toNat < s.rbLen.toNat)) := by
  rcases received_cases n s with ⟨h1, h2, he⟩ | ⟨-, he⟩
  · rw [he] at h
    obtain ⟨u, hu, ht⟩ := andThen_eq_next_iff.mp h
    have hu' := managerHook_frame hu
    have hla : u.lastAddr = s.frameAddr n := by rw [hu']; rfl
    rcases ht with ⟨-, rfl⟩ | ⟨-, ht⟩
    · refine ⟨by rw [hu']; rfl, Or.inr ⟨h1, by rw [hla]; exact h2⟩⟩
    · have ht' := refresh_frame ht
      have hla' : t.lastAddr = s.frameAddr n := by rw [ht']; exact hla
      refine ⟨?_, Or.inr ⟨h1, by rw [hla']; exact h2⟩⟩
      rw [ht', hu']
      rfl
  · rw [he] at h
    cases h
    exact ⟨rfl, Or.inl rfl⟩

/-- What the end of a transaction can change (R135). -/
theorem completeTransaction_frame {s t : State} (h : completeTransaction s = .next t) :
    t = { s with hwCommunicating := false, hwResult := t.hwResult, hwLast := t.hwLast
                 rbPos := t.rbPos, draws := t.draws, lastAddr := t.lastAddr, rb := t.rb, sb := t.sb
                 out := t.out, panic := t.panic } ∧
      (t.lastAddr = s.lastAddr ∨ (s.rbPresent = true ∧ t.lastAddr.toNat < s.rbLen.toNat)) := by
  unfold completeTransaction at h
  simp only at h
  split at h
  · split at h
    · cases h
      exact ⟨rfl, Or.inl rfl⟩
    · unfold receiveDone at h
      simp only at h
      split at h
      · obtain ⟨h1, h2⟩ := received_frame h
        refine ⟨?_, h2⟩
        rw [h1]
      · cases h
        exact ⟨rfl, Or.inl rfl⟩
  · unfold sendDone at h
    simp only at h
    split at h
    · cases h
      exact ⟨rfl, Or.inl rfl⟩
    · cases h
      exact ⟨rfl, Or.inl rfl⟩

end Sys2Proof.Machine
end

