-- ==== Sys2Proof/Laws/Manager.lean ====
section
/-! SUPPORT. The manager's `update`, undisturbed: its first three steps as one state, the resizes, and the
whole where nothing can panic. -/

namespace Sys2Proof.Machine

/-- The state after steps 0 to 2 of an undisturbed `update` (R160). -/
def State.updateStarted (s : State) : State :=
  { s with
    rbPos := Config.freePos s.draws
    draws := s.draws + 1
    hwAddr := if s.cfgAddrDirty then s.cfgAddr else s.hwAddr
    cfgAddrDirty := false
    snap := some { result := s.hwResult, info := s.hwLast }
    hwResult := .wait
    ltRemaining :=
      if s.hwResult = .sent ∨ s.hwResult = .received then s.cfgTimeout else s.ltRemaining
    ltRunning := if s.hwResult = .sent ∨ s.hwResult = .received then true else s.ltRunning }

/-- What a host call finds there (R160). -/
theorem State.updateStarted_clearOut (s : State) : s.clearOut.updateStarted = s.polled := rfl

/-- An undisturbed `update` goes on with steps 3 and 4 from there (R160). -/
theorem managerUpdate_of_quiet {s : State} (hp : s.panic = none) (hq : s.preempt = []) :
    managerUpdate s = mainSteps [updateStep3, updateStep4] s.updateStarted := by
  have h0 : ∃ u, updateStep0 s = .next u ∧ u = { s with
      rbPos := Config.freePos s.draws, draws := s.draws + 1
      hwAddr := if s.cfgAddrDirty then s.cfgAddr else s.hwAddr, cfgAddrDirty := false } := by
    refine ⟨_, ?_, rfl⟩
    cases h : s.cfgAddrDirty <;>
      simp [updateStep0, State.cursorLost, State.drawn, State.withHwAddr, h]
  obtain ⟨u, hu, rfl⟩ := h0
  unfold managerUpdate
  rw [mainSteps_cons_of_quiet hu hp hq]
  refine Eq.trans (mainSteps_cons_of_quiet (f := updateStep1) (by rfl) (by exact hp) (by exact hq)) ?_
  refine mainSteps_cons_of_quiet (f := updateStep2) (t := s.updateStarted) ?_ hp hq
  cases h : s.hwResult <;>
    simp [updateStep2, State.snapCompleted, State.ltRestarted, State.ltAssigned, State.ltStarted,
      State.updateStarted, h]

/-- When a resize has its length (R162). -/
theorem State.resizeFails_eq_false_iff (s : State) (m cap : Nat) :
    s.resizeFails m cap = false ↔ m ≤ lenMax ∧ m ≤ cap ∧ s.allocFail.head? ≠ some true := by
  have h : s.allocFails = false ↔ s.allocFail.head? ≠ some true := by
    unfold State.allocFails
    cases s.allocFail <;> simp
  simp only [State.resizeFails, Bool.or_eq_false_iff, decide_eq_false_iff_not, h, Nat.not_lt, and_assoc]

/-- `resize_send` that has its length (R162). -/
theorem resizeSend_of_succeeds {s : State} {m : Nat} (hf : s.resizeFails m s.cfg.capTx = false)
    (hh : s.cfg.h ≤ m) :
    resizeSend m s = .next { s with
      sbLen := BitVec.ofNat 16 m, sb := resizedSend s.cfg.fhdr s.draws m
      hwSendBuf := some .sb, hwSendLen := BitVec.ofNat 16 m
      allocFail := s.allocFail.tail, draws := s.draws + 1 } := by
  rw [resizeSend, if_neg (by simp [hf]), if_neg (by omega)]
  rfl

/-- `resize_send` with a length below the frame header's: the header loop leaves SB (R65, log 15). -/
theorem resizeSend_of_short {s : State} {m : Nat} (hf : s.resizeFails m s.cfg.capTx = false)
    (hh : m < s.cfg.h) :
    resizeSend m s = .next { s with
      sbLen := BitVec.ofNat 16 m, sb := cutSend s.cfg.fhdr m, allocFail := s.allocFail.tail
      panic := some .outOfBounds } := by
  rw [resizeSend, if_neg (by simp [hf]), if_pos hh]
  rfl

/-- `resize_recv` that has its length (R162). -/
theorem resizeRecv_of_succeeds {s : State} {m : Nat} (hf : s.resizeFails m s.cfg.capRx = false) :
    resizeRecv m s = .next { s with
      rxbLen := BitVec.ofNat 16 m, rxb := resizedRecv s.draws m
      hwRecvBuf := some .rxb, hwRecvLen := BitVec.ofNat 16 m
      allocFail := s.allocFail.tail, draws := s.draws + 1 } := by
  rw [resizeRecv, if_neg (by simp [hf])]
  rfl

/-- The first half of step 3 where its resize, if one is due, has its length (R160, R162). -/
theorem syncSend_of_succeeds {s : State} (hf : s.sbLen.toNat = s.rbLen.toNat + s.cfg.h ∨
      s.resizeFails (s.rbLen.toNat + s.cfg.h) s.cfg.capTx = false) :
    ∃ t, syncSend s = .next t ∧
      t = { s with
        sbLen := t.sbLen, sb := t.sb, hwSendBuf := t.hwSendBuf, hwSendLen := t.hwSendLen
        allocFail := if s.sbLen.toNat = s.rbLen.toNat + s.cfg.h then s.allocFail else s.allocFail.tail
        draws := t.draws } ∧
      (if s.sbLen.toNat = s.rbLen.toNat + s.cfg.h then
        t.sbLen = s.sbLen ∧ t.sb = s.sb ∧ t.hwSendBuf = s.hwSendBuf ∧ t.hwSendLen = s.hwSendLen
      else sendResized s t) := by
  rw [syncSend]
  by_cases c : s.sbLen.toNat = s.rbLen.toNat + s.cfg.h
  · rw [if_neg (by simpa using c)]
    simp only [c, if_true]
    exact ⟨s, rfl, rfl, rfl, rfl, rfl, rfl⟩
  · have hf := hf.resolve_left c
    obtain ⟨hm, -⟩ := (State.resizeFails_eq_false_iff _ _ _).mp hf
    have hlm : lenMax = 65535 := rfl
    have e : (BitVec.ofNat 16 (s.rbLen.toNat + s.cfg.h)).toNat = s.rbLen.toNat + s.cfg.h := by
      simp
      omega
    rw [if_pos c, resizeSend_of_succeeds hf (by omega)]
    simp only [c, if_false]
    refine ⟨_, rfl, rfl, e, rfl, rfl, s.draws, fun x => ?_⟩
    rw [read_resizedSend, e]
    rfl

/-- The second half of step 3, the same (R160, R162). -/
theorem syncRecv_of_succeeds {s : State} (hf : s.rxbLen.toNat = s.rbLen.toNat + 1 ∨
      s.resizeFails (s.rbLen.toNat + 1) s.cfg.capRx = false) :
    ∃ t, syncRecv s = .next t ∧
      t = { s with
        rxbLen := t.rxbLen, rxb := t.rxb, hwRecvBuf := t.hwRecvBuf, hwRecvLen := t.hwRecvLen
        allocFail := if s.rxbLen.toNat = s.rbLen.toNat + 1 then s.allocFail else s.allocFail.tail
        draws := t.draws } ∧
      (if s.rxbLen.toNat = s.rbLen.toNat + 1 then
        t.rxbLen = s.rxbLen ∧ t.rxb = s.rxb ∧ t.hwRecvBuf = s.hwRecvBuf ∧ t.hwRecvLen = s.hwRecvLen
      else recvResized s t) := by
  rw [syncRecv]
  by_cases c : s.rxbLen.toNat = s.rbLen.toNat + 1
  · rw [if_neg (by simpa using c)]
    simp only [c, if_true]
    exact ⟨s, rfl, rfl, rfl, rfl, rfl, rfl⟩
  · have hf := hf.resolve_left c
    obtain ⟨hm, -⟩ := (State.resizeFails_eq_false_iff _ _ _).mp hf
    have hlm : lenMax = 65535 := rfl
    have e : (BitVec.ofNat 16 (s.rbLen.toNat + 1)).toNat = s.rbLen.toNat + 1 := by
      simp
      omega
    rw [if_pos c, resizeRecv_of_succeeds hf]
    simp only [c, if_false]
    refine ⟨_, rfl, rfl, e, rfl, rfl, s.draws, fun x => ?_⟩
    rw [read_resizedRecv, e]

/-- The lengths after step 3 (R160). -/
theorem lengths_of_synced {s t : State} (h : synced s t) :
    t.sbLen.toNat = s.rbLen.toNat + s.cfg.h ∧ t.rxbLen.toNat = s.rbLen.toNat + 1 := by
  obtain ⟨h1, h2⟩ := h
  constructor
  · split at h1
    · rename_i c
      rw [h1.1, c]
    · exact h1.1
  · split at h2
    · rename_i c
      rw [h2.1, c]
    · exact h2.1

/-- Step 3 where both resizes have their lengths (R160): what it can change, and the staging buffers after
it. -/
theorem updateStep3_of_canAllocate {s : State} (hp : s.panic = none) (hu : s.rbUsable = true)
    (hc : s.canAllocate = true) :
    ∃ t, updateStep3 s = .next t ∧ synced s t ∧
      t = { s with
        sbLen := t.sbLen, sb := t.sb, rxbLen := t.rxbLen, rxb := t.rxb
        hwSendBuf := t.hwSendBuf, hwSendLen := t.hwSendLen
        hwRecvBuf := t.hwRecvBuf, hwRecvLen := t.hwRecvLen, draws := t.draws } := by
  obtain ⟨ha, h1, h2, h3, h4⟩ := (State.canAllocate_iff s).mp hc
  obtain ⟨u, e1, e2, e3⟩ := syncSend_of_succeeds (s := s)
    (Or.inr ((State.resizeFails_eq_false_iff _ _ _).mpr ⟨h1, h2, by simp [ha]⟩))
  simp only [ha, List.tail_nil, ite_self] at e2
  rw [updateStep3, if_pos hu, e1, andThen_of_live (by rw [e2]; exact hp)]
  obtain ⟨t, f1, f2, f3⟩ := syncRecv_of_succeeds (s := u)
    (Or.inr ((State.resizeFails_eq_false_iff _ _ _).mpr ⟨by rw [e2]; exact h3, by rw [e2]; exact h4, by
      rw [e2]; simp⟩))
  have hu : u.allocFail = [] := by rw [e2]
  simp only [hu, List.tail_nil, ite_self] at f2
  refine ⟨t, f1, ⟨?_, ?_⟩, ?_⟩
  · rw [f2]
    exact e3
  · rw [e2] at f3
    exact f3
  · rw [f2, e2]
    simp only [ha]

/-- Step 3 where there is nothing to resize (R160). -/
theorem updateStep3_of_staged {s : State} (hp : s.panic = none)
    (h : s.rbUsable = false ∨
      (s.sbLen.toNat = s.rbLen.toNat + s.cfg.h ∧ s.rxbLen.toNat = s.rbLen.toNat + 1)) :
    updateStep3 s = .next s := by
  rw [updateStep3]
  by_cases hu : s.rbUsable = true
  · obtain ⟨h1, h2⟩ : s.sbLen.toNat = s.rbLen.toNat + s.cfg.h ∧ s.rxbLen.toNat = s.rbLen.toNat + 1 := by
      rcases h with h | h
      · simp [h] at hu
      · exact h
    rw [if_pos hu, syncSend, if_neg (by simpa using h1), andThen_of_live hp, syncRecv,
      if_neg (by simpa using h2)]
  · rw [if_neg hu]

/-- Step 4 behind its gate (R160). -/
theorem updateStep4_of_gated {s : State} (hp : s.panic = none)
    (h : (s.rbUsable && !s.hwCommunicating) = false) : updateStep4 s = .next { s with snap := none } := by
  rw [updateStep4, h, if_neg (by simp), andThen_of_live hp]

/-- Step 4 with the bus idle (R160, R163). -/
theorem updateStep4_of_ready {s : State} (hp : s.panic = none) (hu : s.rbUsable = true)
    (hc : s.hwCommunicating = false) (hl : s.sbLen.toNat = s.rbLen.toNat + s.cfg.h)
    (hr : s.canRefresh = true) :
    updateStep4 s = .next { s with
      snap := none, sb := Memory.writeList s.sb s.cfg.h s.refreshData
      out := s.out ++ managerCalls s.cfg .read s.lastAddr.toNat (s.rbLen.toNat - s.lastAddr.toNat) } := by
  obtain ⟨h1, -⟩ := (State.rbUsable_iff s).mp hu
  obtain ⟨h3, h4⟩ := (State.canRefresh_iff s).mp hr
  have hg : (s.rbUsable && !s.hwCommunicating) = true := by simp [hu, hc]
  rw [updateStep4, hg, if_pos rfl, refresh_of_ready hl h1 h3 h4, andThen_of_live (by exact hp)]

/-- What an undisturbed `update` that meets no panic condition can change (R160). -/
theorem managerUpdate_of_ready {s : State} (h : s.updateReady = true) :
    ∃ u, managerUpdate s = .next u ∧
      u = { s with
        hwAddr := u.hwAddr, cfgAddrDirty := u.cfgAddrDirty, hwResult := u.hwResult
        ltRemaining := u.ltRemaining, ltRunning := u.ltRunning, sbLen := u.sbLen, sb := u.sb
        rxbLen := u.rxbLen, rxb := u.rxb, hwSendBuf := u.hwSendBuf, hwSendLen := u.hwSendLen
        hwRecvBuf := u.hwRecvBuf, hwRecvLen := u.hwRecvLen, snap := u.snap, rbPos := u.rbPos
        draws := u.draws, out := u.out } := by
  obtain ⟨hp, hq, hr⟩ := (State.updateReady_iff s).mp h
  rw [managerUpdate_of_quiet hp hq]
  by_cases hu : s.rbUsable = true
  · obtain ⟨hca, hcr⟩ := hr hu
    obtain ⟨v, h1, h3, h2⟩ :=
      updateStep3_of_canAllocate (s := s.updateStarted) (by exact hp) (by exact hu) (by exact hca)
    have hvp : v.panic = none := by rw [h2]; exact hp
    have hvq : v.preempt = [] := by rw [h2]; exact hq
    have hvu : v.rbUsable = true := by
      rw [State.rbUsable_iff] at hu ⊢
      rw [h2]
      exact hu
    rw [mainSteps_cons_of_quiet h1 hvp hvq, mainSteps_one]
    by_cases hc : s.hwCommunicating = true
    · rw [updateStep4_of_gated hvp (by rw [h2]; simp [State.updateStarted, hc])]
      refine ⟨_, rfl, ?_⟩
      rw [h2]
      rfl
    · have hc' : s.hwCommunicating = false := by simpa using hc
      have hcr2 := (State.canRefresh_iff s).mp (hcr hc')
      rw [updateStep4_of_ready hvp hvu (by rw [h2]; exact hc')
        (by rw [(lengths_of_synced h3).1, h2])
        (by rw [State.canRefresh_iff, h2]; exact hcr2)]
      refine ⟨_, rfl, ?_⟩
      rw [h2]
      rfl
  · have hu' : s.rbUsable = false := by simpa using hu
    rw [mainSteps_cons_of_quiet (updateStep3_of_staged (by exact hp) (by exact Or.inl hu')) (by exact hp)
      (by exact hq), mainSteps_one, updateStep4_of_gated (by exact hp) (by
        rw [Bool.and_eq_false_iff]
        exact Or.inl hu')]
    exact ⟨_, rfl, rfl⟩

end Sys2Proof.Machine
end

