-- ==== Sys2Proof/Laws/Module.lean ====
section
/-! SUPPORT. The Module's operations, undisturbed: the header, the constants, `MOD_UPDATE`. -/

namespace Sys2Proof.Machine

/-- An operation that goes on with nothing is the operation. -/
theorem andThen_next (o : Result) : (andThen o fun s => .next s) = o := by
  cases o with
  | next s => cases h : s.panic <;> simp [andThen, h]
  | fault r => rfl
  | refused r => rfl

/-- RB after `write_header()` (R203). -/
def State.headerBytes (s : State) : Memory :=
  Memory.writeList (Memory.writeList s.rb 0 [s.cfg.sigFixed0, s.cfg.sigFixed1]) 2 [s.cfg.sigType]

/-- It differs from RB in the three signature bytes only (R203). -/
theorem read_headerBytes (s : State) (x : Nat) :
    Memory.read s.headerBytes x =
      if x = 0 then some s.cfg.sigFixed0 else if x = 1 then some s.cfg.sigFixed1
      else if x = 2 then some s.cfg.sigType else Memory.read s.rb x := by
  simp only [State.headerBytes, Memory.writeList, Memory.read_write]
  by_cases h0 : x = 0 <;> by_cases h1 : x = 1 <;> by_cases h2 : x = 2 <;> simp_all

/-- `write_header()` in bounds and undisturbed (R203). -/
theorem writeHeader_of_quiet {s : State} (hp : s.panic = none) (hq : s.preempt = [])
    (hh : hookSafe s.cfg .write = true) (hpr : s.rbPresent = true) (hl : 3 ≤ s.rbLen.toNat) :
    writeHeader s = .next { s with
      rb := s.headerBytes
      out := s.out ++ hookCalls s.cfg .write 0 2 ++ hookCalls s.cfg .write 2 1 } := by
  have h1 := rbWrite_of_quiet (s := s) (pos := 0) (len := 2) (v := [s.cfg.sigFixed0, s.cfg.sigFixed1]) hp
    hq hh (by rw [State.inBounds_iff]; exact ⟨hpr, by omega, by omega⟩) rfl
  unfold writeHeader
  refine Eq.trans (mainSteps_cons_of_quiet (by exact h1) (by exact hp) (by exact hq)) ?_
  exact rbWrite_of_quiet (pos := 2) (len := 1) (v := [s.cfg.sigType]) hp hq hh
    ((State.inBounds_iff _ _ _).mpr ⟨hpr, hl, hl⟩) rfl

/-- A bit of the status byte set in a bound buffer that has it, undisturbed (R115). -/
theorem statusBit_of_quiet {s : State} {b : Byte} {v : Bool} (hp : s.panic = none) (hq : s.preempt = [])
    (hh : hookSafe s.cfg .write = true) (hpr : s.rbPresent = true) (hl : 13 ≤ s.rbLen.toNat)
    (h7 : b.toNat ≤ 7) :
    rbBitSet statusPos b v s = .next { s with
      rb := Memory.write s.rb 12 (setBit (Memory.byte s.rb 12) b.toNat v)
      out := s.out ++ hookCalls s.cfg .write 12 1 } :=
  rbBitSet_of_quiet hp hq hh ((State.inBounds_iff _ _ _).mpr ⟨hpr, hl, hl⟩) h7

/-- The base constants writer adds nothing (R206). -/
theorem writeConstants_of_base {s : State} (h : s.cfg.constants = some []) : writeConstants s = .next s := by
  rw [writeConstants]
  simp only [h]
  rfl

/-- A constants writer that writes one run of bytes is that write (R206). -/
theorem writeConstants_of_bytes {s : State} {pos : Len} {v : List Byte}
    (h : s.cfg.constants = some [.bytes pos v]) : writeConstants s = rbWrite pos.toNat v.length v s := by
  rw [writeConstants]
  simp only [h]
  rfl

/-- Where nothing arrives, a constants writer leaves it so. -/
theorem preempt_of_writeConstants {s t : State} (hq : s.preempt = []) (h : writeConstants s = .next t) :
    t.preempt = [] := by
  have hi : RbInv s.rbLen.toNat fun u => u.rbLen.toNat = s.rbLen.toNat ∧ u.preempt = [] :=
    { rbLen_eq := fun _ h => h.1
      congr := fun u v h _ hl _ _ _ _ _ _ hp => by rw [hl, hp]; exact h
      storeRb := fun _ _ _ h _ => h
      preemptionPoint := Keeps.preemptionPoint_of_quiet fun _ h => h.2 }
  exact (hi.writeConstants s t ⟨rfl, hq⟩ h).2

/-- After an `update` that leaves the connection state changed, an undisturbed `MOD_UPDATE` rewrites the
signatures and Active, then runs the constants writer, then remembers the state (R205, R211). -/
theorem moduleUpdate_of_ready {s : State} (h : s.moduleReady = true) :
    ∃ u, managerUpdate s = .next u ∧
      u = { s with
        hwAddr := u.hwAddr, cfgAddrDirty := u.cfgAddrDirty, hwResult := u.hwResult
        ltRemaining := u.ltRemaining, ltRunning := u.ltRunning, sbLen := u.sbLen, sb := u.sb
        rxbLen := u.rxbLen, rxb := u.rxb, hwSendBuf := u.hwSendBuf, hwSendLen := u.hwSendLen
        hwRecvBuf := u.hwRecvBuf, hwRecvLen := u.hwRecvLen, snap := u.snap, rbPos := u.rbPos
        draws := u.draws, out := u.out } ∧
      (u.isConnected = s.prevConnected → moduleUpdate s = .next u) ∧
      (u.isConnected ≠ s.prevConnected → ∃ v, v = { u with
        rb := Memory.write s.headerBytes 12 (Memory.byte s.rb 12 ||| 0x01), out := v.out } ∧
        ∀ w, writeConstants v = .next w → moduleUpdate s =
          .next (if w.panic = none then { w with prevConnected := u.isConnected } else w)) := by
  obtain ⟨hr, hpr, hl, hh⟩ := (State.moduleReady_iff s).mp h
  obtain ⟨hp, hq, -⟩ := (State.updateReady_iff s).mp hr
  obtain ⟨u, h1, h2⟩ := managerUpdate_of_ready hr
  have hup : u.panic = none := by rw [h2]; exact hp
  have huq : u.preempt = [] := by rw [h2]; exact hq
  have hprev : u.prevConnected = s.prevConnected := by rw [h2]
  refine ⟨u, h1, h2, fun hc => ?_, fun hc => ?_⟩
  · rw [moduleUpdate, h1, andThenMain_of_quiet hup huq, andThenMain_of_quiet hup huq,
      if_neg (by rw [hprev]; simpa using hc), storeConnected, hc, ← hprev]
  · have g1 := writeHeader_of_quiet hup huq (by rw [h2]; exact hh) (by rw [h2]; exact hpr)
      (by rw [h2]; show 3 ≤ s.rbLen.toNat; omega)
    have g2 := statusBit_of_quiet (b := activeBit) (v := true) (s := { u with
        rb := u.headerBytes
        out := u.out ++ hookCalls u.cfg .write 0 2 ++ hookCalls u.cfg .write 2 1 }) hup huq
      (by rw [h2]; exact hh) (by rw [h2]; exact hpr) (by rw [h2]; exact hl) (by decide)
    have g4 := (mainSteps_cons_of_quiet (fs := [assertActive, writeConstants]) g1 hup huq).trans
      (mainSteps_cons_of_quiet (f := assertActive) (fs := [writeConstants]) g2 hup huq)
    rw [mainSteps_one] at g4
    have hb : Memory.byte u.headerBytes 12 = Memory.byte s.rb 12 := by
      apply Memory.byte_congr
      rw [read_headerBytes, h2]
      simp
    have hm : u.headerBytes = s.headerBytes := by rw [h2]; rfl
    simp only [hb, show activeBit.toNat = 0 from rfl, setBit_active] at g4
    rw [hm] at g4
    refine ⟨{ u with
      rb := Memory.write s.headerBytes 12 (Memory.byte s.rb 12 ||| 0x01)
      out := u.out ++ hookCalls u.cfg .write 0 2 ++ hookCalls u.cfg .write 2 1
        ++ hookCalls u.cfg .write 12 1 }, rfl, fun w hw => ?_⟩
    have hwq : w.preempt = [] := preempt_of_writeConstants (by exact huq) hw
    rw [moduleUpdate, h1, andThenMain_of_quiet hup huq, andThenMain_of_quiet hup huq,
      if_pos (by rw [hprev]; exact hc)]
    have hrw : rewriteConstants u = .next w := g4.trans hw
    by_cases hwp : w.panic = none
    · rw [if_pos hwp, mainSteps_cons_of_quiet hrw hwp hwq, mainSteps_one, storeConnected]
    · rw [if_neg hwp, mainSteps_cons_cons, hrw, andThenMain_of_panic hwp]

end Sys2Proof.Machine
end

