-- ==== Sys2Proof/Laws/Motor.lean ====
section
/-! SUPPORT. The MotorController's steps, undisturbed. -/

namespace Sys2Proof.Machine

/-- RB with the overcurrent state `x` shown in the status byte (R221, R223). -/
def State.encodedBytes (x : OverCurrent) (s : State) : Memory :=
  Memory.write s.rb 12 (maskBits (Memory.byte s.rb 12) s.cfg.ocMask (overCurrentBits s.cfg x))

/-- `set_oc(x)` in a bound buffer with a status byte, undisturbed (R223, R229). -/
theorem setOverCurrent_of_quiet {x : OverCurrent} {s : State} (hp : s.panic = none) (hq : s.preempt = [])
    (hh : hookSafe s.cfg .write = true) (hpr : s.rbPresent = true) (hl : 13 ≤ s.rbLen.toNat) :
    setOverCurrent x s = .next { s with
      mcOc := x
      rb := if s.mcOc = x then s.rb else s.encodedBytes x
      out := if s.mcOc = x then s.out else s.out ++ hookCalls s.cfg .write 12 1 } := by
  unfold setOverCurrent
  by_cases h : s.mcOc = x
  · simp only [h, if_true]
    rw [← h]
  · simp only [h, if_false]
    refine Eq.trans (mainSteps_cons_of_quiet (t := { s with mcOc := x }) rfl hp hq) ?_
    exact rbMask_of_quiet (s := { s with mcOc := x }) hp hq hh
      ((State.inBounds_iff _ _ _).mpr ⟨hpr, hl, hl⟩)

/-- No reset request: nothing (R224). -/
theorem resetRequest_of_clear {s : State} (hpr : s.rbPresent = true) (hl : 14 ≤ s.rbLen.toNat)
    (h7 : s.cfg.resetBit.toNat ≤ 7)
    (hr : (Memory.byte s.rb 13).getLsbD s.cfg.resetBit.toNat = false) :
    resetRequest s = .next s := by
  unfold resetRequest
  rw [rbBitGet_of_inBounds ((State.inBounds_iff s settingsPos 1).mpr ⟨hpr, hl, hl⟩) h7,
    show settingsPos = 13 from rfl, hr]
  rfl

/-- A reset request: the bit is cleared, the overcurrent state is `None`, the timer restarts (R224). -/
theorem resetRequest_of_set {s : State} (hp : s.panic = none) (hq : s.preempt = [])
    (hh : hookSafe s.cfg .write = true) (hpr : s.rbPresent = true) (hl : 14 ≤ s.rbLen.toNat)
    (h7 : s.cfg.resetBit.toNat ≤ 7)
    (hr : (Memory.byte s.rb 13).getLsbD s.cfg.resetBit.toNat = true) :
    ∃ t, resetRequest s = .next t ∧
      t = { s with
        mcOc := .none, ptRemaining := s.cfg.ptTimeout, ptRunning := true, rb := t.rb, out := t.out } ∧
      (∀ a, a ≠ 12 → Memory.read t.rb a =
        Memory.read (Memory.write s.rb 13 (setBit (Memory.byte s.rb 13) s.cfg.resetBit.toNat false)) a) ∧
      Memory.byte t.rb 12 = (if s.mcOc = .none then Memory.byte s.rb 12
        else (Memory.byte s.rb 12 &&& ~~~s.cfg.ocMask) ||| (s.cfg.ocNone &&& s.cfg.ocMask)) := by
  unfold resetRequest
  rw [rbBitGet_of_inBounds ((State.inBounds_iff s settingsPos 1).mpr ⟨hpr, hl, hl⟩) h7,
    show settingsPos = 13 from rfl, hr, if_pos rfl, andThenMain_of_quiet hp hq]
  have h1 := rbBitSet_of_quiet (s := s) (pos := 13) (b := s.cfg.resetBit) (v := false) hp hq hh
    ((State.inBounds_iff _ _ _).mpr ⟨hpr, hl, hl⟩) h7
  rw [mainSteps_cons_of_quiet (f := fun s => rbBitSet 13 s.cfg.resetBit false s) h1 hp hq,
    mainSteps_cons_of_quiet (setOverCurrent_of_quiet (x := .none) (s := { s with
      rb := Memory.write s.rb 13 (setBit (Memory.byte s.rb 13) s.cfg.resetBit.toNat false)
      out := s.out ++ hookCalls s.cfg .write 13 1 }) hp hq hh hpr (by show 13 ≤ s.rbLen.toNat; omega)) hp hq,
    mainSteps_one]
  refine ⟨_, rfl, rfl, fun a ha => ?_, ?_⟩
  · simp only [State.ptRestarted]
    split
    · rfl
    · rw [State.encodedBytes, Memory.read_write, if_neg ha]
  · have hb : ∀ b, Memory.byte (Memory.write s.rb 13 b) 12 = Memory.byte s.rb 12 := fun b =>
      Memory.byte_congr (by rw [Memory.read_write, if_neg (by decide)])
    simp only [State.ptRestarted]
    split
    · exact hb _
    · rw [State.encodedBytes, Memory.byte_of_read (Memory.read_write_same _ _ _), hb]
      rfl

/-- While the overcurrent state is `None` the drive mode follows the settings byte (R228). -/
theorem slaveToSettings_of_nominal {s : State} (hp : s.panic = none) (hq : s.preempt = [])
    (hh : hookSafe s.cfg .write = true) (hpr : s.rbPresent = true) (hl : 14 ≤ s.rbLen.toNat)
    (ho : s.mcOc = .none) :
    slaveToSettings s = .next { s with
      mcMode := selectMode s.cfg.modeRows s.cfg.modeElse (Memory.byte s.rb 13)
      rb := Memory.write s.rb 12 (Memory.byte s.rb 12 ||| 0x02)
      out := s.out ++ hookCalls s.cfg .write 12 1 } := by
  rw [slaveToSettings, if_pos ho]
  have h1 : slaveMode s = .next { s with
      mcMode := selectMode s.cfg.modeRows s.cfg.modeElse (Memory.byte s.rb 13) } := by
    rw [slaveMode, if_neg (by
      rw [(State.inBounds_iff s settingsPos 1).mpr ⟨hpr, hl, hl⟩]
      simp)]
    rfl
  rw [mainSteps_cons_of_quiet h1 hp hq, mainSteps_one, ← setBit_operational]
  exact statusBit_of_quiet hp hq hh hpr (by show 13 ≤ s.rbLen.toNat; omega) (by decide)

theorem slaveToSettings_of_overCurrent {s : State} (ho : s.mcOc ≠ .none) : slaveToSettings s = .next s := by
  rw [slaveToSettings, if_neg ho]

/-- `MC_UPDATE` after `MOD_UPDATE`, which leaves the controller's own variables and the settings byte
(R223). -/
theorem motorUpdate_of_ready {s : State} (h : s.motorReady = true) (i o v p : Current) :
    ∃ u, moduleUpdate s = .next u ∧
      u = { s with
        hwAddr := u.hwAddr, cfgAddrDirty := u.cfgAddrDirty, hwResult := u.hwResult
        ltRemaining := u.ltRemaining, ltRunning := u.ltRunning, sbLen := u.sbLen, sb := u.sb
        rxbLen := u.rxbLen, rxb := u.rxb, hwSendBuf := u.hwSendBuf, hwSendLen := u.hwSendLen
        hwRecvBuf := u.hwRecvBuf, hwRecvLen := u.hwRecvLen, snap := u.snap, rbPos := u.rbPos
        draws := u.draws, out := u.out, rb := u.rb, prevConnected := u.prevConnected } ∧
      (∀ a, 3 ≤ a → a ≠ 12 → Memory.read u.rb a = Memory.read s.rb a) ∧
      motorUpdate i o v p s =
        mainSteps [resetRequest, evaluateCurrent u.isConnected i o v p, slaveToSettings] u := by
  obtain ⟨hm, hcw, hl, h7⟩ := (State.motorReady_iff s).mp h
  obtain ⟨hr, -⟩ := (State.moduleReady_iff s).mp hm
  obtain ⟨hp, hq, -⟩ := (State.updateReady_iff s).mp hr
  obtain ⟨u, -, h2, h3, h4⟩ := moduleUpdate_of_ready hm
  have key : ∀ t : State, moduleUpdate s = .next t → t.panic = none → t.preempt = [] →
      motorUpdate i o v p s =
        mainSteps [resetRequest, evaluateCurrent t.isConnected i o v p, slaveToSettings] t := by
    intro t ht h1 h2
    rw [motorUpdate, ht, andThenMain_of_quiet h1 h2, andThenMain_of_quiet h1 h2]
  by_cases hc : u.isConnected = s.prevConnected
  · refine ⟨u, h3 hc, ?_, ?_, key u (h3 hc) (by rw [h2]; exact hp) (by rw [h2]; exact hq)⟩
    · rw [h2]
    · rw [h2]
      intros
      rfl
  · obtain ⟨v, h5, h6⟩ := h4 hc
    have hvp : v.panic = none := by rw [h5, h2]; exact hp
    have h7 := h6 v (writeConstants_of_base (by rw [h5, h2]; exact hcw))
    rw [if_pos hvp, h5] at h7
    obtain ⟨t, ht⟩ : ∃ t, t = { u with
        rb := Memory.write s.headerBytes 12 (Memory.byte s.rb 12 ||| 0x01), out := v.out
        prevConnected := u.isConnected } := ⟨_, rfl⟩
    replace h5 : moduleUpdate s = .next t := h7.trans (by rw [ht])
    replace h6 := ht
    refine ⟨t, h5, ?_, ?_, key t h5 (by rw [h6, h2]; exact hp) (by rw [h6, h2]; exact hq)⟩
    · rw [h6, h2]
    · intro a ha ha'
      rw [h6]
      simp only
      rw [Memory.read_write, if_neg ha', read_headerBytes, if_neg (by omega), if_neg (by omega),
        if_neg (by omega)]

end Sys2Proof.Machine
end

