-- ==== Sys2Proof/Laws/PerInstr.lean ====
section
/-! SUPPORT. Statements about every operation as syntax, one lemma for each constructor of Instr. -/

namespace Sys2Proof.Laws.RecordFront

/-- The record of an operation begins with the number of its row in spec/opcode_table.json, 1 to 48. -/
def Statement (i : Instr) : Prop :=
  ∃ rest : List Byte, encode i = i.opcode :: rest ∧ 1 ≤ i.opcode.toNat ∧ i.opcode.toNat ≤ 48

theorem mw (a7 : BusAddr) (frame : List Byte) :
    Statement (.mw a7 frame) :=
  ⟨_, rfl, Nat.le_of_ble_eq_true rfl, Nat.le_of_ble_eq_true rfl⟩

theorem mr (a7 : BusAddr) (n : Len) :
    Statement (.mr a7 n) :=
  ⟨_, rfl, Nat.le_of_ble_eq_true rfl, Nat.le_of_ble_eq_true rfl⟩

theorem mwr (a7 : BusAddr) (a : Byte) (n : Len) :
    Statement (.mwr a7 a n) :=
  ⟨_, rfl, Nat.le_of_ble_eq_true rfl, Nat.le_of_ble_eq_true rfl⟩

theorem busStart (a7 : BusAddr) (rw : BusDir) :
    Statement (.busStart a7 rw) :=
  ⟨_, rfl, Nat.le_of_ble_eq_true rfl, Nat.le_of_ble_eq_true rfl⟩

theorem busWbyte (b : Byte) :
    Statement (.busWbyte b) :=
  ⟨_, rfl, Nat.le_of_ble_eq_true rfl, Nat.le_of_ble_eq_true rfl⟩

theorem busRbyte :
    Statement (.busRbyte) :=
  ⟨_, rfl, Nat.le_of_ble_eq_true rfl, Nat.le_of_ble_eq_true rfl⟩

theorem busEnd :
    Statement (.busEnd) :=
  ⟨_, rfl, Nat.le_of_ble_eq_true rfl, Nat.le_of_ble_eq_true rfl⟩

theorem busAbort (kind : AbortKind) :
    Statement (.busAbort kind) :=
  ⟨_, rfl, Nat.le_of_ble_eq_true rfl, Nat.le_of_ble_eq_true rfl⟩

theorem hwCommunicating :
    Statement (.hwCommunicating) :=
  ⟨_, rfl, Nat.le_of_ble_eq_true rfl, Nat.le_of_ble_eq_true rfl⟩

theorem hwResult :
    Statement (.hwResult) :=
  ⟨_, rfl, Nat.le_of_ble_eq_true rfl, Nat.le_of_ble_eq_true rfl⟩

theorem hwLastTransaction :
    Statement (.hwLastTransaction) :=
  ⟨_, rfl, Nat.le_of_ble_eq_true rfl, Nat.le_of_ble_eq_true rfl⟩

theorem hwSetCallbacks (receivedCb sentCb : Bool) :
    Statement (.hwSetCallbacks receivedCb sentCb) :=
  ⟨_, rfl, Nat.le_of_ble_eq_true rfl, Nat.le_of_ble_eq_true rfl⟩

theorem hwSetAddress (addr : Byte) :
    Statement (.hwSetAddress addr) :=
  ⟨_, rfl, Nat.le_of_ble_eq_true rfl, Nat.le_of_ble_eq_true rfl⟩

theorem hwSetRecvbuffer (buf : BufId) (len : Len) :
    Statement (.hwSetRecvbuffer buf len) :=
  ⟨_, rfl, Nat.le_of_ble_eq_true rfl, Nat.le_of_ble_eq_true rfl⟩

theorem hwSetSendbuffer (buf : BufId) (len : Len) :
    Statement (.hwSetSendbuffer buf len) :=
  ⟨_, rfl, Nat.le_of_ble_eq_true rfl, Nat.le_of_ble_eq_true rfl⟩

theorem update :
    Statement (.update) :=
  ⟨_, rfl, Nat.le_of_ble_eq_true rfl, Nat.le_of_ble_eq_true rfl⟩

theorem connected :
    Statement (.connected) :=
  ⟨_, rfl, Nat.le_of_ble_eq_true rfl, Nat.le_of_ble_eq_true rfl⟩

theorem setTimeout (ticks : Ticks) :
    Statement (.setTimeout ticks) :=
  ⟨_, rfl, Nat.le_of_ble_eq_true rfl, Nat.le_of_ble_eq_true rfl⟩

theorem setAddress (busAddress : Len) :
    Statement (.setAddress busAddress) :=
  ⟨_, rfl, Nat.le_of_ble_eq_true rfl, Nat.le_of_ble_eq_true rfl⟩

theorem mgrConstruct (buf : Option Len) :
    Statement (.mgrConstruct buf) :=
  ⟨_, rfl, Nat.le_of_ble_eq_true rfl, Nat.le_of_ble_eq_true rfl⟩

theorem received (n : Len) :
    Statement (.received n) :=
  ⟨_, rfl, Nat.le_of_ble_eq_true rfl, Nat.le_of_ble_eq_true rfl⟩

theorem sent (n : Len) :
    Statement (.sent n) :=
  ⟨_, rfl, Nat.le_of_ble_eq_true rfl, Nat.le_of_ble_eq_true rfl⟩

theorem refresh :
    Statement (.refresh) :=
  ⟨_, rfl, Nat.le_of_ble_eq_true rfl, Nat.le_of_ble_eq_true rfl⟩

theorem resizeSend (m : Len) :
    Statement (.resizeSend m) :=
  ⟨_, rfl, Nat.le_of_ble_eq_true rfl, Nat.le_of_ble_eq_true rfl⟩

theorem resizeRecv (m : Len) :
    Statement (.resizeRecv m) :=
  ⟨_, rfl, Nat.le_of_ble_eq_true rfl, Nat.le_of_ble_eq_true rfl⟩

theorem rbWrite (place : Place) (len : Len) (v : List Byte) :
    Statement (.rbWrite place len v) :=
  ⟨_, rfl, Nat.le_of_ble_eq_true rfl, Nat.le_of_ble_eq_true rfl⟩

theorem rbRead (place : Place) (len : Len) :
    Statement (.rbRead place len) :=
  ⟨_, rfl, Nat.le_of_ble_eq_true rfl, Nat.le_of_ble_eq_true rfl⟩

theorem rbBitGet (pos : Len) (b : Byte) :
    Statement (.rbBitGet pos b) :=
  ⟨_, rfl, Nat.le_of_ble_eq_true rfl, Nat.le_of_ble_eq_true rfl⟩

theorem rbBitSet (pos : Len) (b : Byte) (v : Bool) :
    Statement (.rbBitSet pos b v) :=
  ⟨_, rfl, Nat.le_of_ble_eq_true rfl, Nat.le_of_ble_eq_true rfl⟩

theorem rbMask (pos : Len) (m v : Byte) :
    Statement (.rbMask pos m v) :=
  ⟨_, rfl, Nat.le_of_ble_eq_true rfl, Nat.le_of_ble_eq_true rfl⟩

theorem rbSeek (pos : Len) :
    Statement (.rbSeek pos) :=
  ⟨_, rfl, Nat.le_of_ble_eq_true rfl, Nat.le_of_ble_eq_true rfl⟩

theorem rbTyped (pos w : Len) (value : Option Nat) :
    Statement (.rbTyped pos w value) :=
  ⟨_, rfl, Nat.le_of_ble_eq_true rfl, Nat.le_of_ble_eq_true rfl⟩

theorem rbFill (v : Byte) :
    Statement (.rbFill v) :=
  ⟨_, rfl, Nat.le_of_ble_eq_true rfl, Nat.le_of_ble_eq_true rfl⟩

theorem ltStart :
    Statement (.ltStart) :=
  ⟨_, rfl, Nat.le_of_ble_eq_true rfl, Nat.le_of_ble_eq_true rfl⟩

theorem ltAssign (t : Ticks) :
    Statement (.ltAssign t) :=
  ⟨_, rfl, Nat.le_of_ble_eq_true rfl, Nat.le_of_ble_eq_true rfl⟩

theorem ltTick :
    Statement (.ltTick) :=
  ⟨_, rfl, Nat.le_of_ble_eq_true rfl, Nat.le_of_ble_eq_true rfl⟩

theorem ltExpired :
    Statement (.ltExpired) :=
  ⟨_, rfl, Nat.le_of_ble_eq_true rfl, Nat.le_of_ble_eq_true rfl⟩

theorem modConstruct (buf : Len) :
    Statement (.modConstruct buf) :=
  ⟨_, rfl, Nat.le_of_ble_eq_true rfl, Nat.le_of_ble_eq_true rfl⟩

theorem modUpdate :
    Statement (.modUpdate) :=
  ⟨_, rfl, Nat.le_of_ble_eq_true rfl, Nat.le_of_ble_eq_true rfl⟩

theorem modConnected :
    Statement (.modConnected) :=
  ⟨_, rfl, Nat.le_of_ble_eq_true rfl, Nat.le_of_ble_eq_true rfl⟩

theorem writeHeader :
    Statement (.writeHeader) :=
  ⟨_, rfl, Nat.le_of_ble_eq_true rfl, Nat.le_of_ble_eq_true rfl⟩

theorem writeConstants :
    Statement (.writeConstants) :=
  ⟨_, rfl, Nat.le_of_ble_eq_true rfl, Nat.le_of_ble_eq_true rfl⟩

theorem setId (id : Byte) :
    Statement (.setId id) :=
  ⟨_, rfl, Nat.le_of_ble_eq_true rfl, Nat.le_of_ble_eq_true rfl⟩

theorem setName (s : List Byte) (len : Len) :
    Statement (.setName s len) :=
  ⟨_, rfl, Nat.le_of_ble_eq_true rfl, Nat.le_of_ble_eq_true rfl⟩

theorem getLed :
    Statement (.getLed) :=
  ⟨_, rfl, Nat.le_of_ble_eq_true rfl, Nat.le_of_ble_eq_true rfl⟩

theorem getPower :
    Statement (.getPower) :=
  ⟨_, rfl, Nat.le_of_ble_eq_true rfl, Nat.le_of_ble_eq_true rfl⟩

theorem mcUpdate (iMeas imaxOff imaxVoltage imaxPwm : Current) :
    Statement (.mcUpdate iMeas imaxOff imaxVoltage imaxPwm) :=
  ⟨_, rfl, Nat.le_of_ble_eq_true rfl, Nat.le_of_ble_eq_true rfl⟩

theorem reset :
    Statement (.reset) :=
  ⟨_, rfl, Nat.le_of_ble_eq_true rfl, Nat.le_of_ble_eq_true rfl⟩

end Sys2Proof.Laws.RecordFront
end

