-- ==== Sys2Proof/Tests/Slice0.lean ====
section
/-! SUPPORT. The model's own tests: well-formedness refuses ill-formed operations; records written out from
the spec's encodings decode to their operations; single operations on small states give the results of
95_test_vectors.md (the vector is named in each test); and for every statement with hypotheses a state
and operands that meet them. -/

namespace Sys2Proof.Tests

open Sys2Proof.Machine

/-! ## Helpers -/

/-- The operation answers a next state of which `p` holds. -/
def gives (r : Result) (p : State → Bool) : Bool :=
  match r with
  | .next s => p s
  | _ => false

/-- The operation answers exactly this state. -/
def answers (r : Result) (t : State) : Bool := gives r fun u => decide (u = t)

/-- Config A of 95_test_vectors.md: `L = 16`, `H = 2`, `FHDR = [A5 5A]`, no Module. -/
def cfgA : Config := { resetConfig with hasModule := false }

/-- Config A booted. -/
def stA : State :=
  { State.resetOf cfgA with
    rb := Memory.ofBytes [0x10, 0x11, 0x12, 0x13, 0x14, 0x15, 0x16, 0x17, 0x18, 0x19, 0x1A, 0x1B, 0x1C,
      0x1D, 0x1E, 0x1F]
    sbLen := 18
    sb := Memory.ofBytes [0xA5, 0x5A, 0x10, 0x11, 0x12, 0x13, 0x14, 0x15, 0x16, 0x17, 0x18, 0x19, 0x1A,
      0x1B, 0x1C, 0x1D, 0x1E, 0x1F]
    rxbLen := 17
    rxb := Memory.ofBytes [0, 0, 0, 0, 0, 0, 0, 0, 0, 0, 0, 0, 0, 0, 0, 0, 0]
    hwSendBuf := some .sb
    hwSendLen := 18
    hwRecvBuf := some .rxb
    hwRecvLen := 17
    cfgTimeout := 100 }

/-- Config B of 95_test_vectors.md: `L = 4`, `H = 1`, `FHDR = [EE]`, no Module. -/
def cfgB : Config := { resetConfig with rbLen := 4, fhdr := [0xEE], hasModule := false }

/-- Config B booted. -/
def stB : State :=
  { State.resetOf cfgB with
    rb := Memory.ofBytes [0x0A, 0x0B, 0x0C, 0x0D]
    sbLen := 5
    sb := Memory.ofBytes [0xEE, 0x0A, 0x0B, 0x0C, 0x0D]
    rxbLen := 5
    rxb := Memory.ofBytes [0, 0, 0, 0, 0]
    hwSendBuf := some .sb
    hwSendLen := 5
    hwRecvBuf := some .rxb
    hwRecvLen := 5
    cfgTimeout := 10 }

/-- Config B in the middle of the master write `[01 55]` (T41-3). -/
def stBw : State :=
  { stB with hwCommunicating := true, rxb := Memory.ofBytes [0x01, 0x55, 0, 0, 0], rxCnt := 2 }

/-- Config B in the middle of a master read, one byte clocked. -/
def stBr : State := { stB with hwCommunicating := true, hwDir := .read, txCnt := 1 }

/-- Config B under `RX_OVERFLOW = nack`. -/
def stBn : State := { stB with cfg := { cfgB with rxOverflow := .nack } }

/-- Config B grown by the host to `L = 6` without an `update` (T42-8, T42-10). -/
def stG : State := { stB with rbLen := 6, rb := Memory.ofBytes [0x0A, 0x0B, 0x0C, 0x0D, 0x0E, 0x0F] }

/-- A Module on `L = 16` right after reset, with the status byte `03`. -/
def stM : State := State.reset

/-- A connected MotorController whose settings byte selects `Voltage` (T44-1). -/
def stMc : State :=
  { State.reset with
    rb := Memory.ofBytes [0x53, 0x45, 0x01, 0, 0, 0, 0, 0, 0, 0, 0, 0, 0x03, 0x01, 0, 0]
    ltRemaining := 100
    ltRunning := true
    prevConnected := true }

/-- P5 before its step 6: a Module whose SB shows the header. -/
def stId : State :=
  { stA with
    cfg := resetConfig
    rb := Memory.ofBytes [0x53, 0x45, 0x01, 0, 0, 0, 0, 0, 0, 0, 0, 0, 0x03, 0, 0, 0]
    sb := Memory.ofBytes [0xA5, 0x5A, 0x53, 0x45, 0x01, 0, 0, 0, 0, 0, 0, 0, 0, 0, 0x03, 0, 0, 0] }

/-- T44-1 after step 1: mode `Voltage`, the protection timer at 5. -/
def stMc1 : State := { stMc with mcMode := .voltage, ptRemaining := 5, ptRunning := true }

/-- T44-1 before step 4: the protection timer has run out. -/
def stMc4 : State := { stMc with mcMode := .voltage, ptRunning := true }

/-- T44-1 after step 4: `PWM`, the timer still run out. -/
def stMc5 : State :=
  { stMc with
    mcMode := .pwm
    mcOc := .pwm
    ptRunning := true
    rb := Memory.ofBytes [0x53, 0x45, 0x01, 0, 0, 0, 0, 0, 0, 0, 0, 0, 0x07, 0x01, 0, 0] }

/-- T44-1 before step 6: the master has set the reset bit. -/
def stMc6 : State :=
  { stMc5 with
    ptRemaining := 5
    rb := Memory.ofBytes [0x53, 0x45, 0x01, 0, 0, 0, 0, 0, 0, 0, 0, 0, 0x07, 0x81, 0, 0] }

/-- A module whose constants writer writes offset 15. -/
def cfgK : Config := { resetConfig with constants := some [.bytes 15 [0x2A]] }

/-- Config B with hooks registered as null pointers. -/
def stN : State := { stB with cfg := { cfgB with hasHook := true, readHookNull := true, writeHookNull := true } }

/-- A panicked block. -/
def stP : State := { stB with panic := some .outOfBounds }

/-! ## Well-formedness refuses -/

theorem test_illformed_frame_too_long (b : Byte) :
    (Instr.mw 0x20 (List.replicate 65536 b)).wellFormed = false := by
  rw [Instr.wellFormed, List.length_replicate]
  rfl

theorem test_illformed_write_length : (Instr.rbWrite .cursor 3 [1, 2]).wellFormed = false := by decide

theorem test_illformed_name_length : (Instr.setName [0x41] 2).wellFormed = false := by decide

theorem test_illformed_typed_value : (Instr.rbTyped 0 1 (some 256)).wellFormed = false := by decide

/-! ## Records decode to their operations -/

/-- The record decodes to the operation and the byte after it is left. -/
def reads (bs : List Byte) (i : Instr) : Bool :=
  match decode (bs ++ [0x99]) with
  | .ok (j, rest) => decide (j = i) && decide (rest = [0x99])
  | .error _ => false

/-- Wire of P1 step 1 `S 40 04 AA BB P`, of P1 step 2 `S 41 .. P`, and of a combined access (R101). -/
theorem test_decode_frames :
    reads [1, 0x40, 3, 0, 0x04, 0xAA, 0xBB] (.mw 0x20 [0x04, 0xAA, 0xBB]) = true ∧
    reads [2, 0x41, 6, 0] (.mr 0x20 6) = true ∧
    reads [3, 0x40, 0x02, 0x41, 4, 0] (.mwr 0x20 0x02 4) = true := by decide

/-- Address bytes of R94: 0x40 is a write to 0x20, 0x41 a read from it, 0xFF a read from 0x7F. -/
theorem test_decode_bus_events :
    reads [4, 0x40] (.busStart 0x20 .write) = true ∧ reads [4, 0x41] (.busStart 0x20 .read) = true ∧
    reads [4, 0xFF] (.busStart 0x7F .read) = true ∧ reads [5, 0x55] (.busWbyte 0x55) = true ∧
    reads [6] .busRbyte = true ∧ reads [7] .busEnd = true ∧
    reads [8, 1] (.busAbort .nackSent) = true ∧ reads [8, 2] (.busAbort .error) = true := by decide

theorem test_decode_hardware :
    reads [9] .hwCommunicating = true ∧ reads [10] .hwResult = true ∧
    reads [11] .hwLastTransaction = true ∧ reads [12, 1, 0] (.hwSetCallbacks true false) = true ∧
    reads [13, 0xA1] (.hwSetAddress 0xA1) = true ∧
    reads [14, 1, 0x11, 0x01] (.hwSetRecvbuffer .rxb 0x0111) = true ∧
    reads [15, 0, 0x12, 0x00] (.hwSetSendbuffer .sb 18) = true := by decide

theorem test_decode_manager :
    reads [16] .update = true ∧ reads [17] .connected = true ∧
    reads [18, 0x64, 0x00] (.setTimeout 100) = true ∧ reads [19, 0x80, 0x00] (.setAddress 0x80) = true ∧
    reads [20, 0] (.mgrConstruct none) = true ∧ reads [20, 1, 16, 0] (.mgrConstruct (some 16)) = true ∧
    reads [21, 5, 0] (.received 5) = true ∧ reads [22, 5, 0] (.sent 5) = true ∧
    reads [23] .refresh = true ∧ reads [24, 18, 0] (.resizeSend 18) = true ∧
    reads [25, 17, 0] (.resizeRecv 17) = true := by decide

theorem test_decode_register_buffer :
    reads [26, 0, 14, 0, 2, 0, 0x01, 0x02] (.rbWrite (.offset 14) 2 [0x01, 0x02]) = true ∧
    reads [26, 1, 1, 0, 0x07] (.rbWrite .cursor 1 [0x07]) = true ∧
    reads [27, 0, 0, 1, 16, 0] (.rbRead (.offset 256) 16) = true ∧
    reads [28, 12, 0, 7] (.rbBitGet 12 7) = true ∧ reads [29, 12, 0, 1, 0] (.rbBitSet 12 1 false) = true ∧
    reads [30, 13, 0, 0x0F, 0xA5] (.rbMask 13 0x0F 0xA5) = true ∧ reads [31, 15, 0] (.rbSeek 15) = true ∧
    reads [32, 14, 0, 2, 0, 0] (.rbTyped 14 2 none) = true ∧
    reads [32, 14, 0, 2, 0, 1, 0x34, 0x12] (.rbTyped 14 2 (some 0x1234)) = true ∧
    reads [33, 0xFF] (.rbFill 0xFF) = true := by decide

theorem test_decode_timer :
    reads [34] .ltStart = true ∧ reads [35, 7, 0] (.ltAssign 7) = true ∧ reads [36] .ltTick = true ∧
    reads [37] .ltExpired = true := by decide

theorem test_decode_module :
    reads [38, 16, 0] (.modConstruct 16) = true ∧ reads [39] .modUpdate = true ∧
    reads [40] .modConnected = true ∧ reads [41] .writeHeader = true ∧
    reads [42] .writeConstants = true ∧ reads [43, 7] (.setId 7) = true ∧
    reads [44, 2, 0, 0x41, 0x42] (.setName [0x41, 0x42] 2) = true ∧ reads [45] .getLed = true ∧
    reads [46] .getPower = true := by decide

theorem test_decode_motor_and_reset :
    reads [47, 100, 0, 0xFF, 0xFF, 0xF4, 1, 0xF4, 1] (.mcUpdate 100 0xFFFF 500 500) = true ∧
    reads [48] .reset = true := by decide

/-- A row number of no row, a cut record, a meaningless field, an empty stream. -/
theorem test_decode_refuses :
    decode [0] = .error (.unknownOperation 0) ∧ decode [49] = .error (.unknownOperation 49) ∧
    decode [5] = .error .truncated ∧ decode [1, 0x41, 0, 0] = .error .badField ∧
    decode [] = .error .noInput := by decide

/-- The first operation after reset is the one placed there. -/
theorem test_first_operation :
    gives (step (State.reset.withFetchWord 16 0x4004)) (fun t =>
      t.hwCommunicating && t.hwDir == .write && t.inbox.isEmpty) = true ∧
    answers (step State.reset) State.reset = true := by decide

/-- Memory after reset is in canonical form. -/
theorem test_reset_memory : Memory.wf State.reset.rb = true ∧ State.reset.wf = true := by decide

/-! ## Single operations -/

/-- T41-8. -/
theorem test_mw_overflow_truncates :
    gives (exec (.mw 0x20 [0x01, 0x21, 0x22, 0x23, 0x24, 0x25]) stB) (fun t =>
      t.rxb == Memory.ofBytes [0x01, 0x21, 0x22, 0x23, 0x24] && t.rxOver && t.hwResult == .received
        && t.hwLast == ⟨.receive, .rxb, 5⟩ && t.lastAddr == 1
        && t.rb == Memory.ofBytes [0x0A, 0x21, 0x22, 0x23]
        && t.sb == Memory.ofBytes [0xEE, 0x21, 0x22, 0x23, 0x00]) = true := by decide

/-- T41-9, T42-5. -/
theorem test_mw_refused_and_ignored :
    gives (exec (.mw 0x20 [0x01, 0x21, 0x22, 0x23, 0x24, 0x25]) stBn) (fun t =>
      t.hwResult == .nackSent && t.rb == stB.rb && t.sb == stB.sb && t.lastAddr == 0
        && t.hwLast == stB.hwLast) = true ∧
    gives (exec (.mw 0x20 [0x04, 0x99]) stB) (fun t =>
      t.hwResult == .received && t.rb == stB.rb && t.sb == stB.sb && t.lastAddr == 0) = true := by decide

/-- T41-6. -/
theorem test_mr_underrun :
    gives (exec (.mr 0x20 7) stB) (fun t =>
      wireBytes t.out == [0xEE, 0x0A, 0x0B, 0x0C, 0x0D, 0x00, 0x00] && t.hwResult == .sent
        && t.hwLast == ⟨.send, .sb, 5⟩) = true := by decide

/-- T41-11. -/
theorem test_mr_before_update :
    gives (exec (.mr 0x20 3) State.reset) (fun t =>
      wireBytes t.out == [0x00, 0x00, 0x00] && t.hwLast == ⟨.send, .sb, 0⟩) = true := by decide

/-- R101 with the bytes of T41-10. -/
theorem test_mwr_reads_from_its_address :
    gives (exec (.mwr 0x20 0x02 4) stB) (fun t =>
      wireBytes t.out == [0xEE, 0x0C, 0x0D, 0x00] && t.lastAddr == 2 && t.rb == stB.rb
        && t.hwLast == ⟨.send, .sb, 4⟩) = true := by decide

/-- T41-1, T41-2. -/
theorem test_start_matches_the_address :
    answers (exec (.busStart 0x21 .write) stB) stB = true ∧
    gives (exec (.busStart 0x20 .write) stB) (fun t =>
      t.hwCommunicating && t.hwDir == .write && t.rxCnt == 0 && t.hwResult == .wait) = true := by decide

/-- T41-10, the second start. -/
theorem test_repeated_start_completes_first :
    gives (exec (.busStart 0x20 .read) { stBw with rxb := Memory.ofBytes [2, 0, 0, 0, 0], rxCnt := 1 })
      (fun t => t.hwCommunicating && t.hwDir == .read && t.hwResult == .received
        && t.hwLast == ⟨.receive, .rxb, 1⟩ && t.lastAddr == 2
        && t.sb == Memory.ofBytes [0xEE, 0x0C, 0x0D, 0x00, 0x00]) = true := by decide

/-- T41-3, the second byte; and a byte beyond the buffer. -/
theorem test_wbyte :
    gives (exec (.busWbyte 0x55) { stBw with rxCnt := 1 }) (fun t =>
      t.rxb == Memory.ofBytes [0x01, 0x55, 0, 0, 0] && t.rxCnt == 2 && t.rb == stB.rb) = true ∧
    gives (exec (.busWbyte 0x77) { stBw with rxCnt := 5 }) (fun t =>
      t.rxb == stBw.rxb && t.rxCnt == 5 && t.rxOver) = true := by decide

/-- R99 cases 5 and 6 with lengths handed over that exceed the staging buffers (log 15). -/
theorem test_bytes_beyond_the_staging_buffers :
    gives (exec (.busWbyte 0x77) { stBw with rxCnt := 5, hwRecvLen := 9 }) (fun t =>
      t.rxb == stBw.rxb && t.rxCnt == 5 && t.rxOver) = true ∧
    gives (exec .busRbyte { stBr with txCnt := 5, hwSendLen := 9 }) (fun t =>
      t.out == [.wire 0x00] && t.txCnt == 6) = true := by decide

/-- T41-6, its second byte. -/
theorem test_rbyte :
    gives (exec .busRbyte stBr) (fun t => t.out == [.wire 0x0A] && t.txCnt == 2) = true := by decide

/-- T41-4. -/
theorem test_end_of_a_write :
    gives (exec .busEnd stBw) (fun t =>
      t.hwResult == .received && t.hwLast == ⟨.receive, .rxb, 2⟩ && t.lastAddr == 1
        && t.rb == Memory.ofBytes [0x0A, 0x55, 0x0C, 0x0D]
        && t.sb == Memory.ofBytes [0xEE, 0x55, 0x0C, 0x0D, 0] && !t.hwCommunicating) = true := by decide

/-- T42-10, T60-2. -/
theorem test_end_panics :
    gives (exec .busEnd { stG with hwCommunicating := true, rxb := Memory.ofBytes [0, 1, 0, 0, 0], rxCnt := 2 })
      (fun t => t.panic == some .outOfBounds && t.hwResult == .received
        && Memory.read t.rb 0 == some 0x01 && t.lastAddr == 0) = true ∧
    gives (exec .busEnd { stBw with hwCbSet := false }) (fun t =>
      t.panic == some .nullCallback && t.hwResult == .received && t.rb == stB.rb) = true := by decide

/-- T41-5. -/
theorem test_abort :
    gives (exec (.busAbort .error) stBw) (fun t =>
      t.hwResult == .error && t.rb == stB.rb && t.sb == stB.sb && t.lastAddr == 0
        && t.hwLast == stB.hwLast && !t.hwCommunicating) = true := by decide

/-- T41-12 and R138, R139. -/
theorem test_hardware_queries :
    gives (exec .hwCommunicating stB) (fun t => t.out == [.bit false]) = true ∧
    gives (exec .hwCommunicating stBr) (fun t => t.out == [.bit true]) = true ∧
    gives (exec .hwResult { stB with hwResult := .error }) (fun t => t.out == [.result .error]) = true ∧
    gives (exec .hwLastTransaction { stB with hwLast := ⟨.receive, .rxb, 3⟩ }) (fun t =>
      t.out == [.info ⟨.receive, .rxb, 3⟩]) = true := by decide

/-- R140 to R143. -/
theorem test_hardware_setters :
    gives (exec (.hwSetCallbacks true false) stB) (fun t => !t.hwCbSet) = true ∧
    gives (exec (.hwSetAddress 0xA1) stB) (fun t => t.hwAddr == 0x21) = true ∧
    gives (exec (.hwSetRecvbuffer .rxb 3) stB) (fun t => t.hwRecvLen == 3 && t.hwSendLen == 5) = true ∧
    gives (exec (.hwSetSendbuffer .sb 3) stB) (fun t => t.hwSendLen == 3 && t.hwRecvLen == 5) = true := by
  decide

/-- T42-1. -/
theorem test_update_allocates_and_refreshes :
    gives (exec .update { State.reset with hwResult := .sent }) (fun t =>
      t.sbLen == 18 && t.rxbLen == 17 && t.hwResult == .wait && t.ltRunning
        && t.sb == Memory.ofBytes [0xA5, 0x5A, 0, 0, 0, 0, 0, 0, 0, 0, 0, 0, 0, 0, 3, 0, 0, 0]) = true := by
  decide

/-- T42-9 and T42-20. -/
theorem test_update_shrunk_and_interrupted :
    gives (exec .update { stA with
        lastAddr := 14
        rbLen := 8
        hwResult := .received
        rb := Memory.ofBytes [0x10, 0x11, 0x12, 0x13, 0x14, 0x15, 0x16, 0x17] }) (fun t =>
      t.panic == some .outOfBounds && t.hwResult == .wait && t.sbLen == 10 && t.rxbLen == 9) = true ∧
    gives (exec .update { stBr with preempt := [[], [.stop]] }) (fun t =>
      t.hwResult == .sent && t.ltRemaining == 0) = true := by decide

/-- X2. -/
theorem test_connected :
    gives (exec .connected { stB with ltRemaining := 1 }) (fun t => t.out == [.bit true]) = true ∧
    gives (exec .connected stB) (fun t => t.out == [.bit false]) = true := by decide

/-- T42-11, T42-14. -/
theorem test_manager_setters :
    gives (exec (.setTimeout 3) { stB with ltRemaining := 4 }) (fun t =>
      t.cfgTimeout == 3 && t.ltRemaining == 4) = true ∧
    gives (exec (.setAddress 0x80) stB) (fun t => t.panic == some .invalidArgument) = true ∧
    gives (exec (.setAddress 0x21) stB) (fun t =>
      t.cfgAddr == 0x21 && t.cfgAddrDirty && t.hwAddr == 0x20) = true := by decide

/-- R161. -/
theorem test_construct_manager :
    gives (exec (.mgrConstruct (some 4)) { stBr with lastAddr := 2, hwCbSet := false }) (fun t =>
      t.sbLen == 0 && t.rxbLen == 0 && t.lastAddr == 0 && t.hwCbSet && t.rbLen == 4
        && t.cfgTimeout == 0) = true := by decide

/-- T42-3, T42-4. -/
theorem test_received :
    gives (exec (.received 5) { stB with rxb := Memory.ofBytes [0, 1, 2, 3, 4] }) (fun t =>
      t.rb == Memory.ofBytes [1, 2, 3, 4] && t.sb == Memory.ofBytes [0xEE, 1, 2, 3, 4]) = true ∧
    gives (exec (.received 3) { stB with rxb := Memory.ofBytes [3, 0x99, 0x98, 0, 0] }) (fun t =>
      t.rb == Memory.ofBytes [0x0A, 0x0B, 0x0C, 0x99] && t.lastAddr == 3
        && t.sb == Memory.ofBytes [0xEE, 0x99, 0, 0, 0]) = true := by decide

/-- R167. -/
theorem test_sent : answers (exec (.sent 5) stB) stB = true := by decide

/-- T42-2, R163. -/
theorem test_refresh :
    gives (exec .refresh { stB with lastAddr := 2 }) (fun t =>
      t.sb == Memory.ofBytes [0xEE, 0x0C, 0x0D, 0, 0]) = true ∧
    gives (exec .refresh stG) (fun t => t.panic == some .outOfBounds && t.sb == stB.sb) = true := by decide

/-- R162, T42-15. -/
theorem test_resize :
    gives (exec (.resizeSend 7) stB) (fun t =>
      t.sbLen == 7 && t.hwSendLen == 7 && Memory.read t.sb 0 == some 0xEE && t.rxbLen == 5) = true ∧
    gives (exec (.resizeSend 7) { stB with cfg := { cfgB with capTx := 5 } }) (fun t =>
      t.panic == some .allocFailure && t.sbLen == 5) = true ∧
    gives (exec (.resizeRecv 7) stB) (fun t => t.rxbLen == 7 && t.hwRecvLen == 7 && t.sbLen == 5) = true := by
  decide

/-- R65: the header loop of a length below `H` leaves SB (log 15). -/
theorem test_resize_below_header :
    gives (exec (.resizeSend 1) stM) (fun t =>
      t.panic == some .outOfBounds && t.sb == Memory.ofBytes [0xA5] && t.hwSendLen == stM.hwSendLen) = true := by
  decide

/-- T40-1, T40-2. -/
theorem test_rb_write :
    gives (exec (.rbWrite (.offset 14) 2 [0x01, 0x02]) stA) (fun t =>
      Memory.read t.rb 14 == some 0x01 && Memory.read t.rb 15 == some 0x02
        && Memory.read t.rb 13 == some 0x1D && t.sb == stA.sb) = true ∧
    gives (exec (.rbWrite (.offset 14) 3 [0x01, 0x02, 0x03]) stA) (fun t =>
      t.panic == some .outOfBounds && t.rb == stA.rb) = true := by decide

/-- T42-23. -/
theorem test_rb_write_torn :
    gives (exec (.rbWrite (.offset 4) 2 [0xAA, 0xBB])
        { stA with preempt := [[.start 0x20 .write, .wbyte 0x04, .stop]] }) (fun t =>
      Memory.read t.sb 2 == some 0xAA && Memory.read t.sb 3 == some 0x15
        && Memory.read t.rb 5 == some 0xBB) = true := by decide

/-- T40-3 on four bytes, T40-4. -/
theorem test_rb_read :
    answers (exec (.rbRead (.offset 0) 4) stB) { stB with out := [.bytes [0x0A, 0x0B, 0x0C, 0x0D]] } = true ∧
    gives (exec (.rbRead (.offset 16) 0) stA) (fun t => t.panic == some .outOfBounds) = true := by decide

/-- T40-5, T40-6. -/
theorem test_rb_bit_get :
    gives (exec (.rbBitGet 12 1) stM) (fun t => t.out == [.bit true]) = true ∧
    gives (exec (.rbBitGet 12 2) stM) (fun t => t.out == [.bit false]) = true ∧
    gives (exec (.rbBitGet 12 8) stM) (fun t => t.panic == some .invalidArgument) = true := by decide

/-- T40-7, T40-14. -/
theorem test_rb_bit_set :
    gives (exec (.rbBitSet 12 1 false) stM) (fun t => Memory.read t.rb 12 == some 0x01) = true ∧
    gives (exec (.rbBitSet 1 0 true) { stBw with
        rb := Memory.ofBytes [0, 0, 0, 0]
        rxb := Memory.ofBytes [0x01, 0x80, 0, 0, 0]
        preempt := [[.stop]] }) (fun t => Memory.read t.rb 1 == some 0x01 && t.lastAddr == 1) = true := by
  decide

/-- T40-9, T40-10 (their bytes, in config B). -/
theorem test_rb_mask :
    gives (exec (.rbMask 3 0x0F 0xA5) { stB with rb := Memory.ofBytes [0, 0, 0, 0xF0] }) (fun t =>
      Memory.read t.rb 3 == some 0xF5) = true ∧
    gives (exec (.rbMask 3 0x00 0x12) { stB with rb := Memory.ofBytes [0, 0, 0, 0xFF] }) (fun t =>
      Memory.read t.rb 3 == some 0xFF) = true := by decide

/-- T40-11. -/
theorem test_rb_seek :
    gives (exec (.rbSeek 15) stA) (fun t => t.rbPos == 15) = true ∧
    gives (exec (.rbSeek 16) stA) (fun t => t.panic == some .outOfBounds) = true := by decide

/-- R62, R119: both byte orders. -/
theorem test_rb_typed :
    gives (exec (.rbTyped 1 2 (some 0x1234)) stB) (fun t =>
      t.rb == Memory.ofBytes [0x0A, 0x34, 0x12, 0x0D]) = true ∧
    gives (exec (.rbTyped 1 2 none) { stB with cfg := { cfgB with fieldEndian := .big } }) (fun t =>
      t.out == [.value 0x0B0C]) = true := by decide

/-- T40-12, T40-13. -/
theorem test_rb_fill :
    gives (exec (.rbFill 0x00) stB) (fun t => t.rb == Memory.ofBytes [0, 0, 0, 0]) = true ∧
    answers (exec (.rbFill 0x00) { stB with rbLen := 0, rb := [] }) { stB with rbLen := 0, rb := [] } = true := by
  decide

/-- R65, R111 with no buffer bound (log 37); with none and `L = 0`, R120. -/
theorem test_rb_fill_unbound :
    gives (exec (.rbFill 0x00) { stB with rbPresent := false }) (fun t =>
      t.panic == some .outOfBounds && t.rb == stB.rb) = true ∧
    gives (exec (.rbFill 0x00) { stB with rbPresent := false, rbLen := 0, rb := [] }) (fun t =>
      t.panic == none) = true := by decide

/-- T45-2, T45-3, T45-4, T45-1. -/
theorem test_timer :
    gives (exec .ltTick { stB with ltRemaining := 1, ltRunning := true }) (fun t => t.ltRemaining == 0) = true ∧
    gives (exec .ltTick { stB with ltRemaining := 7 }) (fun t => t.ltRemaining == 7) = true ∧
    gives (exec .ltStart { stB with ltRemaining := 1 }) (fun t => t.ltRunning && t.ltRemaining == 1) = true ∧
    gives (exec (.ltAssign 7) stB) (fun t => !t.ltRunning && t.ltRemaining == 7) = true ∧
    gives (exec .ltExpired stB) (fun t => t.out == [.bit true]) = true := by decide

/-- T43-1, T43-2. -/
theorem test_construct_module :
    gives (exec (.modConstruct 16) stM) (fun t =>
      t.rb == Memory.ofBytes [0, 0, 0, 0, 0, 0, 0, 0, 0, 0, 0, 0, 3, 0, 0, 0] && !t.prevConnected) = true ∧
    gives (exec (.modConstruct 12) stM) (fun t => t.panic == some .outOfBounds) = true := by decide

/-- T43-8, T43-9. -/
theorem test_module_update :
    gives (exec .modUpdate { stMc with rb := Memory.write stMc.rb 0 0xFF }) (fun t =>
      Memory.read t.rb 0 == some 0xFF && t.prevConnected) = true ∧
    gives (exec .modUpdate { stMc with
        ltRemaining := 0
        rb := Memory.write (Memory.write stMc.rb 0 0xFF) 12 0x02 }) (fun t =>
      t.rb == Memory.ofBytes [0x53, 0x45, 0x01, 0, 0, 0, 0, 0, 0, 0, 0, 0, 0x03, 0x01, 0, 0]
        && !t.prevConnected) = true := by decide

/-- R205, R206: module constants are written on a change and not on an unchanged cycle. -/
theorem test_module_update_constants :
    gives (exec .modUpdate { stMc with cfg := cfgK, ltRemaining := 0 }) (fun t =>
      Memory.read t.rb 15 == some 0x2A && !t.prevConnected) = true ∧
    gives (exec .modUpdate { stMc with cfg := cfgK }) (fun t => Memory.read t.rb 15 == some 0x00) = true := by
  decide

/-- R118: a null hook panics after the transfer. -/
theorem test_null_hook :
    gives (exec (.rbWrite .cursor 1 [0x77]) stN) (fun t =>
      t.panic == some .nullCallback && Memory.read t.rb 0 == some 0x77 && t.rbPos == 0) = true ∧
    gives (exec (.rbRead (.offset 0) 1) stN) (fun t =>
      t.panic == some .nullCallback && t.out == []) = true := by decide

/-- R204. -/
theorem test_module_connected : gives (exec .modConnected stMc) (fun t => t.out == [.bit true]) = true := by
  decide

/-- T43-7 and R206. -/
theorem test_header_and_constants :
    gives (exec .writeHeader stM) (fun t =>
      t.rb == Memory.ofBytes [0x53, 0x45, 0x01, 0, 0, 0, 0, 0, 0, 0, 0, 0, 3, 0, 0, 0]) = true ∧
    answers (exec .writeConstants stM) stM = true ∧
    gives (exec .writeConstants { stM with cfg := { resetConfig with constants := none } }) (fun t =>
      t.panic == some .nullCallback) = true := by decide

/-- T43-3. -/
theorem test_set_id :
    gives (exec (.setId 0x07) stM) (fun t =>
      t.rb == Memory.ofBytes [0, 0, 0, 7, 0, 0, 0, 0, 0, 0, 0, 0, 3, 0, 0, 0]) = true := by decide

/-- T43-5, T43-6. -/
theorem test_set_name :
    gives (exec (.setName [0x41, 0x42] 2)
        { stM with rb := Memory.ofBytes [0, 0, 0, 0, 0x4D, 0x4F, 0x54, 0x4F, 0x52, 0, 0, 0, 3, 0, 0, 0] })
      (fun t => t.rb == Memory.ofBytes [0, 0, 0, 0, 0x41, 0x42, 0x54, 0x4F, 0x52, 0, 0, 0, 3, 0, 0, 0])
      = true ∧
    gives (exec (.setName [0x41, 0x42, 0x43, 0x44, 0x45, 0x46, 0x47, 0x48, 0x49, 0x4A] 10) stM) (fun t =>
      t.rb == Memory.ofBytes [0, 0, 0, 0, 0x41, 0x42, 0x43, 0x44, 0x45, 0x46, 0x47, 0x48, 3, 0, 0, 0])
      = true := by decide

/-- R210, with the positions of the model's reset configuration. -/
theorem test_led_and_power :
    gives (exec .getLed { stM with rb := Memory.write stM.rb 14 0x01 }) (fun t => t.out == [.bit true]) = true ∧
    gives (exec .getPower { stM with rb := Memory.write stM.rb 14 0x01 }) (fun t => t.out == [.bit false])
      = true := by decide

/-- T44-1 steps 1 and 4. -/
theorem test_motor_steps :
    gives (exec (.mcUpdate 100 0xFFFF 500 500) stMc) (fun t =>
      t.mcMode == .voltage && t.mcOc == .none && t.ptRemaining == 5 && t.ptRunning) = true ∧
    gives (exec (.mcUpdate 600 0xFFFF 500 500) stMc4) (fun t =>
      t.mcMode == .pwm && t.mcOc == .pwm && Memory.read t.rb 12 == some 0x07) = true := by decide

/-- T44-1 steps 5b and 6. -/
theorem test_motor_off_and_reset_request :
    gives (exec (.mcUpdate 600 0xFFFF 500 500) stMc5) (fun t =>
      t.mcMode == .off && t.mcOc == .off && Memory.read t.rb 12 == some 0x09) = true ∧
    gives (exec (.mcUpdate 100 0xFFFF 500 500) stMc6) (fun t =>
      t.mcMode == .voltage && t.mcOc == .none && t.ptRemaining == 5
        && Memory.read t.rb 13 == some 0x01 && Memory.read t.rb 12 == some 0x03) = true := by decide

/-- T70-2, T60-1. -/
theorem test_reset :
    gives (exec .reset { stP with hwCommunicating := true }) (fun t =>
      !t.hwCommunicating && t.panic == none && t.sbLen == 0 && t.rxbLen == 0
        && t.rb == Memory.ofBytes [0, 0, 0, 0]) = true ∧
    gives (exec .update stP) (fun _ => true) = false := by decide

/-! ## The statements' hypotheses can be met

One theorem for each statement with hypotheses, named after it: all of them together, at a concrete state
and operands, each clause at a boundary of its range. -/

/-- The operation answers a state without a panic. -/
def live (r : Result) : Bool := gives r fun t => decide (t.panic = none)

theorem test_meets_EveryOperationDecodesFromItsRecord (b : Byte) :
    (Instr.mw 0x20 (List.replicate 65535 b)).wellFormed = true ∧
    (Instr.rbTyped 0 1 (some 255)).wellFormed = true ∧ (Instr.rbWrite .cursor 0 []).wellFormed = true := by
  refine ⟨?_, by decide, by decide⟩
  rw [Instr.wellFormed, List.length_replicate]
  rfl

theorem test_meets_ADecodedOperationHasOneRecord : decode [5, 0x55, 7] = .ok (.busWbyte 0x55, [7]) := by
  decide

theorem test_meets_AStepRunsTheDecodedOperation :
    (stB.rebind = none ∧ decode [16, 48] = .ok (.update, [48])) ∧
    (stP.panic ≠ none ∧ decode [48] = .ok (.reset, [])) := by decide

theorem test_meets_AStepBindsTheHostsBuffer :
    stB.panic = none ∧ (256 : Len).toNat ≤ stB.cfg.lMax.toNat ∧ (0 : Len).toNat ≤ stB.cfg.lMax.toNat := by
  decide

theorem test_meets_ResetGivesEveryVariableItsTableValue :
    stP.cfg.wf = true ∧ State.reset.cfg.wf = true := by decide

theorem test_meets_ResetStatesMeetTheInvariant : cfgB.wf = true := by decide

theorem test_meets_EveryStepKeepsTheInvariant :
    stB.wf = true ∧ gives (step { stB with inbox := [16] }) (fun t => t.inbox.isEmpty) = true ∧
    gives (step { stB with rebind := some ⟨true, 256⟩ }) (fun t => t.rbLen == 256) = true := by decide

theorem test_meets_APanickedBlockOnlyResets : stP.panic = some .outOfBounds ∧ Instr.update ≠ .reset := by
  decide

theorem test_meets_LastAddrIsOnlyWrittenInRange :
    restartOp (.mw 0x20 [3]) = false ∧ stB.preempt = [] ∧
    gives (exec (.mw 0x20 [3]) stB) (fun t => t.lastAddr == 3) = true ∧
    gives (exec (.mw 0x20 [4]) stB) (fun t => t.lastAddr == 0) = true := by decide

theorem test_meets_HostAccessesLeaveTheSendBuffer :
    hostBufferOp (.rbFill 0xFF) = true ∧ stB.preempt = [] ∧ live (exec (.rbFill 0xFF) stB) = true := by
  decide

theorem test_meets_statements_about_a_live_block : stB.panic = none := by decide

theorem test_meets_ConnectedLastsExactlyTheTimeout :
    stB.panic = none ∧ 1 ≤ stB.cfgTimeout.toNat ∧ 1 ≤ ({ stB with cfgTimeout := 1 }).cfgTimeout.toNat := by
  decide

theorem test_meets_OutOfBoundsTransfersPanicFirst :
    stB.panic = none ∧ stB.inBounds 4 0 = false ∧ stB.inBounds 3 2 = false ∧ stB.inBounds 4 1 = false ∧
    ({ stB with rbPos := 3 }).inBounds 3 2 = false := by decide

theorem test_meets_WriteStoresItsBytesAndNothingElse :
    stB.quiet = true ∧ hookSafe stB.cfg .write = true ∧ stB.inBounds 3 1 = true ∧
    stB.inBounds 3 0 = true ∧ stB.inBounds 0 4 = true := by decide

theorem test_meets_ReadReturnsTheBytesAndChangesNothing :
    stB.wf = true ∧ stB.quiet = true ∧ hookSafe stB.cfg .read = true ∧ stB.inBounds 0 4 = true := by
  decide

/-- Both ends: the cursor that stays inside and the one that reaches the end. -/
theorem test_meets_CursorTransfersMoveTheCursor :
    stB.quiet = true ∧ hookSafe stB.cfg .write = true ∧ hookSafe stB.cfg .read = true ∧
    (stB.inBounds stB.rbPos.toNat 3 = true ∧ stB.rbPos.toNat + 3 < stB.rbLen.toNat) ∧
    (stB.inBounds stB.rbPos.toNat 4 = true ∧ ¬ stB.rbPos.toNat + 4 < stB.rbLen.toNat) := by decide

/-- For `BitGetReturnsTheBit`, `BitSetChangesOneBit` and `MaskChangesTheMaskedBits`. -/
theorem test_meets_BitSetChangesOneBit :
    stB.quiet = true ∧ hookSafe stB.cfg .write = true ∧ stB.inBounds 3 1 = true ∧
    (7 : Byte).toNat ≤ 7 ∧ 7 < (8 : Byte).toNat := by decide

theorem test_meets_BitSetLosesAWriteThatFallsBetween :
    ({ stBw with preempt := [[.stop]] }).panic = none ∧
    ({ stBw with preempt := [[.stop]] }).inBounds 3 1 = true ∧ (7 : Byte).toNat ≤ 7 ∧
    gives (deliver [.stop] stBw) (fun u => decide (u.panic = none) && !u.cfg.hasHook) = true := by decide

theorem test_meets_TypedReadReturnsTheTypedWrite :
    stB.wf = true ∧ stB.quiet = true ∧ hookSafe stB.cfg .write = true ∧ hookSafe stB.cfg .read = true ∧
    0xFFFF < 256 ^ (2 : Len).toNat ∧ stB.inBounds 2 2 = true ∧ stB.cfg.fieldEndian = .little ∧
    ({ cfgB with fieldEndian := .big }).fieldEndian = .big := by decide

theorem test_meets_FillSetsEveryByte :
    (stB.quiet = true ∧ stB.rbPresent = true) ∧
    (({ stB with rbLen := 0, rb := [], rbPresent := false }).quiet = true ∧ (0 : Len) = 0) ∧
    (({ stB with rbPresent := false }).quiet = true ∧ stB.rbLen ≠ 0) := by decide

theorem test_meets_StartBeginsATransaction :
    stB.panic = none ∧ stB.hwCommunicating = false ∧ stBw.hwCommunicating = true ∧
    live (exec .busEnd stBw) = true := by decide

/-- The last byte that fits, and the first that does not. -/
theorem test_meets_ReceivedByteIsStoredOrDiscarded :
    stBw.panic = none ∧ stBw.hwCommunicating = true ∧ stBw.hwDir = .write ∧
    ((4 : Len).toNat < stBw.hwRecvLen.toNat ∧ (Memory.read stBw.rxb 4).isSome = true) ∧
    stBw.hwRecvLen.toNat ≤ (5 : Len).toNat ∧ Memory.read stBw.rxb 5 = none := by decide

/-- The last byte of SB, the first beyond it, and the last count. -/
theorem test_meets_SentByteComesFromTheSendBuffer :
    stBr.panic = none ∧ stBr.hwCommunicating = true ∧ stBr.hwDir = .read ∧
    ((4 : Len).toNat < stBr.hwSendLen.toNat ∧ Memory.read stBr.sb 4 = some 0x0D) ∧
    stBr.hwSendLen.toNat ≤ (5 : Len).toNat ∧ Memory.read stBr.sb 5 = none ∧ (65534 : Len).toNat < 65535 := by decide

theorem test_meets_EndOfAWriteRunsReceived :
    stBw.panic = none ∧ stBw.hwCommunicating = true ∧ stBw.hwDir = .write ∧
    (({ stBw with rxOver := true }).rxOver = true ∧ stBn.cfg.rxOverflow = .nack) ∧
    (¬ (stBw.rxOver = true ∧ stBw.cfg.rxOverflow = .nack) ∧ stBw.hwCbSet = true) ∧
    ({ stBw with hwCbSet := false }).hwCbSet = false := by decide

theorem test_meets_EndOfAReadRecordsSent :
    stBr.panic = none ∧ stBr.hwCommunicating = true ∧ stBr.hwDir = .read := by decide

/-- Also for `AbortRecordsTheAnomalyOnly`. -/
theorem test_meets_DisabledBusEventsHaveNoStep :
    stBr.panic = none ∧ ¬ (stBr.hwCommunicating = true ∧ stBr.hwDir = .write) ∧
    ¬ (stBw.hwCommunicating = true ∧ stBw.hwDir = .read) ∧ stB.hwCommunicating = false := by decide

theorem test_meets_TrafficToAnotherSlaveChangesNothing :
    stB.panic = none ∧ stB.hwCommunicating = false ∧ (0x21 : BusAddr) ≠ stB.hwAddr := by decide

/-- A frame that fills the buffer; the last address inside and the first outside. -/
theorem test_meets_MasterWriteLandsInTheRegisterBuffer :
    stB.wf = true ∧ stB.booted = true ∧ stB.hwCommunicating = false ∧
    (3 : Byte).toNat < stB.rbLen.toNat ∧ ¬ (4 : Byte).toNat < stB.rbLen.toNat ∧
    (stBn.wf = true ∧ stBn.booted = true ∧ stBn.hwCommunicating = false ∧ stBn.cfg.rxOverflow = .nack ∧
      stBn.rxbLen.toNat < 1 + [1, 2, 3, 4, 5].length) := by decide

theorem test_meets_MasterReadReturnsTheSendBuffer :
    stB.wf = true ∧ stB.panic = none ∧ stB.hwCommunicating = false ∧ stB.hwCbSet = true ∧
    stB.hwSendLen = stB.sbLen := by decide

/-- For the last clause of `CombinedAccessReadsFromItsAddress`. -/
theorem test_meets_identification :
    stId.wf = true ∧ stId.booted = true ∧ stId.hwCommunicating = false ∧
    (16 : Len).toNat = stId.cfg.h + 14 ∧ 14 ≤ stId.rbLen.toNat := by decide

/-- P5 step 6, its read with the address set first (R201): 16 bytes are clocked for the 14 of the header. -/
theorem test_identifies_module :
    gives (exec (.mwr 0x20 0x00 16) stId) (fun t =>
      wireBytes t.out == [0xA5, 0x5A, 0x53, 0x45, 0x01, 0, 0, 0, 0, 0, 0, 0, 0, 0, 0x03, 0]) = true := by
  decide

/-- Also for `CombinedAccessReadsFromItsAddress`. -/
theorem test_meets_MasterReadsBackWhatItWrote :
    stB.wf = true ∧ stB.booted = true ∧ stB.hwCommunicating = false ∧
    1 + [1, 2, 3, 4].length ≤ stB.rxbLen.toNat ∧ stB.cfg.rxOverflow ≠ .nack ∧
    (3 : Byte).toNat < stB.rbLen.toNat := by decide

theorem test_meets_MasterTrafficNeverPanics :
    (stB.wf = true ∧ stB.booted = true ∧ masterCan (.mw 0x20 []) stB = true ∧
      (Instr.mw 0x20 []).wellFormed = true) ∧
    (stBw.wf = true ∧ stBw.booted = true ∧ masterCan (.busWbyte 0) stBw = true ∧
      masterCan .busEnd stBw = true ∧ masterCan (.busAbort .error) stBw = true) ∧
    (stBr.wf = true ∧ stBr.booted = true ∧ masterCan .busRbyte stBr = true) := by decide

/-- With staging buffers to resize and with staging buffers in place. -/
theorem test_meets_UpdateSynchronisesAndRefreshes :
    (State.reset.wf = true ∧ State.reset.updateReady = true ∧ State.reset.rbUsable = true ∧
      State.reset.hwCommunicating = false) ∧
    (stB.wf = true ∧ stB.updateReady = true ∧ stB.rbUsable = true ∧ stB.hwCommunicating = false) := by
  decide

/-- In flight on staged buffers, with no buffer bound, and in flight with a resize due (R283). -/
theorem test_meets_UpdateSkipsTheRefreshInFlight :
    (stBr.quiet = true ∧ stBr.staged = true ∧ stBr.hwCommunicating = true) ∧
    (({ stB with rbPresent := false }).quiet = true ∧ ({ stB with rbPresent := false }).rbUsable = false) ∧
    (({ stG with hwCommunicating := true }).quiet = true ∧ stG.rbUsable = true ∧
      ({ stG with hwCommunicating := true }).canAllocate = true ∧
      ({ stG with hwCommunicating := true }).hwCommunicating = true ∧ stG.staged = false) := by decide

/-- `CAP_TX` one byte short (T42-15), `CAP_RX` one byte short with the send buffer in place and with it resized
before, a second allocation that fails, a buffer shrunk to `last_addr`, staged and not (T42-9). -/
theorem test_meets_UpdatePanicsAfterItsEarlierSteps :
    (stG.quiet = true ∧ stG.rbUsable = true ∧ stG.sbLen.toNat ≠ stG.rbLen.toNat + stG.cfg.h ∧
      ({ cfgB with capTx := 6 }).capTx < stG.rbLen.toNat + stG.cfg.h ∧
      ({ stG with allocFail := [true] }).allocFail.head? = some true) ∧
    (({ stG with sbLen := 7 }).sbLen.toNat = stG.rbLen.toNat + stG.cfg.h ∧
      stG.rxbLen.toNat ≠ stG.rbLen.toNat + 1 ∧ ({ cfgB with capRx := 6 }).capRx < stG.rbLen.toNat + 1) ∧
    (stG.rbLen.toNat + stG.cfg.h ≤ stG.cfg.capTx ∧ stG.rbLen.toNat + stG.cfg.h ≤ 65535 ∧
      ({ stG with allocFail := [false, true] }).allocFail.head? ≠ some true ∧
      ({ stG with allocFail := [false, true] }).allocFail.tail.head? = some true) ∧
    (({ stB with lastAddr := 4 }).staged = true ∧ stB.hwCommunicating = false ∧
      stB.rbLen.toNat ≤ (4 : Byte).toNat) ∧
    (({ stG with lastAddr := 6 }).canAllocate = true ∧ stG.hwCommunicating = false ∧
      stG.rbLen.toNat ≤ (6 : Byte).toNat) := by decide

/-- A read and a write in flight; the three points. -/
theorem test_meets_CompletionAfterTheSnapshotStaysPending :
    (stBr.wf = true ∧ stBr.booted = true ∧ stBr.hwCommunicating = true ∧ stBr.hwDir = .read) ∧
    (stBw.wf = true ∧ stBw.booted = true ∧ stBw.hwCommunicating = true ∧ stBw.hwDir = .write) ∧
    List.replicate 1 [] ++ [[Interrupt.stop]] = [[], [.stop]] ∧
    List.replicate 3 [] ++ [[Interrupt.stop]] = [[], [], [], [.stop]] := by decide

theorem test_meets_SettersStoreForLater :
    stB.panic = none ∧ (0x7F : Len).toNat ≤ 0x7F ∧ 0x7F < (0x80 : Len).toNat := by decide

theorem test_meets_ConstructionResetsTheManager :
    stB.panic = none ∧ (256 : Len).toNat ≤ stB.cfg.lMax.toNat := by decide

/-- One byte and a full frame; the last address inside and the first outside. -/
theorem test_meets_ReceivedCopiesThenRefreshes :
    stB.wf = true ∧ stB.booted = true ∧ 1 ≤ (1 : Len).toNat ∧ (5 : Len).toNat ≤ stB.rxbLen.toNat ∧
    (Memory.read stB.rxb 0 = some 0 ∧ (0 : Byte).toNat < stB.rbLen.toNat) ∧
    (Memory.read (Memory.ofBytes [4, 0, 0, 0, 0]) 0 = some 4 ∧ ¬ (4 : Byte).toNat < stB.rbLen.toNat) := by
  decide

theorem test_meets_RefreshRewritesTheDataRegion :
    stB.wf = true ∧ stB.panic = none ∧ ({ stB with rbPresent := false }).rbPresent = false ∧
    (stB.sbLen.toNat = stB.rbLen.toNat + stB.cfg.h ∧ stB.rbUsable = true ∧
      ({ stB with lastAddr := 3 }).canRefresh = true) ∧
    (stG.wf = true ∧ stG.sbLen.toNat ≠ stG.rbLen.toNat + stG.cfg.h) ∧ stB.rbLen.toNat ≤ (4 : Byte).toNat := by
  decide

theorem test_meets_ResizeDiscardsTheContents :
    stB.panic = none ∧
    ((258 : Len).toNat ≤ stB.cfg.capTx ∧ stB.allocFail.head? ≠ some true ∧ stB.cfg.h ≤ (1 : Len).toNat) ∧
    (0 : Len).toNat < stB.cfg.h ∧
    (257 : Len).toNat ≤ stB.cfg.capRx ∧ stB.cfg.capTx < (259 : Len).toNat ∧
    stB.cfg.capRx < (258 : Len).toNat ∧
    ({ stB with allocFail := [true] }).allocFail.head? = some true := by decide

theorem test_meets_ModuleConstructionAssertsItsFlags :
    stM.quiet = true ∧ hookSafe stM.cfg .write = true ∧
    (13 ≤ (13 : Len).toNat ∧ (13 : Len).toNat ≤ stM.cfg.lMax.toNat) ∧ (12 : Len).toNat < 13 := by decide

/-- A cycle without a change and one with; the base constants writer and one that writes the last byte. -/
theorem test_meets_ConnectionChangeRewritesTheConstants :
    (stMc.wf = true ∧ stMc.moduleReady = true ∧
      gives (exec .update stMc) (fun u => u.isConnected == stMc.prevConnected) = true) ∧
    (({ stMc with ltRemaining := 0 }).wf = true ∧ ({ stMc with ltRemaining := 0 }).moduleReady = true ∧
      gives (exec .update { stMc with ltRemaining := 0 }) (fun u => u.isConnected != stMc.prevConnected)
        = true) ∧
    stMc.cfg.constants = some [] ∧ ({ stMc with cfg := cfgK, ltRemaining := 0 }).moduleReady = true ∧
    cfgK.constants = some [.bytes 15 [0x2A]] ∧ stMc.inBounds 15 [0x2A].length = true := by decide

theorem test_meets_HeaderIsThreeSignatureBytes :
    stM.wf = true ∧ stM.quiet = true ∧ hookSafe stM.cfg .write = true ∧ stM.rbPresent = true ∧
    3 ≤ stM.rbLen.toNat := by decide

theorem test_meets_ConstantsWriterWritesThroughTheBuffer :
    stM.panic = none ∧ stM.cfg.constants = some [] ∧
    ({ resetConfig with constants := none }).constants = none ∧
    ({ resetConfig with constants := some [.bytes 14 [1]] }).constants = some [.bytes 14 [1]] ∧
    ({ resetConfig with constants := some [.atCursor [1]] }).constants = some [.atCursor [1]] := by decide

theorem test_meets_SetIdWritesOffsetThree :
    stM.panic = none ∧ stM.preempt = [] ∧ hookSafe stM.cfg .write = true ∧ stM.inBounds 3 1 = true := by
  decide

/-- An empty name and one longer than the field. -/
theorem test_meets_SetNameWritesAtMostEightBytes :
    stM.quiet = true ∧ hookSafe stM.cfg .write = true ∧ stM.inBounds 4 (min 0 8) = true ∧
    stM.inBounds 4 (min 10 8) = true := by decide

theorem test_meets_LedAndPowerReadOneBit :
    stM.panic = none ∧
    (stM.inBounds stM.cfg.ledPos.toNat 1 = true ∧ stM.cfg.ledBit.toNat ≤ 7) ∧
    (stM.inBounds stM.cfg.powerPos.toNat 1 = true ∧ stM.cfg.powerBit.toNat ≤ 7) := by decide

/-- Slaved to the settings byte, and in an overcurrent state. -/
theorem test_meets_MotorFollowsTheSettingsWhileNominal :
    (stMc.wf = true ∧ stMc.motorReady = true ∧
      (Memory.byte stMc.rb 13).getLsbD stMc.cfg.resetBit.toNat = false ∧ stMc.mcOc = .none ∧
      gives (exec .modUpdate stMc) (fun u => !u.overCurrent u.isConnected 100 0xFFFF 500 500) = true) ∧
    (stMc5.wf = true ∧ stMc5.motorReady = true ∧
      (Memory.byte stMc5.rb 13).getLsbD stMc5.cfg.resetBit.toNat = false ∧ stMc5.mcOc ≠ .none ∧
      gives (exec .modUpdate stMc5) (fun u => !u.overCurrent u.isConnected 500 0xFFFF 500 500) = true) := by
  decide

/-- The timer running, run out in `None`, run out in `PWM`. -/
theorem test_meets_OvercurrentStepsWhenTheTimerHasRunOut :
    (stMc1.wf = true ∧ stMc1.motorReady = true ∧ stMc1.ptRemaining ≠ 0 ∧
      gives (exec .modUpdate stMc1) (fun u => u.overCurrent u.isConnected 501 0xFFFF 500 500) = true) ∧
    (stMc4.wf = true ∧ stMc4.motorReady = true ∧ stMc4.ptRemaining = 0 ∧ stMc4.mcOc = .none ∧
      gives (exec .modUpdate stMc4) (fun u => u.overCurrent u.isConnected 501 0xFFFF 500 500) = true) ∧
    (stMc5.wf = true ∧ stMc5.motorReady = true ∧ stMc5.ptRemaining = 0 ∧ stMc5.mcOc ≠ .none ∧
      gives (exec .modUpdate stMc5) (fun u => u.overCurrent u.isConnected 501 0xFFFF 500 500) = true) ∧
    (Memory.byte stMc5.rb 13).getLsbD stMc5.cfg.resetBit.toNat = false := by decide

theorem test_meets_ResetRequestRestoresTheMastersMode :
    stMc6.wf = true ∧ stMc6.motorReady = true ∧
    (Memory.byte stMc6.rb 13).getLsbD stMc6.cfg.resetBit.toNat = true ∧
    gives (exec .modUpdate stMc6) (fun u =>
      !({ u with mcOc := .none }).overCurrent u.isConnected 500 0xFFFF 500 500) = true ∧
    stMc6.cfg.ptTimeout ≠ 0 := by decide

/-- Both null hooks, a transfer up to the end. -/
theorem test_meets_ANullHookPanicsAfterTheTransfer :
    stN.quiet = true ∧ stN.cfg.hasHook = true ∧ stN.cfg.writeHookNull = true ∧
    stN.cfg.readHookNull = true ∧ stN.inBounds (placeOffset stN .cursor) 4 = true ∧
    stN.inBounds 3 1 = true ∧ (7 : Byte).toNat ≤ 7 ∧ 7 < (8 : Byte).toNat := by decide

end Sys2Proof.Tests
end

/-! # What one step keeps

A step runs the operation at the front of the input, or carries out the host's reconfiguration. The laws of
Laws/Buffers.lean say of each shared operation what it keeps while the Register Buffer has one length. Here
they are joined: over the dispatch to every operation that neither constructs nor resets, and then, with the
operations that bind another Register Buffer, over every step. -/

namespace Sys2Proof.Machine

/-! ## The operation a step runs -/

/-- The host does not act while it has nothing pending, nor in a panicked state (R240): the step is the
operation at the front of the input. -/
theorem step_eq_runNext {s : State} (h : s.rebind = none ∨ s.panic ≠ none) : step s = runNext s := by
  cases hb : s.rebind with
  | none => simp [step, hb]
  | some b =>
    obtain ⟨c, hc⟩ := Option.ne_none_iff_exists'.mp (h.resolve_left (by simp [hb]))
    simp [step, hb, hc]

/-- A pending reconfiguration comes first (R21, N7, log 9). -/
theorem step_eq_applyBinding {s : State} {b : Binding} (hb : s.rebind = some b) (hp : s.panic = none) :
    step s = applyBinding b s := by
  simp [step, hb, hp]

theorem runNext_of_decode {s : State} {i : Instr} {rest : List Byte}
    (h : decode s.inbox = .ok (i, rest)) : runNext s = exec i { s with inbox := rest } := by
  simp [runNext, h]

theorem whenIdle_eq_next_iff {s t : State} : whenIdle s = .next t ↔ s.panic = none ∧ t = s := by
  cases h : s.panic <;> simp [whenIdle, h, eq_comm]

/-- If the operation at the front of the input leads to a next state, it decoded and ran, or the input was
empty and nothing happened. -/
theorem runNext_eq_next {s t : State} (h : runNext s = .next t) :
    (∃ i rest, decode s.inbox = .ok (i, rest) ∧ exec i { s with inbox := rest } = .next t) ∨
      (s.panic = none ∧ t = s) := by
  unfold runNext at h
  split at h
  · exact .inl ⟨_, _, ‹_›, h⟩
  · exact .inr (whenIdle_eq_next_iff.mp h)
  · cases h

/-- What a step that leads to a next state has done: bound the host's buffer, or run the operation at the
front of the input. -/
theorem step_eq_next {s t : State} (h : step s = .next t) :
    (∃ b, s.rebind = some b ∧ s.panic = none ∧ applyBinding b s = .next t) ∨
      ((s.rebind = none ∨ s.panic ≠ none) ∧ runNext s = .next t) := by
  by_cases hfirst : s.rebind = none ∨ s.panic ≠ none
  · exact .inr ⟨hfirst, step_eq_runNext hfirst ▸ h⟩
  · obtain ⟨hb, hp⟩ := not_or.mp hfirst
    obtain ⟨b, hb⟩ := Option.ne_none_iff_exists'.mp hb
    exact .inl ⟨b, hb, not_not.mp hp, step_eq_applyBinding hb (not_not.mp hp) ▸ h⟩

/-! ## Every operation but construction and reset -/

/-- An operation that runs `f` under the precondition keeps what `f` keeps. -/
theorem Keeps.exec_of_whenLive {P : State → Prop} (hc : ∀ s, P s → P s.clearOut) {i : Instr}
    {f : State → Result} (hi : ∀ s, exec i s = Sys2Proof.Machine.whenLive s f) (hf : Keeps P f) :
    Keeps P (exec i) := by
  rw [funext hi]
  exact Keeps.whenLive hc hf

/-- While a Register Buffer of one length stays bound, every operation keeps what each change of the spaces
keeps, with any interrupt steps falling inside it. -/
theorem BufferInv.exec {n : Nat} {P : State → Prop} (h : BufferInv n P) :
    ∀ {i : Instr}, restartOp i = false → Keeps P (Sys2Proof.Machine.exec i) := by
  intro i hi
  have host := h.toHostInv
  have rb := host.toRbInv
  have live {i f} := Keeps.exec_of_whenLive (P := P) (i := i) (f := f) fun s hs =>
    h.congr s _ hs rfl rfl rfl rfl rfl rfl rfl
  have emits : ∀ o : State → Output, Keeps P fun s => .next (s.emit (o s)) := fun _ => h.next
  cases i with
  | mw a7 frame => exact live (exec_mw a7 frame) (h.masterWrite a7 frame)
  | mr a7 k => exact live (exec_mr a7 k) (h.masterRead a7 _)
  | mwr a7 a k =>
    exact live (exec_mwr a7 a k) (Keeps.andThen (h.masterWrite a7 [a]) (h.masterRead a7 _))
  | busStart a7 rw => exact live (exec_busStart a7 rw) (h.busStart a7 rw)
  | busWbyte b => exact live (exec_busWbyte b) (h.busWbyte b)
  | busRbyte => exact live exec_busRbyte h.busRbyte
  | busEnd => exact live exec_busEnd h.busEnd
  | busAbort kind => exact live (exec_busAbort kind) (h.busAbort kind)
  | hwCommunicating => exact live exec_hwCommunicating (emits _)
  | hwResult => exact live exec_hwResult (emits _)
  | hwLastTransaction => exact live exec_hwLastTransaction (emits _)
  | hwSetCallbacks r t => exact live (exec_hwSetCallbacks r t) h.next
  | hwSetAddress a => exact live (exec_hwSetAddress a) (h.next (u := State.withHwAddr _))
  | hwSetRecvbuffer buf len => exact live (exec_hwSetRecvbuffer buf len) h.next
  | hwSetSendbuffer buf len => exact live (exec_hwSetSendbuffer buf len) h.next
  | update => exact live exec_update host.managerUpdate
  | connected => exact live exec_connected (emits _)
  | setTimeout x => exact live (exec_setTimeout x) h.next
  | setAddress x =>
    exact live (exec_setAddress x)
      (Keeps.ite (c := fun _ => 0x7F < x.toNat) (h.raise .invalidArgument) h.next)
  | received k => exact live (exec_received k) (h.received _)
  | sent k => exact live (exec_sent k) (h.next (u := fun s => s))
  | refresh => exact live exec_refresh h.refresh
  | resizeSend m => exact live (exec_resizeSend m) (host.resizeSendOp _)
  | resizeRecv m => exact live (exec_resizeRecv m) (host.resizeRecvOp _)
  | rbWrite place len v => exact live (exec_rbWrite place len v) (rb.rbWriteAt place _ v)
  | rbRead place len =>
    refine live (exec_rbRead place len) fun s =>
      rb.rbRead _ _ (fun out => Keeps.next fun s hs => ?_) s
    exact emits (fun _ => .bytes out) _ _ (rb.advanceCursor place _ s hs) rfl
  | rbBitGet pos b =>
    exact live (exec_rbBitGet pos b) (rb.rbBitGet _ b fun v => emits fun _ => .bit v)
  | rbBitSet pos b v => exact live (exec_rbBitSet pos b v) (rb.rbBitSet _ b v)
  | rbMask pos m v => exact live (exec_rbMask pos m v) (rb.rbMask _ m v)
  | rbSeek pos => exact live (exec_rbSeek pos) (rb.rbSeek pos)
  | rbTyped pos w value =>
    cases value with
    | none => exact live (exec_rbTypedRead pos w) (rb.rbRead _ _ fun out => emits _)
    | some x => exact live (exec_rbTypedWrite pos w x) (rb.rbTypedWrite _ _ x)
  | rbFill v => exact live (exec_rbFill v) (rb.rbFill v)
  | ltStart => exact live exec_ltStart (h.next (u := State.ltStarted))
  | ltAssign x => exact live (exec_ltAssign x) (h.next (u := State.ltAssigned x))
  | ltTick => exact live exec_ltTick (h.next (u := State.ticked))
  | ltExpired => exact live exec_ltExpired (emits _)
  | modUpdate => exact live exec_modUpdate host.moduleUpdate
  | modConnected => exact live exec_modConnected (emits _)
  | writeHeader => exact live exec_writeHeader rb.writeHeader
  | writeConstants => exact live exec_writeConstants rb.writeConstants
  | setId id => exact live (exec_setId id) (rb.rbWrite _ _ _)
  | setName nm len => exact live (exec_setName nm len) (rb.rbWrite _ _ _)
  | getLed => exact live exec_getLed fun s => rb.rbBitGet _ _ (fun v => emits fun _ => .bit v) s
  | getPower => exact live exec_getPower fun s => rb.rbBitGet _ _ (fun v => emits fun _ => .bit v) s
  | mcUpdate i o v p => exact live (exec_mcUpdate i o v p) (host.motorUpdate i o v p)
  | mgrConstruct | modConstruct | reset => cases hi

/-! ## Every step -/

/-- `P` holds on across every change of the block: those that leave the length of the Register Buffer, and
those of a binding (R21), of the construction of the manager (R161) and of `RESET` (R270). -/
structure BlockInv (P : State → Prop) : Prop where
  bufferInv : ∀ n, BufferInv n fun s => P s ∧ s.rbLen.toNat = n
  bindBuffer : ∀ b, Keeps P (Sys2Proof.Machine.bindBuffer b)
  managerReset : ∀ s, P s → P s.managerReset
  afterReset : ∀ s, P s → P s.afterReset

/-- What is kept whichever length the Register Buffer has is kept. -/
theorem Keeps.of_forall_rbLen {P : State → Prop} {f : State → Result}
    (h : ∀ n, Keeps (fun s => P s ∧ s.rbLen.toNat = n) f) : Keeps P f :=
  fun s t hs ht => (h _ s t ⟨hs, rfl⟩ ht).1

namespace BlockInv

variable {P : State → Prop}

theorem congr (h : BlockInv P) {s t : State} (hs : P s) (h1 : t.cfg = s.cfg) (h2 : t.rbLen = s.rbLen)
    (h3 : t.rb = s.rb) (h4 : t.sbLen = s.sbLen) (h5 : t.sb = s.sb) (h6 : t.rxbLen = s.rxbLen)
    (h7 : t.rxb = s.rxb) : P t :=
  ((h.bufferInv _).congr s t ⟨hs, rfl⟩ h1 h2 h3 h4 h5 h6 h7).1

theorem constructManager (h : BlockInv P) (buf : Option Len) :
    Keeps P (Sys2Proof.Machine.constructManager buf) :=
  Keeps.andThen (h.bindBuffer _) (Keeps.next h.managerReset)

/-- Construction of a module: after the manager's, the operations on the buffer it has bound (R202). -/
theorem constructModule (h : BlockInv P) (buf : Len) :
    Keeps P (Sys2Proof.Machine.constructModule buf) := by
  have rb := fun n => (h.bufferInv n).toHostInv.toRbInv
  refine Keeps.mainSteps (.of_forall_rbLen fun n => (rb n).preemptionPoint) _ fun f hf => ?_
  simp only [List.mem_cons, List.not_mem_nil, or_false] at hf
  obtain rfl | rfl | rfl | rfl | rfl := hf
  · exact h.constructManager _
  · exact .of_forall_rbLen fun n => (rb n).rbFill _
  · exact .of_forall_rbLen fun n => (rb n).rbBitSet _ _ _
  · exact .of_forall_rbLen fun n => (rb n).rbBitSet _ _ _
  · exact .of_forall_rbLen fun n => (rb n).next

/-- Every operation: whichever length the Register Buffer has, or by the three that may change it. -/
theorem exec (h : BlockInv P) (i : Instr) : Keeps P (Sys2Proof.Machine.exec i) := by
  have live {i f} := Keeps.exec_of_whenLive (P := P) (i := i) (f := f) fun _ hs =>
    h.congr hs rfl rfl rfl rfl rfl rfl rfl
  cases hi : restartOp i with
  | false => exact .of_forall_rbLen fun n => (h.bufferInv n).exec hi
  | true =>
    cases i with
    | mgrConstruct buf => exact live (exec_mgrConstruct buf) (h.constructManager buf)
    | modConstruct buf => exact live (exec_modConstruct buf) (h.constructModule buf)
    | reset => exact Keeps.next h.afterReset
    | _ => cases hi

/-- The operation at the front of the input starts from a state without its record. -/
theorem runNext (h : BlockInv P) : Keeps P Sys2Proof.Machine.runNext := by
  intro s t hs ht
  obtain ⟨i, rest, -, hi⟩ | ⟨-, rfl⟩ := runNext_eq_next ht
  · exact h.exec i { s with inbox := rest } t (h.congr hs rfl rfl rfl rfl rfl rfl rfl) hi
  · exact hs

theorem step (h : BlockInv P) : Keeps P Sys2Proof.Machine.step := by
  intro s t hs ht
  obtain ⟨b, -, -, hb⟩ | ⟨-, hn⟩ := step_eq_next ht
  · exact h.bindBuffer b { s with rebind := none } t (h.congr hs rfl rfl rfl rfl rfl rfl rfl) hb
  · exact h.runNext s t hs hn

end BlockInv

/-! ## The obligations -/

/-- Settles O4: with no reconfiguration before it, a step is `runNext`, which takes the record off. -/
theorem aStepRunsTheDecodedOperation : Obligations.AStepRunsTheDecodedOperation :=
  fun _ _ _ hfirst hdecode => (step_eq_runNext hfirst).trans (runNext_of_decode hdecode)

/-- The configuration is kept by every change of the block: a binding, a construction and a reset set
variables only. -/
theorem blockInv_cfg (c : Config) : BlockInv fun s => s.cfg = c where
  bufferInv := bufferInv_cfg c
  bindBuffer b s t hs ht := by
    obtain ⟨-, rfl⟩ := (bindBuffer_eq_next_iff b s t).mp ht
    exact hs
  managerReset _ hs := hs
  afterReset _ hs := hs

/-- Settles O9: `BlockInv.step`, for the configuration the block has before the step. -/
theorem noStepChangesTheParameters : Obligations.NoStepChangesTheParameters :=
  fun s t ht => (blockInv_cfg s.cfg).step s t rfl ht

end Sys2Proof.Machine

/-! # The state's invariant, its binding, its panic, its register address

What the block keeps across every step (R36, R38, R162), what the host's reconfiguration does (R21), what is
left of a panicked block (R43), and which operations move `last_addr` (R24 a). -/

namespace Sys2Proof.Machine

/-! ## The invariant of every step -/

/-- Both empty staging buffers and the Register Buffer of the configuration list their offsets (R270). -/
theorem wf_resetOf {c : Config} (hc : c.wf = true) : (State.resetOf c).wf = true := by
  obtain ⟨hlen, -⟩ := (Config.wf_iff c).mp hc
  refine (State.wf_iff _).mpr ⟨?_, rfl, rfl, hlen, ?_, hc⟩
  · exact length_resetBytes c ▸ Memory.spans_ofBytes (resetBytes c)
  · exact (State.headerInPlace_iff _).mpr fun _ _ hx => absurd hx (Nat.not_lt_zero _)

/-- The invariant is kept by every change of the block. A binding lists the offsets of the new buffer, all
free as after a resize, and leaves SB; construction and reset leave both staging buffers empty. -/
theorem blockInv_wf : BlockInv fun s => s.wf = true where
  bufferInv := bufferInv_wf
  bindBuffer b s t hs ht := by
    obtain ⟨hlen, rfl⟩ := (bindBuffer_eq_next_iff b s t).mp ht
    obtain ⟨-, hsb, hrxb, -, hheader, hcfg⟩ := (State.wf_iff s).mp hs
    exact (State.wf_iff _).mpr ⟨spans_resizedRecv _ _, hsb, hrxb, hlen, hheader, hcfg⟩
  managerReset s hs := by
    obtain ⟨hrb, -, -, hlen, -, hcfg⟩ := (State.wf_iff s).mp hs
    refine (State.wf_iff _).mpr ⟨hrb, rfl, rfl, hlen, ?_, hcfg⟩
    exact (State.headerInPlace_iff _).mpr fun _ _ hx => absurd hx (Nat.not_lt_zero _)
  afterReset s hs := by
    obtain ⟨-, -, -, -, -, hcfg⟩ := (State.wf_iff s).mp hs
    exact (bufferInv_wf _).congr (State.resetOf s.cfg) _ ⟨wf_resetOf hcfg, rfl⟩
      rfl rfl rfl rfl rfl rfl rfl |>.1

/-- Settles O8: `BlockInv.step`, for the invariant. -/
theorem everyStepKeepsTheInvariant : Obligations.EveryStepKeepsTheInvariant :=
  blockInv_wf.step

/-! ## The host's reconfiguration -/

/-- Settles O5: the pending reconfiguration comes first, and the bytes it binds are free, as those of a
resize are. -/
theorem aStepBindsTheHostsBuffer : Obligations.AStepBindsTheHostsBuffer := by
  intro s b hlive hbind hlen
  have hbound := (bindBuffer_eq_next_iff b { s with rebind := none } _).mpr ⟨hlen, rfl⟩
  exact ⟨_, (step_eq_applyBinding hbind hlive).trans hbound, rfl, read_resizedRecv _ _⟩

/-! ## A panicked block -/

/-- To take a panic that has been taken changes nothing. -/
theorem State.panicked_eq_self {s : State} {c : PanicCause} (hc : s.panic = some c) :
    s.panicked c = s := by
  cases s
  cases hc
  rfl

/-- Every operation but `RESET` is run under the precondition `panic = none`, which evaluates to the fault in
a panicked state (R240). -/
theorem exec_panicked {i : Instr} (hi : i ≠ .reset) (c : PanicCause) (s : State) :
    exec i (s.panicked c) = .fault (.halted c) := by
  cases i with
  | reset => exact absurd rfl hi
  | _ => rfl

/-- Settles O10: the precondition fails in a panicked block, and `RESET`, which has none, clears it. -/
theorem aPanickedBlockOnlyResets : Obligations.APanickedBlockOnlyResets := by
  intro s c hc
  refine ⟨fun i hi => ?_, s.afterReset, exec_reset s, rfl⟩
  rw [← State.panicked_eq_self hc]
  exact exec_panicked hi c s

/-! ## The host's operations

The dispatch of `BufferInv.exec` again, for the properties that may speak of `last_addr` and of the arrivals
too: those that the host's own operations keep. -/

/-- The operations of the bus side: what the master and the bus do, and the callback that stores a received
frame. -/
def busSideOp : Instr → Bool
  | .mw _ _ | .mr _ _ | .mwr _ _ _ | .busStart _ _ | .busWbyte _ | .busRbyte | .busEnd | .busAbort _
  | .received _ => true
  | _ => false

/-- The operations on the Register Buffer keep what its byte writes keep. -/
theorem RbInv.exec {n : Nat} {P : State → Prop} (h : RbInv n P) {i : Instr}
    (hi : hostBufferOp i = true) : Keeps P (Sys2Proof.Machine.exec i) := by
  have live {i f} := Keeps.exec_of_whenLive (P := P) (i := i) (f := f) fun s hs =>
    h.congr s _ hs rfl rfl rfl rfl rfl rfl rfl rfl rfl
  have emits : ∀ o : State → Output, Keeps P fun s => .next (s.emit (o s)) := fun _ => h.next
  cases i with
  | rbWrite place len v => exact live (exec_rbWrite place len v) (h.rbWriteAt place _ v)
  | rbRead place len =>
    refine live (exec_rbRead place len) fun s => h.rbRead _ _ (fun out => Keeps.next fun s hs => ?_) s
    exact emits (fun _ => .bytes out) _ _ (h.advanceCursor place _ s hs) rfl
  | rbBitGet pos b => exact live (exec_rbBitGet pos b) (h.rbBitGet _ b fun v => emits fun _ => .bit v)
  | rbBitSet pos b v => exact live (exec_rbBitSet pos b v) (h.rbBitSet _ b v)
  | rbMask pos m v => exact live (exec_rbMask pos m v) (h.rbMask _ m v)
  | rbSeek pos => exact live (exec_rbSeek pos) (h.rbSeek pos)
  | rbTyped pos w value =>
    cases value with
    | none => exact live (exec_rbTypedRead pos w) (h.rbRead _ _ fun out => emits _)
    | some x => exact live (exec_rbTypedWrite pos w x) (h.rbTypedWrite _ _ x)
  | rbFill v => exact live (exec_rbFill v) (h.rbFill v)
  | writeHeader => exact live exec_writeHeader h.writeHeader
  | writeConstants => exact live exec_writeConstants h.writeConstants
  | setId id => exact live (exec_setId id) (h.rbWrite _ _ _)
  | setName nm len => exact live (exec_setName nm len) (h.rbWrite _ _ _)
  | getLed => exact live exec_getLed fun s => h.rbBitGet _ _ (fun v => emits fun _ => .bit v) s
  | getPower => exact live exec_getPower fun s => h.rbBitGet _ _ (fun v => emits fun _ => .bit v) s
  | _ => cases hi

/-- The operations of the host and of the tick source keep what byte writes, refreshes and resizes keep. -/
theorem HostInv.exec {n : Nat} {P : State → Prop} (h : HostInv n P) {i : Instr}
    (hi : (busSideOp i || restartOp i) = false) : Keeps P (Sys2Proof.Machine.exec i) := by
  have rb := h.toRbInv
  have live {i f} := Keeps.exec_of_whenLive (P := P) (i := i) (f := f) fun s hs =>
    rb.congr s _ hs rfl rfl rfl rfl rfl rfl rfl rfl rfl
  have emits : ∀ o : State → Output, Keeps P fun s => .next (s.emit (o s)) := fun _ => rb.next
  cases i with
  | hwCommunicating => exact live exec_hwCommunicating (emits _)
  | hwResult => exact live exec_hwResult (emits _)
  | hwLastTransaction => exact live exec_hwLastTransaction (emits _)
  | hwSetCallbacks r t => exact live (exec_hwSetCallbacks r t) rb.next
  | hwSetAddress a => exact live (exec_hwSetAddress a) (rb.next (u := State.withHwAddr _))
  | hwSetRecvbuffer buf len => exact live (exec_hwSetRecvbuffer buf len) rb.next
  | hwSetSendbuffer buf len => exact live (exec_hwSetSendbuffer buf len) rb.next
  | update => exact live exec_update h.managerUpdate
  | connected => exact live exec_connected (emits _)
  | setTimeout x => exact live (exec_setTimeout x) rb.next
  | setAddress x =>
    exact live (exec_setAddress x)
      (Keeps.ite (c := fun _ => 0x7F < x.toNat) (rb.raise .invalidArgument) rb.next)
  | sent k => exact live (exec_sent k) (rb.next (u := fun s => s))
  | refresh => exact live exec_refresh h.refresh
  | resizeSend m => exact live (exec_resizeSend m) (h.resizeSendOp _)
  | resizeRecv m => exact live (exec_resizeRecv m) (h.resizeRecvOp _)
  | ltStart => exact live exec_ltStart (rb.next (u := State.ltStarted))
  | ltAssign x => exact live (exec_ltAssign x) (rb.next (u := State.ltAssigned x))
  | ltTick => exact live exec_ltTick (rb.next (u := State.ticked))
  | ltExpired => exact live exec_ltExpired (emits _)
  | modUpdate => exact live exec_modUpdate h.moduleUpdate
  | modConnected => exact live exec_modConnected (emits _)
  | mcUpdate i o v p => exact live (exec_mcUpdate i o v p) (h.motorUpdate i o v p)
  | rbWrite | rbRead | rbBitGet | rbBitSet | rbMask | rbSeek | rbTyped | rbFill | writeHeader
  | writeConstants | setId | setName | getLed | getPower => exact rb.exec rfl
  | _ => cases hi

/-! ## Where `last_addr` is written -/

/-- With nothing arriving, no change of the host's touches `last_addr`. -/
theorem hostInv_lastAddr (n : Nat) (a : Byte) :
    HostInv n fun s => s.rbLen.toNat = n ∧ s.lastAddr = a ∧ s.preempt = [] where
  rbLen_eq _ h := h.1
  congr s t h _ hlen _ _ _ _ _ haddr hpreempt := by
    rw [hlen, haddr, hpreempt]
    exact h
  storeRb _ _ _ h _ := h
  preemptionPoint := Keeps.preemptionPoint_of_quiet fun _ ⟨_, _, hquiet⟩ => hquiet
  storeSb _ _ h _ _ := h
  resizeSend _ _ _ h _ _ := h
  cutSend _ _ h _ _ := h
  resizeRecv _ _ _ h _ := h

/-- A byte of a master write changes RXB and its count, or the overflow flag, only (R133). -/
theorem busWbyte_frame {b : Byte} {s t : State} (h : busWbyte b s = .next t) :
    t = { s with rxb := t.rxb, rxCnt := t.rxCnt, rxOver := t.rxOver } := by
  unfold busWbyte at h
  split at h
  · cases h
  · split at h <;> cases h <;> rfl

/-- A byte of a master read changes its count only and goes out on the wire (R134). -/
theorem busRbyte_frame {s t : State} (h : busRbyte s = .next t) :
    t = { s with txCnt := t.txCnt, out := t.out } := by
  unfold busRbyte at h
  split at h
  · cases h
  · split at h <;> cases h
    rfl

/-- An anomaly ends the transaction with its result (R136). -/
theorem busAbort_frame {kind : AbortKind} {s t : State} (h : busAbort kind s = .next t) :
    t = { s with hwCommunicating := false, hwResult := t.hwResult } := by
  unfold busAbort at h
  split at h <;> cases h
  rfl

/-- `last_addr` is `a`, or an address inside the bound Register Buffer. -/
def State.addrKeptOrInRange (a : Byte) (s : State) : Prop :=
  s.lastAddr = a ∨ (s.rbPresent = true ∧ s.lastAddr.toNat < s.rbLen.toNat)

section ReceivingOperations

variable {a : Byte}

theorem State.addrKeptOrInRange.congr {s t : State} (h : s.addrKeptOrInRange a)
    (hpresent : t.rbPresent = s.rbPresent) (hlen : t.rbLen = s.rbLen)
    (haddr : t.lastAddr = s.lastAddr) : t.addrKeptOrInRange a := by
  unfold State.addrKeptOrInRange
  rwa [hpresent, hlen, haddr]

/-- What writes `last_addr` only inside the Register Buffer, and leaves that bound as it is. -/
theorem State.addrKeptOrInRange.of_written {s t : State} (h : s.addrKeptOrInRange a)
    (hpresent : t.rbPresent = s.rbPresent) (hlen : t.rbLen = s.rbLen)
    (hw : t.lastAddr = s.lastAddr ∨ (s.rbPresent = true ∧ t.lastAddr.toNat < s.rbLen.toNat)) :
    t.addrKeptOrInRange a := by
  obtain haddr | hin := hw
  · exact h.congr hpresent hlen haddr
  · exact .inr (by rwa [hpresent, hlen])

theorem keeps_addr_id : Keeps (State.addrKeptOrInRange a) fun s => .next s := Keeps.next fun _ hs => hs

theorem keeps_addr_received (n : Nat) : Keeps (State.addrKeptOrInRange a) (received n) := by
  intro s t hs ht
  obtain ⟨hframe, hwritten⟩ := received_frame ht
  exact hs.of_written (by rw [hframe]) (by rw [hframe]) hwritten

theorem keeps_addr_completeTransaction : Keeps (State.addrKeptOrInRange a) completeTransaction := by
  intro s t hs ht
  obtain ⟨hframe, hwritten⟩ := completeTransaction_frame ht
  exact hs.of_written (by rw [hframe]) (by rw [hframe]) hwritten

theorem keeps_addr_busStart (a7 : BusAddr) (rw : BusDir) :
    Keeps (State.addrKeptOrInRange a) (busStart a7 rw) :=
  Keeps.andThen (Keeps.ite keeps_addr_completeTransaction keeps_addr_id)
    (Keeps.ite (Keeps.next fun _ hs => hs.congr rfl rfl rfl) keeps_addr_id)

theorem keeps_addr_busEnd : Keeps (State.addrKeptOrInRange a) busEnd :=
  Keeps.ite keeps_addr_completeTransaction fun _ _ _ ht => by cases ht

theorem keeps_addr_busWbyte (b : Byte) : Keeps (State.addrKeptOrInRange a) (busWbyte b) := by
  intro s t hs ht
  rw [busWbyte_frame ht]
  exact hs.congr rfl rfl rfl

theorem keeps_addr_busRbyte : Keeps (State.addrKeptOrInRange a) busRbyte := by
  intro s t hs ht
  rw [busRbyte_frame ht]
  exact hs.congr rfl rfl rfl

theorem keeps_addr_writeBytes : ∀ bs, Keeps (State.addrKeptOrInRange a) (writeBytes bs)
  | [] => keeps_addr_id
  | b :: bs => Keeps.andThen (keeps_addr_busWbyte b) (keeps_addr_writeBytes bs)

theorem keeps_addr_readBytes : ∀ n, Keeps (State.addrKeptOrInRange a) (readBytes n)
  | 0 => keeps_addr_id
  | n + 1 => Keeps.andThen keeps_addr_busRbyte (keeps_addr_readBytes n)

theorem keeps_addr_masterWrite (a7 : BusAddr) (f : List Byte) :
    Keeps (State.addrKeptOrInRange a) (masterWrite a7 f) :=
  Keeps.andThen (keeps_addr_busStart a7 .write)
    (Keeps.ite (Keeps.andThen (keeps_addr_writeBytes f) keeps_addr_busEnd) keeps_addr_id)

theorem keeps_addr_masterRead (a7 : BusAddr) (n : Nat) :
    Keeps (State.addrKeptOrInRange a) (masterRead a7 n) :=
  Keeps.andThen (keeps_addr_busStart a7 .read)
    (Keeps.ite (Keeps.andThen (keeps_addr_readBytes n) keeps_addr_busEnd) keeps_addr_id)

end ReceivingOperations

/-- Settles O11. The host's operations keep `last_addr`, and so do the single bytes of a transfer and an
anomaly; the other operations of the bus side can complete a master write, whose `received` is the one
writer. -/
theorem lastAddrIsOnlyWrittenInRange : Obligations.LastAddrIsOnlyWrittenInRange := by
  intro i s t hrestart hquiet ht
  have receiving {i f} (hf : Keeps (State.addrKeptOrInRange s.lastAddr) f)
      (hi : ∀ s, exec i s = whenLive s f) (h : exec i s = .next t) :
      t.addrKeptOrInRange s.lastAddr :=
    Keeps.exec_of_whenLive (fun _ hs => hs.congr rfl rfl rfl) hi hf s t (.inl rfl) h
  cases hbus : busSideOp i with
  | false =>
    have hhost := (hostInv_lastAddr s.rbLen.toNat s.lastAddr).exec (i := i) (by simp [hbus, hrestart])
    obtain ⟨-, haddr, -⟩ := hhost s t ⟨rfl, rfl, hquiet⟩ ht
    exact .inl haddr
  | true =>
    cases i with
    | mw a7 f =>
      exact (receiving (keeps_addr_masterWrite a7 f) (exec_mw a7 f) ht).imp_right (by simp)
    | mr a7 n =>
      exact (receiving (keeps_addr_masterRead a7 _) (exec_mr a7 n) ht).imp_right (by simp)
    | mwr a7 b n =>
      exact (receiving (Keeps.andThen (keeps_addr_masterWrite a7 [b]) (keeps_addr_masterRead a7 _))
        (exec_mwr a7 b n) ht).imp_right (by simp)
    | busStart a7 rw =>
      exact (receiving (keeps_addr_busStart a7 rw) (exec_busStart a7 rw) ht).imp_right (by simp)
    | busEnd => exact (receiving keeps_addr_busEnd exec_busEnd ht).imp_right (by simp)
    | received n =>
      exact (receiving (keeps_addr_received _) (exec_received n) ht).imp_right (by simp)
    | busWbyte b =>
      obtain ⟨-, hb⟩ := whenLive_eq_next_iff.mp ht
      exact .inl (by rw [busWbyte_frame hb]; rfl)
    | busRbyte =>
      obtain ⟨-, hb⟩ := whenLive_eq_next_iff.mp ht
      exact .inl (by rw [busRbyte_frame hb]; rfl)
    | busAbort kind =>
      obtain ⟨-, hb⟩ := whenLive_eq_next_iff.mp ht
      exact .inl (by rw [busAbort_frame hb]; rfl)
    | _ => cases hbus

end Sys2Proof.Machine

/-! # What the two contexts keep from each other

Host software writes RB and the master reads SB: only a refresh joins the two (R74). A transaction that ends
while an `update` runs is left to the next one (R71, R160). -/

namespace Sys2Proof.Machine

/-! ## Host accesses -/

/-- With nothing arriving, no byte write inside RB touches SB, its length or `last_addr` (R74). -/
theorem rbInv_sendBuffer (n : Nat) (sb : Memory) (len : Len) (a : Byte) :
    RbInv n fun s =>
      s.rbLen.toNat = n ∧ s.sb = sb ∧ s.sbLen = len ∧ s.lastAddr = a ∧ s.preempt = [] where
  rbLen_eq _ h := h.1
  congr s t h _ hlen _ hsbLen hsb _ _ haddr hpreempt := by
    rw [hlen, hsb, hsbLen, haddr, hpreempt]
    exact h
  storeRb _ _ _ h _ := h
  preemptionPoint := Keeps.preemptionPoint_of_quiet fun _ ⟨_, _, _, _, hquiet⟩ => hquiet

/-- Settles O12: the host's operations change the spaces by byte writes inside RB only. -/
theorem hostAccessesLeaveTheSendBuffer : Obligations.HostAccessesLeaveTheSendBuffer := by
  intro i s t hi hquiet ht
  obtain ⟨-, hsb, hlen, haddr, -⟩ :=
    (rbInv_sendBuffer s.rbLen.toNat s.sb s.sbLen s.lastAddr).exec hi s t ⟨rfl, rfl, rfl, rfl, hquiet⟩ ht
  exact ⟨hsb, hlen, haddr⟩

/-! ## The end of a transaction in a booted block -/

/-- The result that the end of the transaction in flight leaves (R135). -/
def State.completionResult (s : State) : BusResult :=
  if s.hwDir = .read then .sent
  else if s.rxOver = true ∧ s.cfg.rxOverflow = .nack then .nackSent else .received

theorem State.completionResult_cases (s : State) :
    s.completionResult = .nackSent ∨ s.completionResult = .sent ∨ s.completionResult = .received := by
  unfold State.completionResult
  split
  · exact .inr (.inl rfl)
  · split
    · exact .inl rfl
    · exact .inr (.inr rfl)

/-- `received` meets no panic condition in a booted block, and leaves it booted (R166, R244). -/
theorem received_of_booted {s : State} (hb : s.booted = true) (n : Nat) :
    ∃ t, received n s = .next t ∧ t.booted = true := by
  obtain ⟨hp, hcb, hu, hst, hcr, hw⟩ := (State.booted_iff s).mp hb
  obtain ⟨hpres, -⟩ := (State.rbUsable_iff s).mp hu
  obtain ⟨hl, -⟩ := (State.staged_iff s).mp hst
  obtain ⟨-, hr⟩ := (State.canRefresh_iff s).mp hcr
  by_cases ha : (s.frameAddr n).toNat < s.rbLen.toNat
  · obtain ⟨u, rfl, he⟩ := received_of_inRange (n := n) hp hpres ha hl hw hr
    refine ⟨_, he, (State.booted_iff _).mpr ⟨hp, hcb, hu, hst, ?_, hw⟩⟩
    exact (State.canRefresh_iff _).mpr ⟨ha, hr⟩
  · exact ⟨_, received_of_outOfRange (.inr (Nat.le_of_not_lt ha)), hb⟩

/-- Nor does the end of a transaction: what it leaves of a booted block, and its result (R135, R244). -/
theorem completeTransaction_of_booted {s : State} (hb : s.booted = true) :
    ∃ t, completeTransaction s = .next t ∧ t.booted = true ∧ t.hwResult = s.completionResult := by
  obtain ⟨-, hcb, -⟩ := (State.booted_iff s).mp hb
  cases hd : s.hwDir with
  | read => exact ⟨_, completeTransaction_read hd hcb, hb, by simp [State.completionResult, hd]⟩
  | write =>
    by_cases ho : s.rxOver = true ∧ s.cfg.rxOverflow = .nack
    · refine ⟨{ s with hwCommunicating := false, hwResult := .nackSent }, ?_, hb, ?_⟩
      · simp [completeTransaction, hd, ho]
      · simp [State.completionResult, hd, ho]
    · obtain ⟨t, ht, htb⟩ := received_of_booted (s := { s with
        hwCommunicating := false, hwResult := .received, hwLast := ⟨.receive, .rxb, s.rxCnt⟩ })
        hb s.rxCnt.toNat
      refine ⟨t, (completeTransaction_write hd ho hcb).trans ht, htb, ?_⟩
      obtain ⟨hframe, -⟩ := received_frame ht
      rw [hframe]
      simp [State.completionResult, hd, ho]

/-! ## A completion at a point between two steps -/

/-- The state with `later` the arrivals still to come (log 10). -/
def State.expecting (later : List (List Interrupt)) (s : State) : State := { s with preempt := later }

theorem preemptionPoint_of_due {s : State} {es : List Interrupt} {later : List (List Interrupt)}
    (h : s.preempt = es :: later) : preemptionPoint s = deliver es (s.expecting later) := by
  simp [preemptionPoint, h, State.expecting]

/-- The main context goes on where the interrupt steps that fall after its step have led (R67, R250). -/
theorem mainSteps_cons_of_delivered {f g : State → Result} {fs : List (State → Result)} {s t u : State}
    {es : List Interrupt} {later : List (List Interrupt)} (hf : f s = .next t) (hp : t.panic = none)
    (hq : t.preempt = es :: later) (hd : deliver es (t.expecting later) = .next u)
    (hu : u.panic = none) : mainSteps (f :: g :: fs) s = mainSteps (g :: fs) u := by
  rw [mainSteps_cons_cons, andThenMain, hf, andThen_of_live hp, preemptionPoint_of_due hq, hd,
    andThen_of_live hu]

/-- A point at which nothing falls is passed. -/
theorem mainSteps_cons_of_emptyPoint {f g : State → Result} {fs : List (State → Result)} {s t : State}
    {later : List (List Interrupt)} (hf : f s = .next (t.expecting ([] :: later)))
    (hp : t.panic = none) : mainSteps (f :: g :: fs) s = mainSteps (g :: fs) (t.expecting later) :=
  mainSteps_cons_of_delivered hf hp rfl rfl hp

/-- In `u` the transaction in flight in `t` has ended, the last arrival: the block is booted, the result is
still to be treated, the timer is as in `t`. -/
structure CompletionPending (t u : State) : Prop where
  booted : u.booted = true
  idle : u.hwCommunicating = false
  quiet : u.preempt = []
  hwResult : u.hwResult = t.completionResult
  ltRemaining : u.ltRemaining = t.ltRemaining
  ltRunning : u.ltRunning = t.ltRunning
  cfgTimeout : u.cfgTimeout = t.cfgTimeout

theorem CompletionPending.panic {t u : State} (h : CompletionPending t u) : u.panic = none := by
  obtain ⟨hp, -⟩ := (State.booted_iff u).mp h.booted
  exact hp

/-- A point at which a booted block's transaction ends (R67, R135): the snapshot is not touched. -/
theorem mainSteps_cons_of_stop {f g : State → Result} {fs : List (State → Result)} {s t : State}
    (hf : f s = .next (t.expecting [[.stop]])) (hb : t.booted = true)
    (hc : t.hwCommunicating = true) :
    ∃ u, mainSteps (f :: g :: fs) s = mainSteps (g :: fs) u ∧ CompletionPending t u ∧
      u.snap = t.snap := by
  obtain ⟨hp, -⟩ := (State.booted_iff t).mp hb
  obtain ⟨u, hu, hub, hres⟩ := completeTransaction_of_booted (s := t.expecting []) hb
  obtain ⟨hup, -⟩ := (State.booted_iff u).mp hub
  have hstop : deliver [.stop] (t.expecting []) = .next u := by
    rw [deliver, interruptStep, busEnd, if_pos (by exact hc), hu, andThen_of_live hup, deliver]
  refine ⟨u, mainSteps_cons_of_delivered hf hp rfl hstop hup, ?_⟩
  obtain ⟨hframe, -⟩ := completeTransaction_frame hu
  have field {α : Type} (p : State → α) := congrArg p hframe
  exact ⟨{
    booted := hub
    idle := field State.hwCommunicating
    quiet := field State.preempt
    hwResult := hres
    ltRemaining := field State.ltRemaining
    ltRunning := field State.ltRunning
    cfgTimeout := field State.cfgTimeout }, field State.snap⟩

/-! ## The steps of an `update` in a booted block -/

/-- The state after step 0: the address handed over, the cursor free (R160, U7). -/
def State.addressHanded (s : State) : State :=
  { s with
    rbPos := Config.freePos s.draws
    draws := s.draws + 1
    hwAddr := if s.cfgAddrDirty then s.cfgAddr else s.hwAddr
    cfgAddrDirty := false }

theorem updateStep0_eq (s : State) : updateStep0 s = .next s.addressHanded := by
  cases h : s.cfgAddrDirty <;>
    simp [updateStep0, State.addressHanded, State.cursorLost, State.drawn, State.withHwAddr, h]

/-- The state after steps 0 and 1 of a host's `update`: as after step 2, but for the timer (R160). -/
def State.snapshotTaken (s : State) : State :=
  { s.polled with ltRemaining := s.ltRemaining, ltRunning := s.ltRunning }

theorem updateStep1_addressHanded (s : State) (later : List (List Interrupt)) :
    updateStep1 (s.clearOut.addressHanded.expecting later) =
      .next (s.snapshotTaken.expecting later) := rfl

/-- Step 2 restarts the timer by the snapshot alone (R71, R160). -/
theorem updateStep2_of_snap {s : State} {p : Snapshot} (h : s.snap = some p) :
    updateStep2 s = .next { s with
      ltRemaining := if p.result = .sent ∨ p.result = .received then s.cfgTimeout else s.ltRemaining
      ltRunning := if p.result = .sent ∨ p.result = .received then true else s.ltRunning } := by
  have hs : s.snapCompleted = decide (p.result = .sent ∨ p.result = .received) := by
    simp [State.snapCompleted, h]
  by_cases hr : p.result = .sent ∨ p.result = .received
  · rw [updateStep2, hs, decide_eq_true hr, if_pos rfl, if_pos hr, if_pos hr]
    rfl
  · rw [updateStep2, hs, decide_eq_false hr, if_neg Bool.false_ne_true, if_neg hr, if_neg hr]

theorem updateStep2_snapshotTaken (s : State) (later : List (List Interrupt)) :
    updateStep2 (s.snapshotTaken.expecting later) = .next (s.polled.expecting later) :=
  updateStep2_of_snap (s := s.snapshotTaken.expecting later) (p := ⟨s.hwResult, s.hwLast⟩) rfl

/-- Step 3 has nothing to resize (R160, R244). -/
theorem updateStep3_of_booted {s : State} (hb : s.booted = true) : updateStep3 s = .next s := by
  obtain ⟨hp, -, -, hst, -⟩ := (State.booted_iff s).mp hb
  obtain ⟨hsb, hrxb, -⟩ := (State.staged_iff s).mp hst
  exact updateStep3_of_staged hp (.inr ⟨hsb, hrxb⟩)

/-- With the bus idle, the rest of an `update` refreshes SB and no more (R160, R163). -/
theorem lastSteps_of_booted {s : State} (hb : s.booted = true) (hc : s.hwCommunicating = false)
    (hq : s.preempt = []) :
    ∃ t, mainSteps [updateStep3, updateStep4] s = .next t ∧
      t = { s with snap := none, sb := t.sb, out := t.out } := by
  obtain ⟨hp, -, hu, hst, hcr, -⟩ := (State.booted_iff s).mp hb
  obtain ⟨hl, -⟩ := (State.staged_iff s).mp hst
  exact ⟨_, (mainSteps_cons_of_quiet (updateStep3_of_booted hb) hp hq).trans
    (updateStep4_of_ready hp hu hc hl hcr), rfl⟩

/-- They leave a completion pending. -/
theorem CompletionPending.lastSteps {s v : State} (h : CompletionPending s v) :
    ∃ t, mainSteps [updateStep3, updateStep4] v = .next t ∧ CompletionPending s t := by
  obtain ⟨t, ht, hframe⟩ := lastSteps_of_booted h.booted h.idle h.quiet
  refine ⟨t, ht, ?_⟩
  rw [hframe]
  exact { h with }

/-! ## A completion during an `update` -/

/-- After the end of the transaction, step 2 still treats the earlier result, the one in the snapshot (R71). -/
theorem CompletionPending.updateStep2 {s u : State} (h : CompletionPending s.snapshotTaken u)
    (hsnap : u.snap = s.snapshotTaken.snap) :
    ∃ v, Sys2Proof.Machine.updateStep2 u = .next v ∧ CompletionPending s.polled v := by
  refine ⟨_, updateStep2_of_snap hsnap, ?_⟩
  rw [h.ltRemaining, h.ltRunning, h.cfgTimeout]
  exact { h with ltRemaining := rfl, ltRunning := rfl, cfgTimeout := rfl }

/-- The next `update` consumes a result that completed, and restarts the timer for it (R160). -/
theorem exec_update_of_completed {s : State} (hb : s.booted = true) (hc : s.hwCommunicating = false)
    (hq : s.preempt = []) (hr : s.hwResult = .sent ∨ s.hwResult = .received) :
    ∃ t, exec .update s = .next t ∧ t.panic = none ∧ t.hwResult = .wait ∧
      t.ltRemaining = s.cfgTimeout ∧ t.ltRunning = true := by
  obtain ⟨hp, -⟩ := (State.booted_iff s).mp hb
  obtain ⟨t, ht, hframe⟩ := lastSteps_of_booted (s := s.polled) hb hc hq
  refine ⟨t, ?_, ?_⟩
  · rw [exec_update, whenLive_of_live hp, managerUpdate_of_quiet (by exact hp) (by exact hq)]
    exact ht
  · rw [hframe]
    exact ⟨hp, rfl, if_pos hr, if_pos hr⟩

/-- An `update` with nothing due after step 0 (R160). -/
theorem exec_update_of_emptyPoint {s : State} {later : List (List Interrupt)} (hp : s.panic = none)
    (hq : s.preempt = [] :: later) :
    exec .update s = mainSteps [updateStep1, updateStep2, updateStep3, updateStep4]
      (s.clearOut.addressHanded.expecting later) := by
  rw [exec_update, whenLive_of_live hp]
  exact mainSteps_cons_of_delivered (updateStep0_eq _) hp hq rfl hp

/-- At whichever of the three points the transaction ends, its completion is pending before the last two steps:
step 2 looks at the snapshot, and step 3, which it may come after, has nothing to do. -/
theorem exec_update_of_stop {s : State} {k : Nat} (hb : s.booted = true)
    (hc : s.hwCommunicating = true) (hk : 1 ≤ k) (hk3 : k ≤ 3)
    (hq : s.preempt = List.replicate k [] ++ [[.stop]]) :
    ∃ v, exec .update s = mainSteps [updateStep3, updateStep4] v ∧ CompletionPending s.polled v := by
  obtain ⟨hp, -⟩ := (State.booted_iff s).mp hb
  obtain rfl | rfl | rfl : k = 1 ∨ k = 2 ∨ k = 3 := by omega
  · rw [exec_update_of_emptyPoint (later := [[.stop]]) hp hq]
    obtain ⟨u, hu, hpend, hsnap⟩ :=
      mainSteps_cons_of_stop (updateStep1_addressHanded s [[.stop]]) hb hc
    obtain ⟨v, hv, hpend⟩ := hpend.updateStep2 hsnap
    exact ⟨v, hu.trans (mainSteps_cons_of_quiet hv hpend.panic hpend.quiet), hpend⟩
  · rw [exec_update_of_emptyPoint (later := [[], [.stop]]) hp hq,
      mainSteps_cons_of_emptyPoint (updateStep1_addressHanded s [[], [.stop]]) hp]
    obtain ⟨u, hu, hpend, -⟩ := mainSteps_cons_of_stop (updateStep2_snapshotTaken s [[.stop]]) hb hc
    exact ⟨u, hu, hpend⟩
  · rw [exec_update_of_emptyPoint (later := [[], [], [.stop]]) hp hq,
      mainSteps_cons_of_emptyPoint (updateStep1_addressHanded s [[], [], [.stop]]) hp,
      mainSteps_cons_of_emptyPoint (updateStep2_snapshotTaken s [[], [.stop]]) hp]
    obtain ⟨u, hu, hpend, -⟩ := mainSteps_cons_of_stop (t := s.polled) (updateStep3_of_booted hb) hb hc
    refine ⟨u, hu.trans (Eq.symm ?_), hpend⟩
    exact mainSteps_cons_of_quiet (updateStep3_of_booted hpend.booted) hpend.panic hpend.quiet

/-- Settles O44: the rest of the `update` and the next one both run undisturbed, from a completion that is
pending. -/
theorem completionAfterTheSnapshotStaysPending :
    Obligations.CompletionAfterTheSnapshotStaysPending := by
  intro s k _ hb hc hk hk3 hq
  obtain ⟨v, hv, hpend⟩ := exec_update_of_stop hb hc hk hk3 hq
  obtain ⟨t, ht, hpend⟩ := hpend.lastSteps
  refine ⟨t, hv.trans ht, hpend.panic, hpend.idle, hpend.hwResult, hpend.ltRemaining, hpend.ltRunning,
    fun hne => ?_⟩
  have hdone : t.hwResult = .sent ∨ t.hwResult = .received := by
    have hcases := s.polled.completionResult_cases
    rw [← hpend.hwResult] at hcases
    exact hcases.resolve_left hne
  have hnext := exec_update_of_completed hpend.booted hpend.idle hpend.quiet hdone
  rwa [hpend.cfgTimeout] at hnext

end Sys2Proof.Machine

/-! # Records and operations

The decoder takes the fields of a record one after another. Forwards, each field that the encoder wrote is
taken back; backwards, the bytes taken are the record of the operation answered. Together: what decodes is
exactly a well-formed operation's record and what follows it (R95, R100, log 1). -/

namespace Sys2Proof

/-! ## From an operation to its record and back -/

section Fields

variable {α : Type}

/-- The truth value before an optional operand that is absent. -/
@[simp] theorem withBool_zero (r : List Byte) (k : Bool → List Byte → Except DecodeError α) :
    withBool (0x00#8 :: r) k = k false r := withBool_boolByte false r k

/-- The truth value before an optional operand that is present. -/
@[simp] theorem withBool_one (r : List Byte) (k : Bool → List Byte → Except DecodeError α) :
    withBool (0x01#8 :: r) k = k true r := withBool_boolByte true r k

/-- A byte sequence whose length stands beside it (R95). -/
@[simp] theorem withBytes_of_length {n : Nat} {v : List Byte} (h : v.length = n) (r : List Byte)
    (k : List Byte → List Byte → Except DecodeError α) : withBytes n (v ++ r) k = k v r :=
  h ▸ withBytes_append v r k

end Fields

/-- Each operand the encoder wrote is taken back. Well-formedness is what a byte sequence, whose length stands
before it, and a typed value, which has `w` bytes, need for that. -/
theorem decodeOperands_operands {i : Instr} (hwf : i.wellFormed = true) (rest : List Byte) :
    decodeOperands i.opcode (i.operands ++ rest) = .ok (i, rest) := by
  cases i with
  | mw a7 frame =>
    have hlen : frame.length % 65536 = frame.length :=
      Nat.mod_eq_of_lt (Nat.lt_succ_of_le (of_decide_eq_true hwf))
    simp [decodeOperands, Instr.opcode, Instr.operands, hlen]
  | rbWrite place len v =>
    have hlen : v.length = len.toNat := of_decide_eq_true hwf
    simp [decodeOperands, Instr.opcode, Instr.operands, hlen]
  | setName s len =>
    have hlen : s.length = len.toNat := of_decide_eq_true hwf
    simp [decodeOperands, Instr.opcode, Instr.operands, hlen]
  | rbTyped pos w value =>
    cases value with
    | none => simp [decodeOperands, Instr.opcode, Instr.operands]
    | some v =>
      have hfits : v < 256 ^ w.toNat := of_decide_eq_true hwf
      simp [decodeOperands, Instr.opcode, Instr.operands, natOfBytes_bytesOfNat _ _ hfits]
  | mgrConstruct buf =>
    cases buf <;> simp [decodeOperands, Instr.opcode, Instr.operands, withOptLen]
  | busRbyte | busEnd | hwCommunicating | hwResult | hwLastTransaction | update | connected | refresh
  | ltStart | ltTick | ltExpired | modUpdate | modConnected | writeHeader | writeConstants | getLed
  | getPower | reset => rfl
  | _ => simp [decodeOperands, Instr.opcode, Instr.operands]

/-! ## From a record to its operation and back -/

/-- Where `front` are the operand bytes of row `op` taken so far and `bs` those to come: if the reader
answers `o`, an operation and a rest, then that operation is a well-formed one of row `op`, and `front` and the
bytes taken of `bs` are its operands. -/
def ReadsRecord (op : Byte) (front bs : List Byte) (o : Except DecodeError (Instr × List Byte)) : Prop :=
  ∀ i rest, o = .ok (i, rest) → i.wellFormed = true ∧ op = i.opcode ∧ front ++ bs = i.operands ++ rest

namespace ReadsRecord

variable {op : Byte} {front bs : List Byte} {o : Except DecodeError (Instr × List Byte)}

/-- All operands are taken. -/
theorem ok {i : Instr} (hop : op.toNat = i.opcode.toNat) (hfront : front = i.operands)
    (hwf : i.wellFormed = true := by rfl) : ReadsRecord op front bs (.ok (i, bs)) := by
  rintro _ _ ⟨⟩
  exact ⟨hwf, BitVec.eq_of_toNat_eq hop, hfront ▸ rfl⟩

theorem error {e : DecodeError} : ReadsRecord op front bs (.error e) := nofun

/-- The bytes `w` of one field are taken. -/
theorem take {w r : List Byte} (h : ReadsRecord op (front ++ w) r o) :
    ReadsRecord op front (w ++ r) o := by
  intro i rest ho
  rw [← List.append_assoc]
  exact h i rest ho

/-- A field of kind `ι`, with the bytes `enc`, that the reader takes before it goes on with `k`. -/
theorem field {ι : Type} (enc : ι → List Byte) {k : ι → List Byte → Except DecodeError (Instr × List Byte)}
    (ho : ∀ x, o = .ok x → ∃ v r, bs = enc v ++ r ∧ k v r = .ok x)
    (h : ∀ v r, ReadsRecord op (front ++ enc v) r (k v r)) : ReadsRecord op front bs o := by
  intro i rest hok
  obtain ⟨v, r, rfl, hk⟩ := ho _ hok
  exact (h v r).take i rest hk

theorem withByte {k} (h : ∀ b r, ReadsRecord op (front ++ [b]) r (k b r)) :
    ReadsRecord op front bs (Sys2Proof.withByte bs k) :=
  field (fun b => [b]) (fun _ => withByte_eq_ok_iff.mp) h

theorem withLen {k} (h : ∀ x r, ReadsRecord op (front ++ lenBytes x) r (k x r)) :
    ReadsRecord op front bs (Sys2Proof.withLen bs k) :=
  field lenBytes (fun _ => withLen_eq_ok_iff.mp) h

theorem withBool {k} (h : ∀ b r, ReadsRecord op (front ++ [boolByte b]) r (k b r)) :
    ReadsRecord op front bs (Sys2Proof.withBool bs k) :=
  field (fun b => [boolByte b]) (fun _ => withBool_eq_ok_iff.mp) h

theorem withBuf {k} (h : ∀ buf r, ReadsRecord op (front ++ [BufId.code buf]) r (k buf r)) :
    ReadsRecord op front bs (Sys2Proof.withBuf bs k) :=
  field (fun buf => [BufId.code buf]) (fun _ => withBuf_eq_ok_iff.mp) h

theorem withKind {k} (h : ∀ kind r, ReadsRecord op (front ++ [AbortKind.code kind]) r (k kind r)) :
    ReadsRecord op front bs (Sys2Proof.withKind bs k) :=
  field (fun kind => [AbortKind.code kind]) (fun _ => withKind_eq_ok_iff.mp) h

theorem withAddressFor {rw k} (h : ∀ a7 r, ReadsRecord op (front ++ [addressByte a7 rw]) r (k a7 r)) :
    ReadsRecord op front bs (Sys2Proof.withAddressFor rw bs k) :=
  field (fun a7 => [addressByte a7 rw]) (fun _ => withAddressFor_eq_ok_iff.mp) h

theorem withPlace {k} (h : ∀ place r, ReadsRecord op (front ++ Place.encode place) r (k place r)) :
    ReadsRecord op front bs (Sys2Proof.withPlace bs k) :=
  field Place.encode (fun _ => withPlace_eq_ok_iff.mp) h

theorem withOptLen {k}
    (h : ∀ buf r, ReadsRecord op (front ++ Instr.operands (.mgrConstruct buf)) r (k buf r)) :
    ReadsRecord op front bs (Sys2Proof.withOptLen bs k) :=
  field (fun buf => Instr.operands (.mgrConstruct buf)) (fun _ => withOptLen_eq_ok_iff.mp) h

theorem withAddress {k} (h : ∀ a7 rw r, ReadsRecord op (front ++ [addressByte a7 rw]) r (k a7 rw r)) :
    ReadsRecord op front bs (Sys2Proof.withAddress bs k) := by
  intro i rest hok
  obtain ⟨a7, rw, r, rfl, hk⟩ := withAddress_eq_ok_iff.mp hok
  exact (h a7 rw r).take (w := [addressByte a7 rw]) i rest hk

theorem withBytes {n k} (h : ∀ v r, v.length = n → ReadsRecord op (front ++ v) r (k v r)) :
    ReadsRecord op front bs (Sys2Proof.withBytes n bs k) := by
  intro i rest hok
  obtain ⟨v, r, rfl, hlen, hk⟩ := withBytes_eq_ok_iff.mp hok
  exact (h v r hlen).take i rest hk

end ReadsRecord

/-- The operands of `MW`: the length before the frame is the frame's (R91, R95). -/
theorem operands_mw {a7 : BusAddr} {n : Len} {frame : List Byte} (hlen : frame.length = n.toNat) :
    Instr.operands (.mw a7 frame) = addressByte a7 .write :: (lenBytes n ++ frame) := by
  simp [Instr.operands, hlen]

/-- The operands of a typed write whose value has the bytes `v` (R119). -/
theorem operands_rbTyped_natOfBytes {pos w : Len} {v : List Byte} (hlen : v.length = w.toNat) :
    Instr.operands (.rbTyped pos w (some (natOfBytes v))) =
      lenBytes pos ++ lenBytes w ++ boolByte true :: v := by
  simp [Instr.operands, boolByte, ← hlen, bytesOfNat_natOfBytes]

/-- The reader of each row takes the operands of that row's operation: the cases are the rows of
spec/opcode_table.json by number, those with the same operands together. -/
theorem decodeOperands_readsRecord (op : Byte) (bs : List Byte) :
    ReadsRecord op [] bs (decodeOperands op bs) := by
  unfold decodeOperands
  split <;> rename_i hop
  case h_6 | h_7 | h_9 | h_10 | h_11 | h_16 | h_17 | h_23 | h_34 | h_36 | h_37 | h_39 | h_40 | h_41
      | h_42 | h_45 | h_46 | h_48 => exact .ok hop rfl
  case h_18 | h_19 | h_21 | h_22 | h_24 | h_25 | h_31 | h_35 | h_38 =>
    exact .withLen fun _ _ => .ok hop rfl
  case h_5 | h_13 | h_33 | h_43 => exact .withByte fun _ _ => .ok hop rfl
  case h_1 =>
    refine .withAddressFor fun a7 _ => .withLen fun n _ => .withBytes fun frame _ hlen =>
      .ok hop (operands_mw hlen).symm (decide_eq_true ?_)
    exact hlen ▸ Nat.le_of_lt_succ n.isLt
  case h_2 => exact .withAddressFor fun _ _ => .withLen fun _ _ => .ok hop rfl
  case h_3 =>
    refine .withAddressFor fun a7 _ => .withByte fun a _ => .withAddressFor fun a7' _ =>
      .withLen fun n _ => ?_
    split
    · next hsame => exact .ok hop (hsame ▸ rfl)
    · exact .error
  case h_4 => exact .withAddress fun _ _ _ => .ok hop rfl
  case h_8 => exact .withKind fun _ _ => .ok hop rfl
  case h_12 => exact .withBool fun _ _ => .withBool fun _ _ => .ok hop rfl
  case h_14 | h_15 => exact .withBuf fun _ _ => .withLen fun _ _ => .ok hop rfl
  case h_20 => exact .withOptLen fun _ _ => .ok hop rfl
  case h_26 =>
    exact .withPlace fun _ _ => .withLen fun _ _ => .withBytes fun _ _ hlen =>
      .ok hop rfl (decide_eq_true hlen)
  case h_27 => exact .withPlace fun _ _ => .withLen fun _ _ => .ok hop rfl
  case h_28 => exact .withLen fun _ _ => .withByte fun _ _ => .ok hop rfl
  case h_29 =>
    exact .withLen fun _ _ => .withByte fun _ _ => .withBool fun _ _ =>
      .ok hop (List.append_assoc _ _ _)
  case h_30 =>
    exact .withLen fun _ _ => .withByte fun _ _ => .withByte fun _ _ =>
      .ok hop (List.append_assoc _ _ _)
  case h_32 =>
    refine .withLen fun pos _ => .withLen fun w _ => .withBool fun isWrite _ => ?_
    cases isWrite with
    | false => exact .ok hop rfl
    | true =>
      rw [if_pos rfl]
      refine .withBytes fun v _ hlen => .ok hop ?_ (decide_eq_true (hlen ▸ natOfBytes_lt v))
      rw [operands_rbTyped_natOfBytes hlen, List.append_cons]
      rfl
  case h_44 =>
    exact .withLen fun _ _ => .withBytes fun _ _ hlen => .ok hop rfl (decide_eq_true hlen)
  case h_47 =>
    exact .withLen fun _ _ => .withLen fun _ _ => .withLen fun _ _ => .withLen fun _ _ => .ok hop rfl
  case h_49 => exact .error

/-! ## The obligations -/

/-- What decodes is a well-formed operation's record and what follows it. -/
theorem decode_eq_ok_iff {bs rest : List Byte} {i : Instr} :
    decode bs = .ok (i, rest) ↔ i.wellFormed = true ∧ bs = encode i ++ rest := by
  constructor
  · intro h
    cases bs with
    | nil => cases h
    | cons op bs =>
      obtain ⟨hwf, rfl, hbs⟩ := decodeOperands_readsRecord op bs i rest h
      exact ⟨hwf, congrArg (i.opcode :: ·) hbs⟩
  · rintro ⟨hwf, rfl⟩
    exact decodeOperands_operands hwf rest

/-- Settles O1: `decode_eq_ok_iff`, read from the record to the operation. -/
theorem everyOperationDecodesFromItsRecord : Obligations.EveryOperationDecodesFromItsRecord :=
  fun _ _ hwf => decode_eq_ok_iff.mpr ⟨hwf, rfl⟩

/-- Settles O2: `decode_eq_ok_iff`, read from the operation to the record. -/
theorem aDecodedOperationHasOneRecord : Obligations.ADecodedOperationHasOneRecord :=
  fun _ _ _ => decode_eq_ok_iff.mp

/-- Settles O3: the bytes the spec writes out are the records of these operations. -/
theorem wireBytesOfTheSpecDecode : Obligations.WireBytesOfTheSpecDecode := by
  have record {bs i} (hwf : i.wellFormed = true) (hbs : bs = encode i) : decode bs = .ok (i, []) :=
    decode_eq_ok_iff.mpr ⟨hwf, by rw [hbs, List.append_nil]⟩
  exact ⟨record rfl rfl, record rfl rfl, record rfl rfl, record rfl rfl, record rfl rfl⟩

end Sys2Proof

/-! # The combined access

A master write of one byte moves `last_addr` and refreshes SB; the master read that follows clocks SB out
(R101). -/

namespace Sys2Proof.Machine

/-! ## The master read frame and the wire -/

theorem wireBytes_map_wire (bs : List Byte) : wireBytes (bs.map .wire) = bs := by
  induction bs with
  | nil => rfl
  | cons b bs ih => exact congrArg (b :: ·) ih

/-- Byte `x` after the frame header is the Register Buffer's from `a` on (R92). -/
theorem frameByteAt_data {c : Config} {rb : Memory} {l a x : Nat} (hx : x < l - a) :
    frameByteAt c rb l a (c.h + x) = Memory.byte rb (a + x) := by
  rw [frameByteAt, if_neg (by omega), if_pos (by omega), Nat.add_sub_cancel_left]

/-- After the Register Buffer's last byte there are zeros (R92). -/
theorem frameByteAt_of_le {c : Config} {rb : Memory} {l a x : Nat} (hx : c.h + (l - a) ≤ x) :
    frameByteAt c rb l a x = 0x00 := by
  rw [frameByteAt, if_neg (by omega), if_neg (by omega)]

/-- The first `n` bytes of the master read frame of the Register Buffer from `a` (R92). -/
def State.frameBytes (a : Byte) (n : Len) (s : State) : List Byte :=
  (List.range n.toNat).map (frameByteAt s.cfg s.rb s.rbLen.toNat a.toNat)

theorem State.length_frameBytes (a : Byte) (n : Len) (s : State) :
    (s.frameBytes a n).length = n.toNat := by
  simp [State.frameBytes]

theorem State.getElem?_frameBytes (a : Byte) {n : Len} (s : State) {x : Nat} (hx : x < n.toNat) :
    (s.frameBytes a n)[x]? = some (frameByteAt s.cfg s.rb s.rbLen.toNat a.toNat x) := by
  simp [State.frameBytes, hx]

/-- SB is the master read frame of the Register Buffer from `a` (R92, R163). -/
def State.showsFrame (a : Byte) (s : State) : Prop :=
  ∀ x, Memory.read s.sb x =
    if x < s.sbLen.toNat then some (frameByteAt s.cfg s.rb s.rbLen.toNat a.toNat x) else none

/-- Beyond SB a read clocks zeros (R134), as the frame has them. -/
theorem State.showsFrame.getD_read {a : Byte} {s : State} (h : s.showsFrame a)
    (hl : s.sbLen.toNat = s.rbLen.toNat + s.cfg.h) (x : Nat) :
    (Memory.read s.sb x).getD 0x00 = frameByteAt s.cfg s.rb s.rbLen.toNat a.toNat x := by
  rw [h x]
  split
  · rfl
  · rw [frameByteAt_of_le (by omega)]
    rfl

/-! ## Setting the register address -/

/-- The first byte of a frame is its register address (R93). -/
theorem State.frameAddr_frameDone (s : State) (a : Byte) (d : List Byte) :
    (s.frameDone (a :: d)).frameAddr (a :: d).length = a := by
  simp [State.frameAddr, State.frameByte, State.frameDone, Memory.read_writeList]

/-- A frame of one byte carries no data (R93). -/
theorem State.frameData_one (s : State) : s.frameData 1 = [] := by
  simp [State.frameData]

/-- The invariant holds where `received` runs at the end of a frame that fits. -/
theorem State.wf_frameDone {s : State} {f : List Byte} (hwf : s.wf = true)
    (hf : f.length ≤ s.rxbLen.toNat) : (s.frameDone f).wf = true := by
  obtain ⟨hrb, hsb, hrxb, hmax, hheader, hcfg⟩ := (State.wf_iff s).mp hwf
  refine (State.wf_iff _).mpr ⟨hrb, hsb, ?_, hmax, hheader, hcfg⟩
  exact Memory.spans_writeList hrxb (by rwa [Nat.zero_add])

/-- A received register address alone becomes `last_addr`, and SB is refreshed from it; no byte of the Register
Buffer is written (R93, R166). -/
theorem received_address {s : State} (hwf : s.wf = true) (hb : s.booted = true)
    (ha : (s.frameAddr 1).toNat < s.rbLen.toNat) :
    ∃ t, received 1 s = .next t ∧ t.showsFrame (s.frameAddr 1) ∧
      t = { s with rbPos := t.rbPos, draws := t.draws, lastAddr := s.frameAddr 1
                   sb := t.sb, out := t.out } := by
  obtain ⟨hp, -, hu, hst, hcr, hwrite⟩ := (State.booted_iff s).mp hb
  obtain ⟨hpres, -⟩ := (State.rbUsable_iff s).mp hu
  obtain ⟨hsb, -⟩ := (State.staged_iff s).mp hst
  obtain ⟨-, hread⟩ := (State.canRefresh_iff s).mp hcr
  obtain ⟨u, rfl, hrec⟩ := received_of_inRange hp hpres ha hsb hwrite hread
  simp only [State.frameData_one, Memory.writeList] at hrec
  exact ⟨_, hrec,
    read_sb_refresh (s := { s.cursorLost with lastAddr := s.frameAddr 1 }) hwf hsb ha, rfl⟩

/-- So does a master write of the register address alone, which ends as `Received` (R91, R101). -/
theorem masterWrite_address {s : State} {a : Byte} (hwf : s.wf = true) (hb : s.booted = true)
    (hc : s.hwCommunicating = false) (ha : a.toNat < s.rbLen.toNat) :
    ∃ t, masterWrite s.hwAddr [a] s = .next t ∧ t.showsFrame a ∧
      t = { s.frameDone [a] with rbPos := t.rbPos, draws := t.draws, lastAddr := a
                                 sb := t.sb, out := t.out } := by
  obtain ⟨hp, hcb, -, hst, -⟩ := (State.booted_iff s).mp hb
  obtain ⟨-, hrxb, -, hrecv⟩ := (State.staged_iff s).mp hst
  obtain ⟨-, -, hspans, -⟩ := (State.wf_iff s).mp hwf
  have hfits : [a].length ≤ s.rxbLen.toNat := hrxb ▸ Nat.le_add_left 1 _
  have haddr : (s.frameDone [a]).frameAddr 1 = a := State.frameAddr_frameDone s a []
  obtain ⟨t, ht, hshows, hframe⟩ :=
    received_address (s := s.frameDone [a]) (State.wf_frameDone hwf hfits) hb (by rwa [haddr])
  rw [haddr] at hshows hframe
  exact ⟨t, (masterWrite_of_fits hp hc hspans hrecv hcb hfits).trans ht, hshows, hframe⟩

/-! ## Reading from the register address -/

/-- An idle block after a master read of `n` bytes that put `bs` on the wire (R92, R135). -/
def State.frameRead (n : Len) (bs : List Byte) (s : State) : State :=
  { s with
    hwDir := .read, rxCnt := 0, txCnt := n, rxOver := false, hwResult := .sent
    hwLast := ⟨.send, .sb, BitVec.ofNat 16 (min n.toNat s.sbLen.toNat)⟩
    out := s.out ++ bs.map .wire }

/-- A master read of a block whose SB shows the frame clocks out the frame (R92, R134). -/
theorem masterRead_of_showsFrame {s : State} {a : Byte} (n : Len) (hwf : s.wf = true)
    (hp : s.panic = none) (hcb : s.hwCbSet = true) (hst : s.staged = true)
    (hc : s.hwCommunicating = false) (h : s.showsFrame a) :
    masterRead s.hwAddr n.toNat s = .next (s.frameRead n (s.frameBytes a n)) := by
  obtain ⟨hsb, -, hsend, -⟩ := (State.staged_iff s).mp hst
  obtain ⟨-, hspans, -⟩ := (State.wf_iff s).mp hwf
  rw [masterRead_of_idle hp hc hspans hsend hcb (Nat.le_of_lt_succ n.isLt)]
  simp only [h.getD_read hsb, BitVec.ofNat_toNat, BitVec.setWidth_eq, State.frameRead,
    State.frameBytes, List.map_map]
  rfl

/-- The two frames of a combined access one after the other: after `MW` the outputs are cleared for `MR`,
inside `MWR` they are not (R101). -/
theorem exec_mwr_of_inRange {s : State} {a : Byte} (n : Len) (hwf : s.wf = true) (hb : s.booted = true)
    (hc : s.hwCommunicating = false) (ha : a.toNat < s.rbLen.toNat) :
    ∃ t u, exec (.mw s.hwAddr [a]) s = .next t ∧ exec (.mr s.hwAddr n) t = .next u ∧
      exec (.mwr s.hwAddr a n) s = .next { u with out := t.out ++ u.out } ∧
      u.rb = s.rb ∧ u.lastAddr = a ∧ u.out = (s.frameBytes a n).map .wire := by
  obtain ⟨hp, hcb, -, hst, -⟩ := (State.booted_iff s).mp hb
  obtain ⟨t, (ht : masterWrite s.hwAddr [a] s.clearOut = .next t), hshows, hframe⟩ :=
    masterWrite_address (s := s.clearOut) hwf hb hc ha
  have hmw : exec (.mw s.hwAddr [a]) s = .next t := (whenLive_of_live hp _).trans ht
  have hwft : t.wf = true := blockInv_wf.exec _ s t hwf hmw
  have field {α : Type} (p : State → α) := congrArg p hframe
  have hpt : t.panic = none := (field State.panic).trans hp
  have hcbt : t.hwCbSet = true := (field State.hwCbSet).trans hcb
  have hstt : t.staged = true := (field State.staged).trans hst
  have hct : t.hwCommunicating = false := field State.hwCommunicating
  have haddr : t.hwAddr = s.hwAddr := field State.hwAddr
  have hbytes : t.frameBytes a n = s.frameBytes a n := field (State.frameBytes a n)
  refine ⟨t, t.clearOut.frameRead n (s.frameBytes a n), hmw, ?_, ?_, field State.rb,
    field State.lastAddr, rfl⟩
  · rw [exec_mr, whenLive_of_live hpt, ← haddr, ← hbytes]
    exact masterRead_of_showsFrame (s := t.clearOut) n hwft hpt hcbt hstt hct hshows
  · rw [exec_mwr, whenLive_of_live hp, ht, andThen_of_live hpt, ← haddr, ← hbytes]
    exact masterRead_of_showsFrame n hwft hpt hcbt hstt hct hshows

/-- Settles O39: the write of the address makes SB the frame from that address, and the read clocks it out. -/
theorem combinedAccessReadsFromItsAddress : Obligations.CombinedAccessReadsFromItsAddress := by
  intro s a n hwf hb hc ha
  obtain ⟨t, u, hmw, hmr, hmwr, hrb, haddr, hout⟩ := exec_mwr_of_inRange n hwf hb hc ha
  obtain ⟨hspans, -⟩ := (State.wf_iff s).mp hwf
  have hwire : wireBytes u.out = s.frameBytes a n := by rw [hout, wireBytes_map_wire]
  refine ⟨t, u, hmw, hmr, hmwr, hrb, haddr, ?_⟩
  rw [hwire]
  refine ⟨s.length_frameBytes a n, fun _ => s.getElem?_frameBytes a, ?_⟩
  rintro rfl hn hheader x hx
  have hlen : x < s.rbLen.toNat := Nat.lt_of_lt_of_le hx hheader
  rw [s.getElem?_frameBytes _ (by omega), frameByteAt_data hlen, Memory.read_of_spans hspans hlen]
  exact congrArg (fun y => some (Memory.byte s.rb y)) (Nat.zero_add x)

end Sys2Proof.Machine

/-! # The host's transfers

What the operations on the Register Buffer do between the host's call and its return: the bytes or bits that
move, the hook, the cursor (R111 to R120), and which panic ends them instead. -/

namespace Sys2Proof.Machine

/-! ## What a call starts from -/

@[simp] theorem State.inBounds_clearOut (s : State) (pos len : Nat) :
    s.clearOut.inBounds pos len = s.inBounds pos len := rfl

@[simp] theorem placeOffset_clearOut (s : State) (place : Place) :
    placeOffset s.clearOut place = placeOffset s place := by
  cases place <;> rfl

theorem rbBitSet_of_inBounds {s : State} {pos : Nat} {b : Byte} {v : Bool}
    (hb : s.inBounds pos 1 = true) (h7 : b.toNat ≤ 7) :
    rbBitSet pos b v s = modifyByte pos (fun t => setBit t b.toNat v) s := by
  rw [rbBitSet, if_neg (by simp [hb]), if_neg (Nat.not_lt.mpr h7)]

theorem rbMask_of_inBounds {s : State} {pos : Nat} {m v : Byte} (hb : s.inBounds pos 1 = true) :
    rbMask pos m v s = modifyByte pos (fun t => maskBits t m v) s := by
  rw [rbMask, if_neg (by simp [hb])]

/-! ## A call that panics -/

/-- An operation that panics leaves the state in which it did, with nothing returned (R240). -/
theorem whenLive_of_raise {s u : State} {f : State → Result} {c : PanicCause} (hp : s.panic = none)
    (h : f s.clearOut = raise c u) : whenLive s f = .next (u.panicked c) :=
  (whenLive_of_live hp f).trans h

theorem exec_rbWrite_of_outOfBounds {s : State} {place : Place} {len : Len} {v : List Byte}
    (hp : s.panic = none) (hb : s.inBounds (placeOffset s place) len.toNat = false) :
    exec (.rbWrite place len v) s = .next (s.clearOut.panicked .outOfBounds) := by
  refine (exec_rbWrite ..).trans (whenLive_of_raise hp ?_)
  rw [rbWrite_of_outOfBounds (by simpa using hb), andThen_raise]

theorem exec_rbRead_of_outOfBounds {s : State} {place : Place} {len : Len} (hp : s.panic = none)
    (hb : s.inBounds (placeOffset s place) len.toNat = false) :
    exec (.rbRead place len) s = .next (s.clearOut.panicked .outOfBounds) :=
  (exec_rbRead ..).trans
    (whenLive_of_raise hp (rbRead_of_outOfBounds (by simpa using hb)))

theorem exec_rbTyped_of_outOfBounds {s : State} {pos w : Len} (x : Option Nat) (hp : s.panic = none)
    (hb : s.inBounds pos.toNat w.toNat = false) :
    exec (.rbTyped pos w x) s = .next (s.clearOut.panicked .outOfBounds) := by
  cases x with
  | none => exact (exec_rbTypedRead ..).trans (whenLive_of_raise hp (rbRead_of_outOfBounds hb))
  | some x => exact (exec_rbTypedWrite ..).trans (whenLive_of_raise hp (rbWrite_of_outOfBounds hb))

theorem rbBitGet_of_outOfBounds {s : State} {pos : Nat} {b : Byte} {k : Bool → State → Result}
    (hb : s.inBounds pos 1 = false) : rbBitGet pos b k s = raise .outOfBounds s := by
  simp [rbBitGet, hb]

theorem rbBitSet_of_outOfBounds {s : State} {pos : Nat} {b : Byte} {v : Bool}
    (hb : s.inBounds pos 1 = false) : rbBitSet pos b v s = raise .outOfBounds s := by
  simp [rbBitSet, hb]

theorem rbMask_of_outOfBounds {s : State} {pos : Nat} {m v : Byte} (hb : s.inBounds pos 1 = false) :
    rbMask pos m v s = raise .outOfBounds s := by
  simp [rbMask, hb]

/-- A byte has no bit above 7 (R114). -/
theorem rbBitGet_of_noSuchBit {s : State} {pos : Nat} {b : Byte} {k : Bool → State → Result}
    (hb : s.inBounds pos 1 = true) (h7 : 7 < b.toNat) : rbBitGet pos b k s = raise .invalidArgument s := by
  rw [rbBitGet, if_neg (by simp [hb]), if_pos h7]

theorem rbBitSet_of_noSuchBit {s : State} {pos : Nat} {b : Byte} {v : Bool}
    (hb : s.inBounds pos 1 = true) (h7 : 7 < b.toNat) : rbBitSet pos b v s = raise .invalidArgument s := by
  rw [rbBitSet, if_neg (by simp [hb]), if_pos h7]

/-- The bit number is tested before the hook's turn comes (R115, R118). -/
theorem exec_rbBitSet_of_noSuchBit {s : State} {pos : Len} {b : Byte} (v : Bool) (hp : s.panic = none)
    (hb : s.inBounds pos.toNat 1 = true) (h7 : 7 < b.toNat) :
    exec (.rbBitSet pos b v) s = .next (s.clearOut.panicked .invalidArgument) :=
  (exec_rbBitSet ..).trans (whenLive_of_raise hp (rbBitSet_of_noSuchBit hb h7))

/-- Settles O16: each of the transfers asks for the bounds of R111 before anything else. -/
theorem outOfBoundsTransfersPanicFirst : Obligations.OutOfBoundsTransfersPanicFirst := by
  intro s pos len v x b m y d hp
  refine ⟨s.inBounds_iff _ _, fun hb => ⟨?_, ?_, ?_⟩, fun hb => ⟨?_, ?_⟩, fun hb => ⟨?_, ?_, ?_⟩⟩
  · exact exec_rbWrite_of_outOfBounds (place := .offset pos) hp hb
  · exact exec_rbRead_of_outOfBounds (place := .offset pos) hp hb
  · exact exec_rbTyped_of_outOfBounds x hp hb
  · exact exec_rbWrite_of_outOfBounds (place := .cursor) hp hb
  · exact exec_rbRead_of_outOfBounds (place := .cursor) hp hb
  · exact (exec_rbBitGet ..).trans (whenLive_of_raise hp (rbBitGet_of_outOfBounds hb))
  · exact (exec_rbBitSet ..).trans (whenLive_of_raise hp (rbBitSet_of_outOfBounds hb))
  · exact (exec_rbMask ..).trans (whenLive_of_raise hp (rbMask_of_outOfBounds hb))

/-! ## Byte transfers, undisturbed -/

/-- The state after a write of the bytes `v` from offset `pos`, its hook called (R112, R118). -/
def State.bytesWritten (pos : Nat) (v : List Byte) (s : State) : State :=
  { s with rb := Memory.writeList s.rb pos v, out := hookCalls s.cfg .write pos v.length }

/-- The state after a read of `len` bytes from offset `pos`, its hook called and nothing returned yet (R113,
R118). -/
def State.bytesRead (pos len : Nat) (s : State) : State :=
  { s with out := hookCalls s.cfg .read pos len }

/-- `RB_WRITE` at an offset or at the cursor (R112, R117). -/
theorem exec_rbWrite_of_quiet {s : State} {place : Place} {len : Len} {v : List Byte}
    (hq : s.quiet = true) (hh : hookSafe s.cfg .write = true) (hv : v.length = len.toNat)
    (hb : s.inBounds (placeOffset s place) len.toNat = true) :
    exec (.rbWrite place len v) s =
      .next ((s.bytesWritten (placeOffset s place) v).advanceCursor place len.toNat) := by
  obtain ⟨hp, hq⟩ := s.quiet_iff.mp hq
  rw [exec_rbWrite, whenLive_of_live hp, placeOffset_clearOut,
    rbWrite_of_quiet (s := s.clearOut) hp hq hh hb hv, andThen_of_live (by exact hp), State.bytesWritten, hv]
  rfl

/-- `RB_READ` at an offset or at the cursor (R113, R117). -/
theorem exec_rbRead_of_quiet {s : State} {place : Place} {len : Len} (hq : s.quiet = true)
    (hh : hookSafe s.cfg .read = true) (hb : s.inBounds (placeOffset s place) len.toNat = true) :
    exec (.rbRead place len) s =
      .next (((s.bytesRead (placeOffset s place) len.toNat).advanceCursor place len.toNat).emit
        (.bytes (Memory.bytes s.rb (placeOffset s place) len.toNat))) := by
  obtain ⟨hp, hq⟩ := s.quiet_iff.mp hq
  rw [exec_rbRead, whenLive_of_live hp, placeOffset_clearOut, rbRead_of_quiet (s := s.clearOut) hp hq hh hb]
  rfl

/-- Settles O17: the bytes of RB are those of `MemWrite` (R14). -/
theorem writeStoresItsBytesAndNothingElse : Obligations.WriteStoresItsBytesAndNothingElse := by
  intro s pos len v hq hh hv hb
  refine ⟨s.bytesWritten pos.toNat v, exec_rbWrite_of_quiet (place := .offset pos) hq hh hv hb, ?_,
    fun a => ?_⟩
  · rw [← hv]; rfl
  · rw [← hv]; exact Memory.read_writeList s.rb pos.toNat v a

/-- Settles O18: the bytes read are the ones the space lists. -/
theorem readReturnsTheBytesAndChangesNothing : Obligations.ReadReturnsTheBytesAndChangesNothing := by
  intro s pos len hwf hq hh hb
  obtain ⟨hspans, -⟩ := s.wf_iff.mp hwf
  obtain ⟨-, -, hend⟩ := (s.inBounds_iff _ _).mp hb
  refine ⟨Memory.bytes s.rb pos.toNat len.toNat, Memory.length_bytes _ _ _, fun i hi => ?_,
    exec_rbRead_of_quiet (place := .offset pos) hq hh hb⟩
  rw [Memory.getElem?_bytes _ _ _ _ hi, Memory.read_of_spans hspans (by omega)]

/-! ## The cursor -/

theorem State.advanceCursor_of_lt {s : State} {len : Len} (h : s.rbPos.toNat + len.toNat < s.rbLen.toNat) :
    s.advanceCursor .cursor len.toNat = { s with rbPos := s.rbPos + len } := by
  simp [State.advanceCursor, h]

/-- At the end of the buffer the cursor is free (R117, D24). -/
theorem State.advanceCursor_of_not_lt {s : State} {len : Nat}
    (h : ¬ s.rbPos.toNat + len < s.rbLen.toNat) : s.advanceCursor .cursor len = s.cursorLost :=
  if_neg h

/-- Settles O19: the transfer is that of the offset form, and only then the cursor moves. -/
theorem cursorTransfersMoveTheCursor : Obligations.CursorTransfersMoveTheCursor := by
  intro s len v hq hw hr hv hb
  have hwrite := exec_rbWrite_of_quiet (place := .cursor) hq hw hv hb
  have hread := exec_rbRead_of_quiet (place := .cursor) hq hr hb
  refine ⟨_, _, exec_rbWrite_of_quiet (place := .offset s.rbPos) hq hw hv hb,
    exec_rbRead_of_quiet (place := .offset s.rbPos) hq hr hb, ?_⟩
  split
  next hlt =>
    rw [State.advanceCursor_of_lt (by exact hlt)] at hwrite hread
    exact ⟨hwrite, hread⟩
  next hend =>
    rw [State.advanceCursor_of_not_lt (by exact hend)] at hwrite hread
    exact ⟨hwrite, hread⟩

/-- Settles O24: the test of R117 is all that `RB_SEEK` does before the move. -/
theorem seekMovesTheCursorInside : Obligations.SeekMovesTheCursorInside := by
  intro s pos hp
  rw [exec_rbSeek, whenLive_of_live hp, rbSeek]
  rfl

/-! ## Bits -/

/-- A byte written with one bit set or cleared: the other bits are those of `x`, the other bytes stay
(R115). -/
theorem Memory.bits_write_setBit (m : Memory) (pos : Nat) (x : Byte) {b : Byte} (h7 : b.toNat ≤ 7)
    (v : Bool) :
    (∀ k, k < 8 → (Memory.byte (Memory.write m pos (setBit x b.toNat v)) pos).getLsbD k =
      if k = b.toNat then v else x.getLsbD k) ∧
    ∀ a, a ≠ pos → Memory.read (Memory.write m pos (setBit x b.toNat v)) a = Memory.read m a := by
  refine ⟨fun k hk => ?_, fun a ha => Memory.read_write_other m _ ha⟩
  rw [Memory.byte_of_read (Memory.read_write_same m pos _), getLsbD_setBit x _ v (by omega) k hk]

/-- A byte written with the bits under `y` taken from `v`: the others are those of `x`, the other bytes stay
(R116). -/
theorem Memory.bits_write_maskBits (m : Memory) (pos : Nat) (x y v : Byte) :
    (∀ k, k < 8 → (Memory.byte (Memory.write m pos (maskBits x y v)) pos).getLsbD k =
      if y.getLsbD k then v.getLsbD k else x.getLsbD k) ∧
    ∀ a, a ≠ pos → Memory.read (Memory.write m pos (maskBits x y v)) a = Memory.read m a := by
  refine ⟨fun k hk => ?_, fun a ha => Memory.read_write_other m _ ha⟩
  rw [Memory.byte_of_read (Memory.read_write_same m pos _), getLsbD_maskBits x y v k hk]

/-- Settles O20: in bounds only the bit number is left to test. -/
theorem bitGetReturnsTheBit : Obligations.BitGetReturnsTheBit := by
  intro s pos b hp hb
  rw [exec_rbBitGet]
  split
  next h7 =>
    rw [whenLive_of_live hp, rbBitGet_of_inBounds (s := s.clearOut) hb h7]
    rfl
  next h7 => exact whenLive_of_raise hp (rbBitGet_of_noSuchBit hb (Nat.lt_of_not_le h7))

theorem exec_rbBitSet_of_quiet {s : State} {pos : Len} {b : Byte} (v : Bool) (hq : s.quiet = true)
    (hh : hookSafe s.cfg .write = true) (hb : s.inBounds pos.toNat 1 = true) (h7 : b.toNat ≤ 7) :
    exec (.rbBitSet pos b v) s =
      .next (s.bytesWritten pos.toNat [setBit (Memory.byte s.rb pos.toNat) b.toNat v]) := by
  obtain ⟨hp, hq⟩ := s.quiet_iff.mp hq
  exact (whenLive_of_live hp _).trans (rbBitSet_of_quiet (s := s.clearOut) hp hq hh hb h7)

theorem exec_rbMask_of_quiet {s : State} {pos : Len} (m v : Byte) (hq : s.quiet = true)
    (hh : hookSafe s.cfg .write = true) (hb : s.inBounds pos.toNat 1 = true) :
    exec (.rbMask pos m v) s =
      .next (s.bytesWritten pos.toNat [maskBits (Memory.byte s.rb pos.toNat) m v]) := by
  obtain ⟨hp, hq⟩ := s.quiet_iff.mp hq
  exact (whenLive_of_live hp _).trans (rbMask_of_quiet (s := s.clearOut) hp hq hh hb)

/-- Settles O21: the byte is written back with one bit changed. -/
theorem bitSetChangesOneBit : Obligations.BitSetChangesOneBit := by
  intro s pos b v hq hh hb
  obtain ⟨hp, -⟩ := s.quiet_iff.mp hq
  exact ⟨fun h7 => ⟨_, exec_rbBitSet_of_quiet v hq hh hb h7, rfl,
    Memory.bits_write_setBit s.rb pos.toNat _ h7 v⟩, exec_rbBitSet_of_noSuchBit v hp hb⟩

/-- Settles O22: the byte is written back with the masked bits changed. -/
theorem maskChangesTheMaskedBits : Obligations.MaskChangesTheMaskedBits :=
  fun s pos m v hq hh hb => ⟨_, exec_rbMask_of_quiet m v hq hh hb, rfl,
    Memory.bits_write_maskBits s.rb pos.toNat _ m v⟩

/-! ## A bit operation with interrupt steps inside -/

theorem fireHook_of_noHook {s : State} (h : s.cfg.hasHook = false) (kind : HookKind) (pos len : Nat) :
    fireHook kind pos len s = .next s := by
  simp [fireHook, h]

/-- The write step of a read-modify-write goes by the byte read before the interrupt steps (R67 d, R115). -/
theorem modifyByte_of_due {s u : State} {pos : Nat} {f : Byte → Byte} {es : List Interrupt}
    {later : List (List Interrupt)} (hp : s.panic = none) (hdue : s.preempt = es :: later)
    (hu : deliver es (s.expecting later) = .next u) (hup : u.panic = none)
    (hnone : u.cfg.hasHook = false) :
    modifyByte pos f s = .next (u.storeRb pos (f (Memory.byte s.rb pos))) := by
  rw [modifyByte, andThenMain, andThen_of_live hp, preemptionPoint_of_due hdue, hu, andThen_of_live hup]
  exact fireHook_of_noHook (s := u.storeRb pos _) hnone _ _ _

/-- Settles O23: the byte written is the byte read before the interrupt steps with one bit changed. -/
theorem bitSetLosesAWriteThatFallsBetween : Obligations.BitSetLosesAWriteThatFallsBetween := by
  intro s u pos b v es later hp hdue hb h7 hu hup hnone
  refine ⟨u.storeRb pos.toNat (setBit (Memory.byte s.rb pos.toNat) b.toNat v), ?_, rfl,
    Memory.bits_write_setBit u.rb pos.toNat _ h7 v⟩
  rw [exec_rbBitSet, whenLive_of_live hp, rbBitSet_of_inBounds (by simpa using hb) h7]
  exact modifyByte_of_due (s := s.clearOut) hp hdue hu hup hnone

/-! ## Typed values -/

theorem getElem?_bytesOfNat {w j : Nat} (x : Nat) (hj : j < w) :
    (bytesOfNat w x)[j]? = some (BitVec.ofNat 8 (x / 256 ^ j)) := by
  induction w generalizing x j with
  | zero => omega
  | succ w ih =>
    cases j with
    | zero => simp [bytesOfNat]
    | succ j =>
      rw [bytesOfNat, List.getElem?_cons_succ, ih _ (by omega), Nat.div_div_eq_div_mul, Nat.pow_succ']

@[simp] theorem length_typedBytes (e : Endian) (w x : Nat) : (typedBytes e w x).length = w := by
  cases e <;> simp [typedBytes]

/-- Under `big` the least significant byte is the last one (R62). -/
theorem getElem?_typedBytes_big {w j : Nat} (x : Nat) (hj : j < w) :
    (typedBytes .big w x)[w - 1 - j]? = some (BitVec.ofNat 8 (x / 256 ^ j)) := by
  rw [typedBytes, List.getElem?_reverse (by rw [length_bytesOfNat]; omega), length_bytesOfNat,
    show w - 1 - (w - 1 - j) = j by omega, getElem?_bytesOfNat x hj]

/-- In either order the bytes of a value give it back when it fits (R62, R119). -/
theorem typedValue_typedBytes (e : Endian) {w x : Nat} (hx : x < 256 ^ w) :
    typedValue e (typedBytes e w x) = x := by
  cases e with
  | little => exact natOfBytes_bytesOfNat w x hx
  | big => rw [typedBytes, typedValue, List.reverse_reverse, natOfBytes_bytesOfNat w x hx]

theorem Memory.read_writeList_of_lt (m : Memory) (a : Nat) {vs : List Byte} {j : Nat} (hj : j < vs.length) :
    Memory.read (Memory.writeList m a vs) (a + j) = vs[j]? := by
  rw [Memory.read_writeList, if_pos (by omega), Nat.add_sub_cancel_left]

/-- The bytes read where bytes were just written are those bytes (R14). -/
theorem Memory.bytes_writeList (m : Memory) (a : Nat) (vs : List Byte) :
    Memory.bytes (Memory.writeList m a vs) a vs.length = vs := by
  refine List.ext_getElem (Memory.length_bytes _ _ _) fun j _ hj => ?_
  have hread := (Memory.read_writeList_of_lt m a hj).trans (List.getElem?_eq_getElem hj)
  rw [← Option.some_inj, ← List.getElem?_eq_getElem, Memory.getElem?_bytes _ _ _ _ hj,
    Memory.byte_of_read hread]

@[simp] theorem State.cfg_bytesWritten (pos : Nat) (v : List Byte) (s : State) :
    (s.bytesWritten pos v).cfg = s.cfg := rfl

/-- Where a typed value was just written, its bytes stand for it. -/
theorem State.typedValue_bytesWritten (s : State) (pos : Nat) (e : Endian) {w x : Nat} (hx : x < 256 ^ w) :
    typedValue e (Memory.bytes (s.bytesWritten pos (typedBytes e w x)).rb pos w) = x := by
  have hbytes := Memory.bytes_writeList s.rb pos (typedBytes e w x)
  rw [length_typedBytes] at hbytes
  exact (congrArg (typedValue e) hbytes).trans (typedValue_typedBytes e hx)

theorem exec_rbTypedWrite_of_quiet {s : State} {pos w : Len} (x : Nat) (hq : s.quiet = true)
    (hh : hookSafe s.cfg .write = true) (hb : s.inBounds pos.toNat w.toNat = true) :
    exec (.rbTyped pos w (some x)) s =
      .next (s.bytesWritten pos.toNat (typedBytes s.cfg.fieldEndian w.toNat x)) := by
  obtain ⟨hp, hq⟩ := s.quiet_iff.mp hq
  rw [exec_rbTypedWrite, whenLive_of_live hp,
    rbWrite_of_quiet (s := s.clearOut) hp hq hh hb (length_typedBytes ..), State.bytesWritten,
    length_typedBytes]
  rfl

theorem exec_rbTypedRead_of_quiet {s : State} {pos w : Len} (hq : s.quiet = true)
    (hh : hookSafe s.cfg .read = true) (hb : s.inBounds pos.toNat w.toNat = true) :
    exec (.rbTyped pos w none) s = .next ((s.bytesRead pos.toNat w.toNat).emit
      (.value (typedValue s.cfg.fieldEndian (Memory.bytes s.rb pos.toNat w.toNat)))) := by
  obtain ⟨hp, hq⟩ := s.quiet_iff.mp hq
  rw [exec_rbTypedRead, whenLive_of_live hp, rbRead_of_quiet (s := s.clearOut) hp hq hh hb]
  rfl

/-- Settles O25: the typed read takes back the bytes that the typed write laid out. -/
theorem typedReadReturnsTheTypedWrite : Obligations.TypedReadReturnsTheTypedWrite := by
  intro s pos w x _ hq hw hr hx hb
  have hlen := length_typedBytes s.cfg.fieldEndian w.toNat x
  refine ⟨_, exec_rbTypedWrite_of_quiet x hq hw hb, ?_, fun j hj => ⟨fun he => ?_, fun he => ?_⟩,
    fun a ha => ?_, ?_⟩
  · rw [State.bytesWritten, hlen]
  · refine (Memory.read_writeList_of_lt s.rb pos.toNat (by omega)).trans ?_
    rw [he]
    exact getElem?_bytesOfNat x hj
  · refine (Memory.read_writeList_of_lt s.rb pos.toNat (by omega)).trans ?_
    rw [he, getElem?_typedBytes_big x hj]
  · refine (Memory.read_writeList s.rb pos.toNat _ a).trans (if_neg ?_)
    omega
  · have hread := exec_rbTypedRead_of_quiet
      (s := s.bytesWritten pos.toNat (typedBytes s.cfg.fieldEndian w.toNat x)) hq hr hb
    rwa [State.cfg_bytesWritten, State.typedValue_bytesWritten s pos.toNat s.cfg.fieldEndian hx] at hread

/-! ## Fill -/

/-- Settles O26: one `MemWrite` of the whole buffer, under the bounds rule unless it is empty. -/
theorem fillSetsEveryByte : Obligations.FillSetsEveryByte := by
  intro s v hq
  obtain ⟨hp, hpre⟩ := s.quiet_iff.mp hq
  refine ⟨fun hb => ⟨s.clearOut.storeRbList 0 (List.replicate s.rbLen.toNat v), ?_, rfl, fun a => ?_⟩,
    fun hb h0 => ?_⟩
  · exact (whenLive_of_live hp _).trans (rbFill_of_quiet (s := s.clearOut) hp hpre hb v)
  · refine (Memory.read_writeList s.rb 0 _ a).trans ?_
    by_cases ha : a < s.rbLen.toNat <;> simp [ha]
  · exact (exec_rbFill ..).trans (whenLive_of_raise hp (rbFill_of_unbound (s := s.clearOut) h0 hb v))

/-! ## Null hooks -/

/-- The bytes move, the cursor does not (R118). -/
theorem exec_rbWrite_of_nullHook {s : State} {place : Place} {len : Len} {v : List Byte}
    (hq : s.quiet = true) (hk : s.cfg.hasHook = true) (hn : s.cfg.writeHookNull = true)
    (hv : v.length = len.toNat) (hb : s.inBounds (placeOffset s place) len.toNat = true) :
    exec (.rbWrite place len v) s =
      .next ((s.clearOut.storeRbList (placeOffset s place) v).panicked .nullCallback) := by
  obtain ⟨hp, hq⟩ := s.quiet_iff.mp hq
  refine (exec_rbWrite ..).trans (whenLive_of_raise hp ?_)
  rw [placeOffset_clearOut, rbWrite_of_nullHook (s := s.clearOut) hp hq hk hn hb hv, andThen_raise]

theorem exec_rbTypedWrite_of_nullHook {s : State} {pos w : Len} (x : Nat) (hq : s.quiet = true)
    (hk : s.cfg.hasHook = true) (hn : s.cfg.writeHookNull = true)
    (hb : s.inBounds pos.toNat w.toNat = true) :
    exec (.rbTyped pos w (some x)) s = .next ((s.clearOut.storeRbList pos.toNat
      (typedBytes s.cfg.fieldEndian w.toNat x)).panicked .nullCallback) := by
  obtain ⟨hp, hq⟩ := s.quiet_iff.mp hq
  exact (exec_rbTypedWrite ..).trans (whenLive_of_raise hp
    (rbWrite_of_nullHook (s := s.clearOut) hp hq hk hn hb (length_typedBytes ..)))

theorem exec_rbBitSet_of_nullHook {s : State} {pos : Len} {b : Byte} (v : Bool) (hq : s.quiet = true)
    (hk : s.cfg.hasHook = true) (hn : s.cfg.writeHookNull = true) (hb : s.inBounds pos.toNat 1 = true)
    (h7 : b.toNat ≤ 7) :
    exec (.rbBitSet pos b v) s = .next ((s.clearOut.storeRb pos.toNat
      (setBit (Memory.byte s.rb pos.toNat) b.toNat v)).panicked .nullCallback) := by
  obtain ⟨hp, hq⟩ := s.quiet_iff.mp hq
  refine (exec_rbBitSet ..).trans (whenLive_of_raise hp ?_)
  rw [rbBitSet_of_inBounds (by simpa using hb) h7]
  exact modifyByte_of_nullHook (s := s.clearOut) hp hq hk hn

theorem exec_rbMask_of_nullHook {s : State} {pos : Len} (m v : Byte) (hq : s.quiet = true)
    (hk : s.cfg.hasHook = true) (hn : s.cfg.writeHookNull = true) (hb : s.inBounds pos.toNat 1 = true) :
    exec (.rbMask pos m v) s = .next ((s.clearOut.storeRb pos.toNat
      (maskBits (Memory.byte s.rb pos.toNat) m v)).panicked .nullCallback) := by
  obtain ⟨hp, hq⟩ := s.quiet_iff.mp hq
  refine (exec_rbMask ..).trans (whenLive_of_raise hp ?_)
  rw [rbMask_of_inBounds (by simpa using hb)]
  exact modifyByte_of_nullHook (s := s.clearOut) hp hq hk hn

/-- Nothing is returned (R113, R118). -/
theorem exec_rbRead_of_nullHook {s : State} {place : Place} {len : Len} (hq : s.quiet = true)
    (hk : s.cfg.hasHook = true) (hn : s.cfg.readHookNull = true)
    (hb : s.inBounds (placeOffset s place) len.toNat = true) :
    exec (.rbRead place len) s = .next (s.clearOut.panicked .nullCallback) := by
  obtain ⟨hp, hq⟩ := s.quiet_iff.mp hq
  exact (exec_rbRead ..).trans (whenLive_of_raise hp
    (rbRead_of_nullHook (s := s.clearOut) hp hq hk hn (by simpa using hb)))

theorem exec_rbTypedRead_of_nullHook {s : State} {pos w : Len} (hq : s.quiet = true)
    (hk : s.cfg.hasHook = true) (hn : s.cfg.readHookNull = true)
    (hb : s.inBounds pos.toNat w.toNat = true) :
    exec (.rbTyped pos w none) s = .next (s.clearOut.panicked .nullCallback) := by
  obtain ⟨hp, hq⟩ := s.quiet_iff.mp hq
  exact (exec_rbTypedRead ..).trans
    (whenLive_of_raise hp (rbRead_of_nullHook (s := s.clearOut) hp hq hk hn hb))

/-- Settles O60: the hook comes after the bytes and before the cursor and the return. -/
theorem aNullHookPanicsAfterTheTransfer : Obligations.ANullHookPanicsAfterTheTransfer := by
  intro s place pos len v x b m y d hq hk
  obtain ⟨hp, -⟩ := s.quiet_iff.mp hq
  refine ⟨fun hn hv hb => ?write, fun hn hb => ?typedWrite,
    fun hn hb => ⟨fun h7 => ?bitSet, ?noSuchBit, ?mask⟩,
    fun hn hb => exec_rbRead_of_nullHook hq hk hn hb, fun hn hb => exec_rbTypedRead_of_nullHook hq hk hn hb⟩
  case write =>
    refine ⟨_, exec_rbWrite_of_nullHook hq hk hn hv hb, rfl, fun a => ?_⟩
    rw [← hv]
    exact Memory.read_writeList s.rb _ v a
  case typedWrite =>
    refine ⟨_, exec_rbTypedWrite_of_nullHook x hq hk hn hb, rfl, fun a => ?_⟩
    refine (Memory.read_writeList s.rb _ _ a).trans ?_
    rw [length_typedBytes]
  case bitSet =>
    exact ⟨_, exec_rbBitSet_of_nullHook d hq hk hn hb h7, rfl, Memory.bits_write_setBit s.rb _ _ h7 d⟩
  case noSuchBit => exact exec_rbBitSet_of_noSuchBit d hp hb
  case mask =>
    exact ⟨_, exec_rbMask_of_nullHook m y hq hk hn hb, rfl, Memory.bits_write_maskBits s.rb _ _ m y⟩

end Sys2Proof.Machine

/-! # The bus hardware's events and setters

What each bus event answers where it is enabled, one equation for each branch of its rule (R132 to R136), that
it has no step elsewhere (R130), and what the contract's setters store (R140 to R143). -/

namespace Sys2Proof.Machine

/-- Outside a panic an operation answers what the shared operation it runs does, the outputs of the one before
forgotten (R240, log 17). -/
theorem exec_of_live {i : Instr} {s : State} {f : State → Result} {o : Result}
    (hi : exec i s = whenLive s f) (hp : s.panic = none) (hf : f s.clearOut = o) : exec i s = o := by
  rw [hi, whenLive_of_live hp, hf]

/-! ## Bytes of a master write -/

/-- A byte below the length handed over, for which RXB has an offset, is stored and counted (R133). -/
theorem busWbyte_of_fits {s : State} (b : Byte) (hr : s.receiving = true)
    (hlt : s.rxCnt.toNat < s.hwRecvLen.toNat)
    (hlisted : (Memory.read s.rxb s.rxCnt.toNat).isSome = true) :
    busWbyte b s = .next { s with
      rxb := Memory.write s.rxb s.rxCnt.toNat b, rxCnt := s.rxCnt + 1 } := by
  rw [busWbyte, if_neg (by simp [hr]), if_pos ⟨hlt, hlisted⟩]

/-- An excess byte only leaves the overflow flag (R133, R99 case 5, log 15). -/
theorem busWbyte_of_excess {s : State} (b : Byte) (hr : s.receiving = true)
    (hex : s.hwRecvLen.toNat ≤ s.rxCnt.toNat ∨ Memory.read s.rxb s.rxCnt.toNat = none) :
    busWbyte b s = .next { s with rxOver := true } := by
  rw [busWbyte, if_neg (by simp [hr]), if_neg]
  rintro ⟨hlt, hlisted⟩
  rcases hex with hle | hnone
  · exact Nat.not_lt.mpr hle hlt
  · simp [hnone] at hlisted

theorem busWbyte_of_not_receiving {s : State} (b : Byte)
    (hr : ¬ (s.hwCommunicating = true ∧ s.hwDir = .write)) : busWbyte b s = .fault .notEnabled := by
  rw [← State.receiving_iff] at hr
  rw [busWbyte, if_pos (by simpa using hr)]

/-- Settles O28: in and beyond the length handed over, RXB after the byte being one `Memory.write`. -/
theorem receivedByteIsStoredOrDiscarded : Obligations.ReceivedByteIsStoredOrDiscarded := by
  intro s b hp hc hd
  have hr : s.clearOut.receiving = true := (State.receiving_iff _).mpr ⟨hc, hd⟩
  refine ⟨fun hlt hlisted => ?fits, fun hex => ?excess⟩
  case fits =>
    exact ⟨{ s with rxb := Memory.write s.rxb s.rxCnt.toNat b, rxCnt := s.rxCnt + 1, out := [] },
      exec_of_live (exec_busWbyte b s) hp (busWbyte_of_fits b hr hlt hlisted), rfl,
      fun a => Memory.read_write s.rxb s.rxCnt.toNat a b⟩
  case excess => exact exec_of_live (exec_busWbyte b s) hp (busWbyte_of_excess b hr hex)

/-! ## Bytes of a master read -/

/-- The byte that goes out next: from SB below the length handed over, zero beyond and where SB has no such
offset (R134, R99 case 6, log 15). -/
theorem State.sendByte_eq {s : State} {c : Byte}
    (h : s.txCnt.toNat < s.hwSendLen.toNat ∧ Memory.read s.sb s.txCnt.toNat = some c ∨
      (s.hwSendLen.toNat ≤ s.txCnt.toNat ∨ Memory.read s.sb s.txCnt.toNat = none) ∧ c = 0x00) :
    s.sendByte = c := by
  rcases h with ⟨hlt, hread⟩ | ⟨hle | hnone, rfl⟩
  · rw [State.sendByte, if_pos hlt, hread, Option.getD_some]
  · rw [State.sendByte, if_neg (Nat.not_lt.mpr hle), txUnderrun]
  · rw [State.sendByte, hnone, Option.getD_none, ite_self, txUnderrun]

/-- A byte clocked out is counted and goes out on the wire (R134); the count has room for it (U9). -/
theorem busRbyte_of_sending {s : State} (hr : s.sending = true) (hn : s.txCnt.toNat < lenMax) :
    busRbyte s = .next ({ s with txCnt := s.txCnt + 1 }.emit (.wire s.sendByte)) := by
  rw [busRbyte, if_neg (by simp [hr]), if_neg hn.ne]

theorem busRbyte_of_not_sending {s : State} (hr : ¬ (s.hwCommunicating = true ∧ s.hwDir = .read)) :
    busRbyte s = .fault .notEnabled := by
  rw [← State.sending_iff] at hr
  rw [busRbyte, if_pos (by simpa using hr)]

/-- Settles O29: the event puts out `sendByte`, which is `c` in each of the three cases. -/
theorem sentByteComesFromTheSendBuffer : Obligations.SentByteComesFromTheSendBuffer := by
  intro s c hp hc hd hn hbyte
  have hr : s.clearOut.sending = true := (State.sending_iff _).mpr ⟨hc, hd⟩
  have hsend : s.clearOut.sendByte = c := State.sendByte_eq (s := s.clearOut) hbyte
  rw [exec_busRbyte, whenLive_of_live hp, busRbyte_of_sending hr hn, hsend]
  rfl

/-! ## The end of a transaction -/

theorem busEnd_of_inFlight {s : State} (hc : s.hwCommunicating = true) :
    busEnd s = completeTransaction s := if_pos hc

theorem busEnd_of_idle {s : State} (hc : s.hwCommunicating = false) : busEnd s = .fault .notEnabled :=
  if_neg (by simp [hc])

theorem busAbort_of_inFlight {s : State} (kind : AbortKind) (hc : s.hwCommunicating = true) :
    busAbort kind s = .next { s with hwCommunicating := false, hwResult := abortResult kind } := if_pos hc

theorem busAbort_of_idle {s : State} (kind : AbortKind) (hc : s.hwCommunicating = false) :
    busAbort kind s = .fault .notEnabled := if_neg (by simp [hc])

/-- Under `nack` an overflowed master write ends with its result alone (R99 case 5, R135). -/
theorem completeTransaction_refused {s : State} (hd : s.hwDir = .write)
    (ho : s.rxOver = true ∧ s.cfg.rxOverflow = .nack) :
    completeTransaction s = .next { s with hwCommunicating := false, hwResult := .nackSent } := by
  obtain ⟨hover, hnack⟩ := ho
  simp [completeTransaction, hd, hover, hnack]

/-- The end of a master write that is not refused, with a callback missing: the record is made before the
panic (R135). -/
theorem completeTransaction_write_of_nullCallback {s : State} (hd : s.hwDir = .write)
    (ho : ¬ (s.rxOver = true ∧ s.cfg.rxOverflow = .nack)) (hcb : s.hwCbSet = false) :
    completeTransaction s = raise .nullCallback { s with
      hwCommunicating := false, hwResult := .received, hwLast := ⟨.receive, .rxb, s.rxCnt⟩ } := by
  simp [completeTransaction, hd, ho, receiveDone, hcb]

/-- Settles O30: the three ends of a master write. -/
theorem endOfAWriteRunsReceived : Obligations.EndOfAWriteRunsReceived := by
  intro s hp hc hd
  have hend : exec .busEnd s = completeTransaction s.clearOut :=
    exec_of_live (exec_busEnd s) hp (busEnd_of_inFlight hc)
  refine ⟨fun ho => ?refused, fun ho hcb => ?received, fun ho hcb => ?nullCallback⟩
  case refused => exact hend.trans (completeTransaction_refused hd ho)
  case received =>
    rw [hend, completeTransaction_write (s := s.clearOut) hd ho hcb, exec_received,
      whenLive_of_live (by exact hp)]
    rfl
  case nullCallback => exact hend.trans (completeTransaction_write_of_nullCallback hd ho hcb)

/-- Settles O32: both kinds of anomaly. -/
theorem abortRecordsTheAnomalyOnly : Obligations.AbortRecordsTheAnomalyOnly := by
  intro s hp hc
  have habort (kind : AbortKind) : exec (.busAbort kind) s =
      .next { s with hwCommunicating := false, hwResult := abortResult kind, out := [] } :=
    exec_of_live (exec_busAbort kind s) hp (busAbort_of_inFlight kind hc)
  exact ⟨habort .error, habort .nackSent⟩

/-- Settles O33: each event asks for its condition of R130 before anything else. -/
theorem disabledBusEventsHaveNoStep : Obligations.DisabledBusEventsHaveNoStep := by
  intro s b k hp
  refine ⟨fun hr => ?wbyte, fun hr => ?rbyte, fun hc => ⟨?stop, ?abort⟩⟩
  case wbyte => exact exec_of_live (exec_busWbyte b s) hp (busWbyte_of_not_receiving b hr)
  case rbyte => exact exec_of_live (exec_busRbyte s) hp (busRbyte_of_not_sending hr)
  case stop => exact exec_of_live (exec_busEnd s) hp (busEnd_of_idle hc)
  case abort => exact exec_of_live (exec_busAbort k s) hp (busAbort_of_idle k hc)

/-! ## The start of a transaction -/

/-- A start while a transaction is in flight goes on from where `BUS_END` would have led (R132, D31). -/
theorem busStart_of_busEnd {s u : State} (hc : s.hwCommunicating = true) (hend : busEnd s = .next u)
    (hu : u.panic = none) (a7 : BusAddr) (rw : BusDir) :
    busStart a7 rw s = if a7 = u.hwAddr then .next (u.begun rw) else .next u := by
  rw [busEnd_of_inFlight hc] at hend
  rw [busStart, if_pos hc, hend, andThen_of_live hu]

/-- Settles O27: from the state that `BUS_END` leaves, or at once on an idle bus. -/
theorem startBeginsATransaction : Obligations.StartBeginsATransaction := by
  intro s a7 rw hp
  have hstart : exec (.busStart a7 rw) s = busStart a7 rw s.clearOut :=
    exec_of_live (exec_busStart a7 rw s) hp rfl
  refine ⟨fun hc => ?idle, fun hc u hend hu => ?inFlight⟩
  case idle => exact hstart.trans (busStart_of_idle (s := s.clearOut) hp hc a7 rw)
  case inFlight =>
    rw [exec_busEnd, whenLive_of_live hp] at hend
    exact hstart.trans (busStart_of_busEnd (s := s.clearOut) hc hend hu a7 rw)

/-! ## Another slave's address -/

section OtherSlave

variable {s : State} {a7 : BusAddr}

/-- A start for another slave on an idle bus leaves the block as it is (R132, R99 case 1). -/
theorem busStart_of_otherSlave (hp : s.panic = none) (hc : s.hwCommunicating = false)
    (ha : a7 ≠ s.hwAddr) (rw : BusDir) : busStart a7 rw s = .next s := by
  rw [busStart_of_idle hp hc, if_neg ha]

theorem masterWrite_of_otherSlave (hp : s.panic = none) (hc : s.hwCommunicating = false)
    (ha : a7 ≠ s.hwAddr) (f : List Byte) : masterWrite a7 f s = .next s := by
  rw [masterWrite, busStart_of_otherSlave hp hc ha, andThen_of_live hp, if_neg (by simp [hc])]

theorem masterRead_of_otherSlave (hp : s.panic = none) (hc : s.hwCommunicating = false)
    (ha : a7 ≠ s.hwAddr) (n : Nat) : masterRead a7 n s = .next s := by
  rw [masterRead, busStart_of_otherSlave hp hc ha, andThen_of_live hp, if_neg (by simp [hc])]

end OtherSlave

/-- Settles O35: the start goes unanswered, and with it the rest of each frame. -/
theorem trafficToAnotherSlaveChangesNothing : Obligations.TrafficToAnotherSlaveChangesNothing := by
  intro s a7 f a n rw hp hc ha
  have hp' : s.clearOut.panic = none := hp
  have hc' : s.clearOut.hwCommunicating = false := hc
  have ha' : a7 ≠ s.clearOut.hwAddr := ha
  refine ⟨?mw, ?mr, ?mwr, ?start⟩
  case mw => exact exec_of_live (exec_mw a7 f s) hp (masterWrite_of_otherSlave hp' hc' ha' f)
  case mr => exact exec_of_live (exec_mr a7 n s) hp (masterRead_of_otherSlave hp' hc' ha' n.toNat)
  case mwr =>
    refine exec_of_live (exec_mwr a7 a n s) hp ?_
    rw [masterWrite_of_otherSlave hp' hc' ha' [a], andThen_of_live hp']
    exact masterRead_of_otherSlave hp' hc' ha' n.toNat
  case start => exact exec_of_live (exec_busStart a7 rw s) hp (busStart_of_otherSlave hp' hc' ha' rw)

/-! ## The contract's setters -/

/-- Settles O34: the address's bits 6:0 are what its cut to seven bits keeps. -/
theorem hardwareSettersStoreTheirOperands : Obligations.HardwareSettersStoreTheirOperands := by
  intro s r t a buf len hp
  refine ⟨?callbacks, ?address, ?recvBuffer, ?sendBuffer⟩
  case callbacks => exact exec_of_live (exec_hwSetCallbacks r t s) hp rfl
  case address =>
    rw [← BitVec.setWidth_eq_extractLsb' (by decide)]
    exact exec_of_live (exec_hwSetAddress a s) hp rfl
  case recvBuffer => exact exec_of_live (exec_hwSetRecvbuffer buf len s) hp rfl
  case sendBuffer => exact exec_of_live (exec_hwSetSendbuffer buf len s) hp rfl

end Sys2Proof.Machine

/-! # The staging buffers and the frames that pass through them

What the manager does to SB and RXB on its own account: construction, the setters, the resizes, the refresh and
the callbacks (R161 to R170); what an undisturbed `update` makes of them (R160); and what a whole master frame
finds and leaves there (R91, R92, R171 to R173). -/

namespace Sys2Proof.Machine

/-! ## Setters -/

/-- Settles O45: the address's cut to seven bits loses none of a value that passed the test. -/
theorem settersStoreForLater : Obligations.SettersStoreForLater := by
  intro s t x hp
  refine ⟨?timeout, fun hx => ?inRange, fun hx => ?outOfRange⟩
  case timeout => exact exec_of_live (exec_setTimeout t s) hp rfl
  case inRange =>
    rw [BitVec.ofNat_toNat]
    exact exec_of_live (exec_setAddress x s) hp (if_neg (Nat.not_lt.mpr hx))
  case outOfRange => exact exec_of_live (exec_setAddress x s) hp (if_pos hx)

/-! ## The end of a master read -/

/-- How many bytes a master read took from SB, as a length (R97). -/
theorem State.sentCount_eq (s : State) :
    s.sentCount = BitVec.ofNat 16 (min s.txCnt.toNat s.hwSendLen.toNat) := by
  rw [← s.toNat_sentCount, BitVec.ofNat_toNat, BitVec.setWidth_eq]

/-- The end of a master read with a callback missing: the record is made before the panic (R135). -/
theorem completeTransaction_read_of_nullCallback {s : State} (hd : s.hwDir = .read)
    (hcb : s.hwCbSet = false) :
    completeTransaction s = raise .nullCallback { s with
      hwCommunicating := false, hwResult := .sent, hwLast := ⟨.send, .sb, s.sentCount⟩ } := by
  simp only [completeTransaction, hd, sendDone, hcb, Bool.false_eq_true, if_false]
  rfl

/-- Settles O31: with the callbacks and without; the callback itself does nothing. -/
theorem endOfAReadRecordsSent : Obligations.EndOfAReadRecordsSent := by
  refine ⟨fun s hp hc hd => ?stop, fun s n hp => exec_of_live (exec_sent n s) hp rfl⟩
  rw [exec_of_live (exec_busEnd s) hp (busEnd_of_inFlight hc), ← s.sentCount_eq]
  by_cases hcb : s.hwCbSet = true
  · rw [completeTransaction_read (s := s.clearOut) hd hcb, if_pos hcb, ← hp]
    rfl
  · rw [completeTransaction_read_of_nullCallback (s := s.clearOut) hd (by simpa using hcb), if_neg hcb]
    rfl

/-! ## Construction -/

/-- Construction within `L_MAX` binds the buffer and sets the manager's variables (R161). -/
theorem exec_mgrConstruct_of_le {s : State} {buf : Option Len} (hp : s.panic = none)
    (hlen : (bindingOf buf).len.toNat ≤ s.cfg.lMax.toNat) :
    exec (.mgrConstruct buf) s = .next (State.managerReset { s with
      rbPresent := (bindingOf buf).present, rbLen := (bindingOf buf).len, draws := s.draws + 1
      rb := Memory.ofBytes (freeBytes s.draws 0 (bindingOf buf).len.toNat), out := [] }) := by
  refine exec_of_live (exec_mgrConstruct buf s) hp ?_
  exact (constructManager_eq_next_iff buf _ _).mpr
    ⟨_, (bindBuffer_eq_next_iff _ s.clearOut _).mpr ⟨hlen, rfl⟩, .inr ⟨hp, rfl⟩⟩

/-- Settles O46: with a buffer and without one. -/
theorem constructionResetsTheManager : Obligations.ConstructionResetsTheManager := by
  intro s buf hp hlen
  cases buf with
  | none =>
    exact ⟨_, exec_mgrConstruct_of_le (buf := none) hp (Nat.zero_le _), rfl,
      read_resizedRecv s.draws 0⟩
  | some len =>
    exact ⟨_, exec_mgrConstruct_of_le (buf := some len) hp (hlen len rfl), rfl,
      read_resizedRecv s.draws len.toNat⟩

/-! ## The resizes -/

theorem resizeSend_of_fails {s : State} {m : Nat} (hf : s.resizeFails m s.cfg.capTx = true) :
    resizeSend m s = raise .allocFailure s.allocAsked := by
  rw [resizeSend, if_pos hf]

theorem resizeRecv_of_fails {s : State} {m : Nat} (hf : s.resizeFails m s.cfg.capRx = true) :
    resizeRecv m s = raise .allocFailure s.allocAsked := by
  rw [resizeRecv, if_pos hf]

/-- Of the tests of a resize a length always passes the first, being at most `2^LENW - 1` (R162). -/
theorem State.resizeFails_toNat_iff (s : State) (m : Len) (cap : Nat) :
    s.resizeFails m.toNat cap = true ↔ cap < m.toNat ∨ s.allocFail.head? = some true := by
  have hm : m.toNat ≤ lenMax := Nat.le_of_lt_succ m.isLt
  rw [← Bool.not_eq_false, State.resizeFails_eq_false_iff]
  simp only [hm, true_and, not_and_or, Nat.not_le, not_not]

theorem ofNat_toNat_len (m : Len) : BitVec.ofNat 16 m.toNat = m := by
  rw [BitVec.ofNat_toNat, BitVec.setWidth_eq]

/-- Settles O49: each branch of the two resizes. -/
theorem resizeDiscardsTheContents : Obligations.ResizeDiscardsTheContents := by
  intro s m hp
  have hm := ofNat_toNat_len m
  have hgets {cap : Nat} (hcap : m.toNat ≤ cap) (ha : s.allocFail.head? ≠ some true) :
      s.clearOut.resizeFails m.toNat cap = false :=
    (State.resizeFails_eq_false_iff _ _ _).mpr ⟨Nat.le_of_lt_succ m.isLt, hcap, ha⟩
  have hfails {cap : Nat} := (s.clearOut.resizeFails_toNat_iff m cap).mpr
  have hsend {o : Result} := exec_of_live (o := o) (exec_resizeSend m s) hp
  have hrecv {o : Result} := exec_of_live (o := o) (exec_resizeRecv m s) hp
  refine ⟨fun hcap ha hh => ?send, fun hcap ha hh => ?short, fun hcap ha => ?recv,
    fun hf => hsend (resizeSend_of_fails (hfails hf)), fun hf => hrecv (resizeRecv_of_fails (hfails hf))⟩
  case send =>
    refine ⟨_, hsend (resizeSend_of_succeeds (hgets hcap ha) hh), ?_, read_resizedSend _ _ _⟩
    rw [hm]
    rfl
  case short =>
    refine ⟨_, hsend (resizeSend_of_short (hgets hcap ha) hh), ?_, read_cutSend _ _⟩
    rw [hm]
    rfl
  case recv =>
    refine ⟨_, hrecv (resizeRecv_of_succeeds (hgets hcap ha)), ?_, read_resizedRecv _ _⟩
    rw [hm]
    rfl

/-! ## The refresh -/

/-- `refresh` outside its precondition panics with nothing changed (R163, log 29). -/
theorem refresh_of_unready {s : State} (h : s.sbLen.toNat ≠ s.rbLen.toNat + s.cfg.h ∨
    s.rbPresent = false ∨ s.rbLen.toNat ≤ s.lastAddr.toNat) : refresh s = raise .outOfBounds s := by
  obtain ⟨-, hraise⟩ | ⟨hl, hpres, ha, -⟩ := refresh_cases s
  · exact hraise
  · obtain h | h | h := h
    · exact absurd hl h
    · exact absurd hpres (by simp [h])
    · exact absurd ha (Nat.not_lt.mpr h)

/-- Settles O48: SB after the refresh is the master read frame, whose header was there before. -/
theorem refreshRewritesTheDataRegion : Obligations.RefreshRewritesTheDataRegion := by
  intro s hwf hp
  refine ⟨fun hl hu hr => ?ready, fun h => ?unready⟩
  case unready => exact exec_of_live (exec_refresh s) hp (refresh_of_unready (s := s.clearOut) h)
  case ready =>
    obtain ⟨hpres, -⟩ := s.rbUsable_iff.mp hu
    obtain ⟨ha, hhook⟩ := s.canRefresh_iff.mp hr
    obtain ⟨hspans, -⟩ := s.wf_iff.mp hwf
    have hread := read_sb_refresh hwf hl ha
    refine ⟨{ s with
        sb := Memory.writeList s.sb s.cfg.h s.refreshData
        out := managerCalls s.cfg .read s.lastAddr.toNat (s.rbLen.toNat - s.lastAddr.toNat) },
      exec_of_live (exec_refresh s) hp (refresh_of_ready (s := s.clearOut) hl hpres ha hhook), rfl,
      fun x hx => ?header, fun x hx => ?data, fun x hx => ?zeros, fun x hx => ?beyond⟩
    case header => rw [Memory.read_writeList, if_neg (by omega)]
    case data =>
      rw [hread, if_pos (by omega), frameByteAt_data hx, Memory.read_of_spans hspans (by omega)]
    case zeros => rw [hread, if_pos (by omega), frameByteAt_of_le (by omega)]
    case beyond => rw [hread, if_neg (by omega)]

/-! ## An undisturbed `update` -/

/-- Step 3 changes the staging buffers by the resizes only (R160, R162). -/
theorem HostInv.updateStep3 {n : Nat} {P : State → Prop} (h : HostInv n P) :
    Keeps P Sys2Proof.Machine.updateStep3 := by
  have hnext : Keeps P fun s => .next s := h.toRbInv.next (u := fun s => s)
  refine Keeps.ite (Keeps.andThen ?_ ?_) hnext
  · exact Keeps.ite (fun s => h.resizeSendOp _ s) hnext
  · exact Keeps.ite (fun s => h.resizeRecvOp _ s) hnext

/-- What an undisturbed `update` does after step 3 is step 4 (R160). -/
theorem exec_update_of_step3 {s v : State} (hq : s.quiet = true)
    (h3 : updateStep3 s.polled = .next v) (hp : v.panic = none) (hv : v.preempt = []) :
    exec .update s = updateStep4 v := by
  obtain ⟨hlive, hquiet⟩ := s.quiet_iff.mp hq
  refine exec_of_live (exec_update s) hlive ?_
  rw [managerUpdate_of_quiet (by exact hlive) (by exact hquiet), State.updateStarted_clearOut,
    mainSteps_cons_of_quiet h3 hp hv, mainSteps_one]

/-- With a usable buffer, step 4 starts from staging buffers of the right lengths, everything else as steps 0
to 2 left it (R160). -/
theorem exec_update_of_canAllocate {s : State} (hq : s.quiet = true) (hu : s.rbUsable = true)
    (hca : s.canAllocate = true) :
    ∃ v, exec .update s = updateStep4 v ∧ synced s v ∧ (s.wf = true → v.wf = true) ∧
      v = { s.polled with
        sbLen := v.sbLen, sb := v.sb, hwSendBuf := v.hwSendBuf, hwSendLen := v.hwSendLen
        rxbLen := v.rxbLen, rxb := v.rxb, hwRecvBuf := v.hwRecvBuf, hwRecvLen := v.hwRecvLen
        draws := v.draws } := by
  obtain ⟨hp, hquiet⟩ := s.quiet_iff.mp hq
  obtain ⟨v, h3, hsync, hframe⟩ := updateStep3_of_canAllocate (s := s.polled) hp hu hca
  refine ⟨v, exec_update_of_step3 hq h3 ?_ ?_, hsync, fun hwf => ?_, hframe⟩
  · exact (congrArg State.panic hframe).trans hp
  · exact (congrArg State.preempt hframe).trans hquiet
  · exact ((bufferInv_wf _).toHostInv.updateStep3 s.polled v ⟨hwf, rfl⟩ h3).1

/-- With no buffer in use, or with staged buffers, an undisturbed `update` whose gate is closed does nothing
after step 2 (R160, R164). -/
theorem exec_update_of_nothingDue {s : State} (hq : s.quiet = true)
    (h : s.rbUsable = false ∨ s.staged = true ∧ s.hwCommunicating = true) :
    exec .update s = .next { s.polled with snap := none } := by
  obtain ⟨hp, hquiet⟩ := s.quiet_iff.mp hq
  have h3 : updateStep3 s.polled = .next s.polled := by
    refine updateStep3_of_staged hp (h.imp_right fun ⟨hst, _⟩ => ?_)
    obtain ⟨hsb, hrxb, -⟩ := s.staged_iff.mp hst
    exact ⟨hsb, hrxb⟩
  have hgate : (s.rbUsable && !s.hwCommunicating) = false := by
    obtain h | ⟨-, h⟩ := h <;> simp [h]
  rw [exec_update_of_step3 hq h3 hp hquiet]
  exact updateStep4_of_gated hp hgate

/-- Settles O42: the gate of step 4 is closed, with no resize due and with any. -/
theorem updateSkipsTheRefreshInFlight : Obligations.UpdateSkipsTheRefreshInFlight := by
  intro s hq
  refine ⟨exec_update_of_nothingDue hq, fun hu hca hc => ?_⟩
  obtain ⟨v, hv, hsync, -, hframe⟩ := exec_update_of_canAllocate hq hu hca
  obtain ⟨hp, -⟩ := s.quiet_iff.mp hq
  have hpv : v.panic = none := (congrArg State.panic hframe).trans hp
  have hcv : v.hwCommunicating = true := (congrArg State.hwCommunicating hframe).trans hc
  refine ⟨{ v with snap := none }, hv.trans (updateStep4_of_gated hpv (by simp [hcv])), hsync, ?_⟩
  rw [hframe]

/-- The timer after steps 0 to 2: restarted by a completed transaction, else untouched (R160). -/
theorem State.timer_polled (s : State) :
    if s.hwResult = .sent ∨ s.hwResult = .received then
      s.polled.ltRemaining = s.cfgTimeout ∧ s.polled.ltRunning = true
    else s.polled.ltRemaining = s.ltRemaining ∧ s.polled.ltRunning = s.ltRunning := by
  split
  next h => exact ⟨if_pos h, if_pos h⟩
  next h => exact ⟨if_neg h, if_neg h⟩

/-- Step 3 hands the send buffer to the hardware when it resizes it (R162). -/
theorem handOver_of_sendSynced {s t : State} (h : synced s t) :
    if s.sbLen.toNat = s.rbLen.toNat + s.cfg.h then
      t.hwSendBuf = s.hwSendBuf ∧ t.hwSendLen = s.hwSendLen
    else t.hwSendBuf = some .sb ∧ t.hwSendLen = t.sbLen := by
  obtain ⟨h, -⟩ := h
  split at h
  next hlen =>
    obtain ⟨-, -, hhandedOver⟩ := h
    rwa [if_pos hlen]
  next hlen =>
    obtain ⟨-, hbuf, hbufLen, -⟩ := h
    rw [if_neg hlen]
    exact ⟨hbuf, hbufLen⟩

/-- The same of the receive buffer, which else keeps its bytes (R162). -/
theorem handOver_of_recvSynced {s t : State} (h : synced s t) :
    if s.rxbLen.toNat = s.rbLen.toNat + 1 then
      t.hwRecvBuf = s.hwRecvBuf ∧ t.hwRecvLen = s.hwRecvLen ∧ t.rxb = s.rxb
    else t.hwRecvBuf = some .rxb ∧ t.hwRecvLen = t.rxbLen := by
  obtain ⟨-, h⟩ := h
  split at h
  next hlen =>
    obtain ⟨-, hbytes, hbuf, hbufLen⟩ := h
    rw [if_pos hlen]
    exact ⟨hbuf, hbufLen, hbytes⟩
  next hlen =>
    obtain ⟨-, hbuf, hbufLen, -⟩ := h
    rw [if_neg hlen]
    exact ⟨hbuf, hbufLen⟩

/-- Settles O41: step 4 refreshes the buffers that step 3 has sized. -/
theorem updateSynchronisesAndRefreshes : Obligations.UpdateSynchronisesAndRefreshes := by
  intro s hwf hready hu hc
  obtain ⟨hp, hquiet, hcan⟩ := s.updateReady_iff.mp hready
  obtain ⟨hca, hcr⟩ := hcan hu
  obtain ⟨v, hv, hsync, hwfv, hframe⟩ :=
    exec_update_of_canAllocate (s.quiet_iff.mpr ⟨hp, hquiet⟩) hu hca
  have field {α : Type} (p : State → α) := congrArg p hframe
  have hpv : v.panic = none := (field State.panic).trans hp
  have hrem : v.ltRemaining = s.polled.ltRemaining := field State.ltRemaining
  have hrun : v.ltRunning = s.polled.ltRunning := field State.ltRunning
  have hbyte (x : Nat) : frameByteAt v.cfg v.rb v.rbLen.toNat v.lastAddr.toNat x =
      frameByteAt s.cfg s.rb s.rbLen.toNat s.lastAddr.toNat x :=
    field fun u => frameByteAt u.cfg u.rb u.rbLen.toNat u.lastAddr.toNat x
  obtain ⟨hsb, hrxb⟩ := lengths_of_synced hsync
  have hl : v.sbLen.toNat = v.rbLen.toNat + v.cfg.h :=
    hsb.trans (field fun u => u.rbLen.toNat + u.cfg.h).symm
  have hcrv : v.canRefresh = true := (field State.canRefresh).trans (hcr hc)
  obtain ⟨ha, -⟩ := v.canRefresh_iff.mp hcrv
  have hread := read_sb_refresh (hwfv hwf) hl ha
  have hsend := handOver_of_sendSynced hsync
  have hrecv := handOver_of_recvSynced hsync
  refine ⟨_, hv.trans (updateStep4_of_ready hpv ((field State.rbUsable).trans hu)
    ((field State.hwCommunicating).trans hc) hl hcrv), hpv, ?frame, ?timer, hsb, hrxb,
    hsend, hrecv, fun x hx => ?frameBytes,
    fun x hx => (hread x).trans (if_neg (Nat.not_lt.mpr hx))⟩
  case frame =>
    rw [hframe]
    rfl
  case timer =>
    simp only [hrem, hrun]
    exact s.timer_polled
  case frameBytes =>
    rw [← hbyte]
    exact (hread x).trans (if_pos hx)

/-! ## The callback `received` -/

/-- The frame's first byte, where RXB lists it, is its register address (R93, R166). -/
theorem State.frameAddr_of_read {s : State} {n : Nat} {a : Byte} (hn : 1 ≤ n)
    (ha : Memory.read s.rxb 0 = some a) : s.frameAddr n = a := by
  rw [State.frameAddr, if_neg (by omega), State.frameByte, ha, Option.getD_some]

/-- RB after the copy (R166): RXB's bytes from offset 1 at `a, a+1, ..`, as many as there are and as fit. -/
theorem read_writeList_frameData {s : State} {n : Nat}
    (hspans : Memory.spans s.rxb s.rxbLen.toNat = true) (hn : n ≤ s.rxbLen.toNat) (x : Nat) :
    Memory.read (Memory.writeList s.rb (s.frameAddr n).toNat (s.frameData n)) x =
      if (s.frameAddr n).toNat ≤ x ∧ x < (s.frameAddr n).toNat +
          min (s.rbLen.toNat - (s.frameAddr n).toNat) (n - 1) then
        Memory.read s.rxb (1 + (x - (s.frameAddr n).toNat))
      else Memory.read s.rb x := by
  rw [Memory.read_writeList, length_frameData]
  split
  next hx =>
    have hlisted := Memory.read_of_spans hspans (a := 1 + (x - (s.frameAddr n).toNat)) (by omega)
    rw [getElem?_frameData, if_pos (by omega), State.frameByte, hlisted, Option.getD_some]
  next => rfl

/-- What `received` makes of a frame whose address `a` lies in the buffer: `t` differs from `s` in `last_addr`,
the copied bytes and SB, which shows the new bytes, and in the cursor (R166). -/
theorem received_inRange {s : State} {n : Nat} {a : Byte} (hwf : s.wf = true) (hb : s.booted = true)
    (hn : 1 ≤ n) (hfits : n ≤ s.rxbLen.toNat) (hread : Memory.read s.rxb 0 = some a)
    (ha : a.toNat < s.rbLen.toNat) :
    ∃ t, received n s = .next t ∧ t.showsFrame a ∧
      (∀ x, Memory.read t.rb x =
        if a.toNat ≤ x ∧ x < a.toNat + min (s.rbLen.toNat - a.toNat) (n - 1) then
          Memory.read s.rxb (1 + (x - a.toNat))
        else Memory.read s.rb x) ∧
      t = { s with
        rbPos := Config.freePos s.draws, draws := s.draws + 1, lastAddr := a
        rb := t.rb, sb := t.sb, out := t.out } := by
  obtain ⟨hp, -, hu, hst, hcr, hwrite⟩ := s.booted_iff.mp hb
  obtain ⟨hpres, -⟩ := s.rbUsable_iff.mp hu
  obtain ⟨hsb, -⟩ := s.staged_iff.mp hst
  obtain ⟨-, hsafe⟩ := s.canRefresh_iff.mp hcr
  obtain ⟨hrb, hsbSpans, hrxb, hrest⟩ := s.wf_iff.mp hwf
  obtain rfl := State.frameAddr_of_read hn hread
  obtain ⟨u, hcopied, hrec⟩ := received_of_inRange hp hpres ha hsb hwrite hsafe
  have hlisted : Memory.spans (Memory.writeList s.rb (s.frameAddr n).toNat (s.frameData n))
      s.rbLen.toNat = true := Memory.spans_writeList hrb (by rw [length_frameData]; omega)
  have hwfu : u.wf = true := by
    rw [hcopied, State.wf_iff]
    exact ⟨hlisted, hsbSpans, hrxb, hrest⟩
  subst hcopied
  exact ⟨_, hrec, read_sb_refresh hwfu hsb ha, read_writeList_frameData hrxb hfits, rfl⟩

/-- With an address outside it, only the cursor is lost (R65, R166, U7). -/
theorem received_outOfRange {s : State} {n : Nat} {a : Byte} (hn : 1 ≤ n)
    (hread : Memory.read s.rxb 0 = some a) (ha : s.rbLen.toNat ≤ a.toNat) :
    received n s = .next s.cursorLost := by
  obtain rfl := State.frameAddr_of_read hn hread
  exact received_of_outOfRange (.inr ha)

/-- SB shows the frame of a block whose configuration and lengths `t` has, and the bytes of `t` (R92). -/
theorem State.showsFrame.read_sb {a : Byte} {s t : State} (h : t.showsFrame a) (hcfg : t.cfg = s.cfg)
    (hrbLen : t.rbLen = s.rbLen) (hsbLen : t.sbLen = s.sbLen) (x : Nat) :
    Memory.read t.sb x =
      if x < s.sbLen.toNat then some (frameByteAt s.cfg t.rb s.rbLen.toNat a.toNat x) else none := by
  rw [h x, hcfg, hrbLen, hsbLen]

/-- Settles O47: an address inside the buffer, and one outside. -/
theorem receivedCopiesThenRefreshes : Obligations.ReceivedCopiesThenRefreshes := by
  intro s n a hwf hb hn hfits hread
  obtain ⟨hp, -⟩ := s.booted_iff.mp hb
  by_cases ha : a.toNat < s.rbLen.toNat
  · obtain ⟨t, ht, hshows, hcopied, hframe⟩ :=
      received_inRange (s := s.clearOut) hwf hb hn hfits hread ha
    have field {α : Type} (p : State → α) := congrArg p hframe
    have hsb := hshows.read_sb (s := s) (field State.cfg) (field State.rbLen) (field State.sbLen)
    refine ⟨t, exec_of_live (exec_received n s) hp ht, (field State.panic).trans hp, ?_, ?_⟩
    · rw [hframe]
      rfl
    · rw [if_pos ha]
      exact ⟨field State.lastAddr, hcopied, fun x hx => (hsb x).trans (if_pos hx)⟩
  · refine ⟨s.clearOut.cursorLost, exec_of_live (exec_received n s) hp
      (received_outOfRange (s := s.clearOut) hn hread (Nat.le_of_not_lt ha)), hp, rfl, ?_⟩
    rw [if_neg ha]
    exact ⟨rfl, rfl, rfl, rfl⟩

/-! ## A whole master read -/

/-- The bytes of SB from its start, then zeros (R92, R134). -/
def State.sentBytes (n : Nat) (s : State) : List Byte :=
  (List.range n).map fun i => (Memory.read s.sb i).getD 0x00

/-- Settles O37: the bytes clocked out are those of SB, then zeros. -/
theorem masterReadReturnsTheSendBuffer : Obligations.MasterReadReturnsTheSendBuffer := by
  intro s n hwf hp hc hcb hl
  obtain ⟨-, hspans, -⟩ := s.wf_iff.mp hwf
  refine ⟨s.sentBytes n.toNat, by simp [State.sentBytes], fun x hx => by simp [State.sentBytes, hx], ?_⟩
  refine exec_of_live (exec_mr _ n s) hp ?_
  refine (masterRead_of_idle (s := s.clearOut) hp hc hspans hl hcb (Nat.le_of_lt_succ n.isLt)).trans ?_
  rw [ofNat_toNat_len, State.sentBytes, List.map_map]
  rfl

/-! ## A whole master write -/

/-- At the end of a master write of the address `a` and the data `d`, the frame, cut to RXB, is stored and
counted: the state in which `received` runs (R99 case 5, R135). -/
def State.frameStored (a : Byte) (d : List Byte) (s : State) : State :=
  { s with
    hwDir := .write, rxCnt := BitVec.ofNat 16 (min (1 + d.length) s.rxbLen.toNat), txCnt := 0
    rxOver := decide (s.rxbLen.toNat < 1 + d.length), hwResult := .received
    hwLast := ⟨.receive, .rxb, BitVec.ofNat 16 (min (1 + d.length) s.rxbLen.toNat)⟩
    rxb := Memory.writeList s.rxb 0 ((a :: d).take s.rxbLen.toNat) }

/-- RXB then holds the bytes that fit (R133). -/
theorem State.read_rxb_frameStored (a : Byte) (d : List Byte) (s : State) (x : Nat) :
    Memory.read (s.frameStored a d).rxb x =
      if x < min (1 + d.length) s.rxbLen.toNat then (a :: d)[x]? else Memory.read s.rxb x := by
  have hlen : ((a :: d).take s.rxbLen.toNat).length = min (1 + d.length) s.rxbLen.toNat := by
    rw [List.length_take, List.length_cons, Nat.min_comm, Nat.add_comm]
  refine (Memory.read_writeList ..).trans ?_
  rw [hlen]
  by_cases hx : x < min (1 + d.length) s.rxbLen.toNat
  · rw [if_pos (by omega), if_pos hx, Nat.sub_zero, List.getElem?_take_of_lt (by omega)]
  · rw [if_neg (by omega), if_neg hx]

theorem State.wf_frameStored {s : State} (hwf : s.wf = true) (a : Byte) (d : List Byte) :
    (s.frameStored a d).wf = true := by
  obtain ⟨hrb, hsb, hrxb, hmax, hheader, hcfg⟩ := s.wf_iff.mp hwf
  refine (State.wf_iff _).mpr ⟨hrb, hsb, ?_, hmax, hheader, hcfg⟩
  exact Memory.spans_writeList hrxb (by rw [Nat.zero_add]; exact List.length_take_le _ _)

@[simp] theorem State.rbLen_frameStored (a : Byte) (d : List Byte) (s : State) :
    (s.frameStored a d).rbLen = s.rbLen := rfl
@[simp] theorem State.rb_frameStored (a : Byte) (d : List Byte) (s : State) :
    (s.frameStored a d).rb = s.rb := rfl

section MasterWrite

variable {s : State} {a : Byte} {d : List Byte} (hwf : s.wf = true) (hb : s.booted = true)
  (hc : s.hwCommunicating = false)

include hwf hb hc

/-- Under `nack` a frame longer than RXB leaves no more than its bytes there and its result (R99 case 5). -/
theorem masterWrite_refused (hlt : s.rxbLen.toNat < 1 + d.length) (hnack : s.cfg.rxOverflow = .nack) :
    masterWrite s.hwAddr (a :: d) s =
      .next { s.frameStored a d with hwResult := .nackSent, hwLast := s.hwLast } := by
  obtain ⟨hp, -, -, hst, -⟩ := s.booted_iff.mp hb
  obtain ⟨-, -, -, hrecv⟩ := s.staged_iff.mp hst
  obtain ⟨-, -, hspans, -⟩ := s.wf_iff.mp hwf
  have hlen : (a :: d).length = 1 + d.length := Nat.add_comm _ _
  rw [masterWrite_of_refused hp hc hspans hrecv (hlen ▸ hlt) hnack]
  simp only [State.frameStored, Nat.min_eq_right hlt.le, ofNat_toNat_len, hlt, decide_true]

/-- A master write that is not refused ends in `received` of the bytes that fit, whether or not all did
(R91, R99 case 5, R173). -/
theorem masterWrite_accepted (ho : ¬ (s.rxbLen.toNat < 1 + d.length ∧ s.cfg.rxOverflow = .nack)) :
    masterWrite s.hwAddr (a :: d) s =
      received (min (1 + d.length) s.rxbLen.toNat) (s.frameStored a d) := by
  obtain ⟨hp, hcb, -, hst, -⟩ := s.booted_iff.mp hb
  obtain ⟨-, -, -, hrecv⟩ := s.staged_iff.mp hst
  obtain ⟨-, -, hspans, -⟩ := s.wf_iff.mp hwf
  have hlen : (a :: d).length = 1 + d.length := Nat.add_comm _ _
  by_cases hlt : s.rxbLen.toNat < 1 + d.length
  · have hmin : min s.rxbLen.toNat (1 + d.length) = s.rxbLen.toNat := Nat.min_eq_left hlt.le
    rw [masterWrite_of_truncated hp hc hspans hrecv hcb (hlen ▸ hlt) fun hnack => ho ⟨hlt, hnack⟩]
    simp only [State.frameDone, State.frameStored, hc, List.length_take, hlen, hmin,
      Nat.min_comm (1 + d.length), hlt, decide_true]
  · have hle := Nat.le_of_not_lt hlt
    rw [masterWrite_of_fits hp hc hspans hrecv hcb (hlen ▸ hle)]
    simp only [State.frameDone, State.frameStored, hc, hlen, Nat.min_eq_left hle, hlt, decide_false,
      List.take_of_length_le (hlen ▸ hle)]

omit hwf hc in
/-- RXB has room for the register address at least, which `received` finds first (R36, R93). -/
theorem read_rxb_frameStored_zero :
    1 ≤ min (1 + d.length) s.rxbLen.toNat ∧ Memory.read (s.frameStored a d).rxb 0 = some a := by
  obtain ⟨-, -, -, hst, -⟩ := s.booted_iff.mp hb
  obtain ⟨-, hrxb, -⟩ := s.staged_iff.mp hst
  have hroom : 1 ≤ min (1 + d.length) s.rxbLen.toNat := by omega
  exact ⟨hroom, by rw [s.read_rxb_frameStored, if_pos (by omega), List.getElem?_cons_zero]⟩

/-- With an address inside the buffer the data land there, up to its end, and SB shows them (R166, R172). -/
theorem masterWrite_inRange (ho : ¬ (s.rxbLen.toNat < 1 + d.length ∧ s.cfg.rxOverflow = .nack))
    (ha : a.toNat < s.rbLen.toNat) :
    ∃ t, masterWrite s.hwAddr (a :: d) s = .next t ∧ t.showsFrame a ∧
      (∀ x, Memory.read t.rb x =
        if a.toNat ≤ x ∧ x < a.toNat + min (s.rbLen.toNat - a.toNat) d.length then d[x - a.toNat]?
        else Memory.read s.rb x) ∧
      t = { s.frameStored a d with
        rbPos := Config.freePos s.draws, draws := s.draws + 1, lastAddr := a
        rb := t.rb, sb := t.sb, out := t.out } := by
  obtain ⟨-, -, -, hst, -⟩ := s.booted_iff.mp hb
  obtain ⟨-, hrxb, -⟩ := s.staged_iff.mp hst
  obtain ⟨hroom, hread⟩ := read_rxb_frameStored_zero (a := a) (d := d) hb
  obtain ⟨t, ht, hshows, hcopied, hframe⟩ :=
    received_inRange (State.wf_frameStored hwf a d) hb hroom (Nat.min_le_right _ _) hread ha
  have hcount : min (s.rbLen.toNat - a.toNat) (min (1 + d.length) s.rxbLen.toNat - 1) =
      min (s.rbLen.toNat - a.toNat) d.length := by omega
  refine ⟨t, (masterWrite_accepted hwf hb hc ho).trans ht, hshows, fun x => ?_, hframe⟩
  rw [hcopied, State.rbLen_frameStored, hcount, State.rb_frameStored]
  split
  next hx => rw [s.read_rxb_frameStored, if_pos (by omega), Nat.add_comm, List.getElem?_cons_succ]
  next => rfl

/-- With an address outside the buffer the frame stays in RXB (R65, R166). -/
theorem masterWrite_outOfRange (ho : ¬ (s.rxbLen.toNat < 1 + d.length ∧ s.cfg.rxOverflow = .nack))
    (ha : s.rbLen.toNat ≤ a.toNat) :
    masterWrite s.hwAddr (a :: d) s = .next (s.frameStored a d).cursorLost := by
  obtain ⟨hroom, hread⟩ := read_rxb_frameStored_zero (a := a) (d := d) hb
  exact (masterWrite_accepted hwf hb hc ho).trans (received_outOfRange hroom hread ha)

end MasterWrite

/-- Settles O36: a frame refused, one with its address inside the buffer, one with it outside. -/
theorem masterWriteLandsInTheRegisterBuffer : Obligations.MasterWriteLandsInTheRegisterBuffer := by
  intro s a d hwf hb hc
  obtain ⟨hp, -⟩ := s.booted_iff.mp hb
  have hmw {o : Result} := exec_of_live (o := o) (exec_mw s.hwAddr (a :: d) s) hp
  have hrxb := s.clearOut.read_rxb_frameStored a d
  by_cases ho : s.rxbLen.toNat < 1 + d.length ∧ s.cfg.rxOverflow = .nack
  · obtain ⟨hlt, hnack⟩ := ho
    refine ⟨_, hmw (masterWrite_refused (s := s.clearOut) hwf hb hc hlt hnack), hp, rfl, hrxb, ?_⟩
    rw [if_pos ⟨hlt, hnack⟩]
    exact ⟨rfl, rfl, rfl, rfl, rfl, rfl, rfl, rfl⟩
  simp only [if_neg ho]
  by_cases ha : a.toNat < s.rbLen.toNat
  · obtain ⟨t, ht, hshows, hcopied, hframe⟩ := masterWrite_inRange (s := s.clearOut) hwf hb hc ho ha
    have field {α : Type} (p : State → α) := congrArg p hframe
    have hsb := hshows.read_sb (s := s) (field State.cfg) (field State.rbLen) (field State.sbLen)
    have hlast : t.hwLast = ⟨.receive, .rxb, t.rxCnt⟩ :=
      (field State.hwLast).trans (congrArg _ (field State.rxCnt).symm)
    refine ⟨t, hmw ht, (field State.panic).trans hp, ?_, ?_, field State.hwResult, hlast,
      field State.draws, ?_⟩
    · rw [hframe]
      rfl
    · exact (field State.rxb) ▸ hrxb
    · rw [if_pos ha]
      exact ⟨field State.lastAddr, hcopied, fun x hx => (hsb x).trans (if_pos hx),
        fun x hx => (hsb x).trans (if_neg (Nat.not_lt.mpr hx))⟩
  · refine ⟨_, hmw (masterWrite_outOfRange (s := s.clearOut) hwf hb hc ho (Nat.le_of_not_lt ha)), hp, rfl,
      hrxb, rfl, rfl, rfl, ?_⟩
    rw [if_neg ha]
    exact ⟨rfl, rfl, rfl, rfl⟩

/-- Settles O38: SB shows the frame that the write left in the Register Buffer, and the read clocks it out. -/
theorem masterReadsBackWhatItWrote : Obligations.MasterReadsBackWhatItWrote := by
  intro s a d n hwf hb hc hfits ha
  obtain ⟨hp, hcb, -, hst, -⟩ := s.booted_iff.mp hb
  have ho : ¬ (s.rxbLen.toNat < 1 + d.length ∧ s.cfg.rxOverflow = .nack) := by
    rintro ⟨hlt, hnack⟩
    exact hfits.elim (Nat.not_le.mpr hlt) fun h => h hnack
  obtain ⟨t, ht, hshows, hcopied, hframe⟩ := masterWrite_inRange (s := s.clearOut) hwf hb hc ho ha
  have field {α : Type} (p : State → α) := congrArg p hframe
  have hmw : exec (.mw s.hwAddr (a :: d)) s = .next t := exec_of_live (exec_mw _ _ s) hp ht
  have hpt : t.panic = none := (field State.panic).trans hp
  have haddr : t.hwAddr = s.hwAddr := field State.hwAddr
  have hread := masterRead_of_showsFrame (s := t.clearOut) n (blockInv_wf.exec _ s t hwf hmw) hpt
    ((field State.hwCbSet).trans hcb) ((field State.staged).trans hst)
    ((field State.hwCommunicating).trans hc) hshows
  have hbyte (x : Nat) : frameByteAt t.cfg t.rb t.rbLen.toNat a.toNat x =
      frameByteAt s.cfg t.rb s.rbLen.toNat a.toNat x :=
    field fun u => frameByteAt u.cfg t.rb u.rbLen.toNat a.toNat x
  refine ⟨t, t.clearOut.frameRead n (t.frameBytes a n), hmw, ?_, hpt, rfl, rfl, field State.lastAddr, ?_⟩
  · rw [← haddr]
    exact exec_of_live (exec_mr _ n t) hpt hread
  · have hwire : wireBytes (t.clearOut.frameRead n (t.frameBytes a n)).out = t.frameBytes a n :=
      wireBytes_map_wire _
    rw [hwire]
    refine ⟨t.length_frameBytes a n, fun x hx => ?_, fun x hx => ?_⟩
    · rw [t.getElem?_frameBytes a hx, hbyte]
    · refine (hcopied _).trans ?_
      rw [if_pos ⟨Nat.le_add_right _ _, Nat.add_lt_add_left (Nat.min_comm d.length _ ▸ hx) _⟩,
        Nat.add_sub_cancel_left]

end Sys2Proof.Machine

/-! # The Module

What the Module adds to the manager and the Register Buffer: the fields it writes and reads through the buffer
(R203, R206 to R210), its construction (R202), and the rewrite of its constants when the connection changes
(R205, R211). -/

namespace Sys2Proof.Machine

/-! ## The signature -/

/-- Settles O52: `writeHeader_of_quiet` from the state with the outputs forgotten. -/
theorem headerIsThreeSignatureBytes : Obligations.HeaderIsThreeSignatureBytes := by
  intro s _ hq hh hpresent hlen
  obtain ⟨hp, hpre⟩ := s.quiet_iff.mp hq
  exact ⟨_, exec_of_live (exec_writeHeader s) hp
    (writeHeader_of_quiet (s := s.clearOut) hp hpre hh hpresent hlen), rfl, read_headerBytes s⟩

/-! ## The identifier and the name -/

/-- At an offset the cursor stays, so the transfer is all there is (R112, R117). -/
theorem rbWriteAt_offset (pos : Len) (len : Nat) (v : List Byte) :
    rbWriteAt (.offset pos) len v = rbWrite pos.toNat len v :=
  funext fun s => andThen_next (rbWrite pos.toNat len v s)

theorem exec_rbWrite_offset (pos len : Len) (v : List Byte) (s : State) :
    exec (.rbWrite (.offset pos) len v) s = whenLive s (rbWrite pos.toNat len.toNat v) :=
  congrArg (whenLive s) (rbWriteAt_offset pos len.toNat v)

/-- Settles O54: the host's write of one byte at offset 3, which is one store. -/
theorem setIdWritesOffsetThree : Obligations.SetIdWritesOffsetThree := by
  intro s id hp
  refine ⟨(exec_rbWrite_offset 3 1 [id] s).symm, fun hpre hh hb => ?_⟩
  exact exec_of_live (exec_setId id s) hp (rbWrite_of_quiet (s := s.clearOut) hp hpre hh hb rfl)

theorem length_nameBytes {name : List Byte} {len : Len} (h : name.length = len.toNat) :
    (nameBytes name len).length = min len.toNat nameSize := by
  rw [nameBytes, List.length_take, h]
  omega

/-- Settles O55: the cut at 8 bytes shortens the write and no byte in it, so each is read from the uncut
name. -/
theorem setNameWritesAtMostEightBytes : Obligations.SetNameWritesAtMostEightBytes := by
  intro s name len hq hh hname hb
  obtain ⟨hp, hpre⟩ := s.quiet_iff.mp hq
  have hlen := length_nameBytes hname
  refine ⟨_, exec_of_live (exec_setName name len s) hp
    (rbWrite_of_quiet (s := s.clearOut) hp hpre hh hb hlen), rfl, fun a => ?_⟩
  refine (Memory.read_writeList s.rb namePos (nameBytes name len) a).trans ?_
  rw [hlen]
  refine ite_congr rfl (fun ⟨_, hlt⟩ => ?_) fun _ => rfl
  exact List.getElem?_take_of_lt (show a - 4 < min len.toNat 8 by omega)

/-! ## LED and power -/

/-- A query of one bit returns it and changes nothing (R114, R210). -/
theorem rbBitGet_emit_of_inBounds {s : State} {pos : Nat} {b : Byte} (hb : s.inBounds pos 1 = true)
    (h7 : b.toNat ≤ 7) :
    rbBitGet pos b (fun v s => .next (s.emit (.bit v))) s =
      .next (s.emit (.bit ((Memory.byte s.rb pos).getLsbD b.toNat))) :=
  rbBitGet_of_inBounds hb h7

/-- Settles O56: the two positions of R210 are read the same way. -/
theorem ledAndPowerReadOneBit : Obligations.LedAndPowerReadOneBit := by
  intro s hp
  exact ⟨fun hb h7 => exec_of_live (exec_getLed s) hp (rbBitGet_emit_of_inBounds (s := s.clearOut) hb h7),
    fun hb h7 => exec_of_live (exec_getPower s) hp (rbBitGet_emit_of_inBounds (s := s.clearOut) hb h7)⟩

/-! ## The constants writer -/

/-- A null capability that is invoked panics (R206). -/
theorem writeConstants_of_null {s : State} (h : s.cfg.constants = none) :
    writeConstants s = raise .nullCallback s := by
  simp only [writeConstants, h]

/-- A constants writer of one operation is that operation (R206). -/
theorem writeConstants_of_single {s : State} {c : ConstantWrite} (h : s.cfg.constants = some [c]) :
    writeConstants s = constantWrite c s := by
  simp only [writeConstants, h, List.map_cons, List.map_nil, mainSteps_one]

/-- The host's operation that runs what the module's one operation runs is the whole writer (R206). -/
theorem exec_writeConstants_of_single {s : State} {c : ConstantWrite} {i : Instr} (hp : s.panic = none)
    (h : s.cfg.constants = some [c]) (hi : exec i s = whenLive s (constantWrite c)) :
    exec .writeConstants s = exec i s := by
  rw [hi, whenLive_of_live hp]
  exact exec_of_live (exec_writeConstants s) hp (writeConstants_of_single (s := s.clearOut) h)

/-- Settles O53: the base writer, the null one, and each operation of log 24 beside the host's. -/
theorem constantsWriterWritesThroughTheBuffer : Obligations.ConstantsWriterWritesThroughTheBuffer := by
  intro s pos len v x b m y d hp
  have single {c : ConstantWrite} {i : Instr} := exec_writeConstants_of_single (c := c) (i := i) hp
  refine ⟨fun h => ?base, fun h => ?null, fun h hv => ?bytes, fun h hv => ?atCursor,
    fun h => single h (exec_rbSeek pos s), fun h => single h (exec_rbTypedWrite pos len x s),
    fun h => single h (exec_rbBitSet pos b d s), fun h => single h (exec_rbMask pos m y s),
    fun h => single h (exec_rbFill b s)⟩
  case base => exact exec_of_live (exec_writeConstants s) hp (writeConstants_of_base (s := s.clearOut) h)
  case null => exact exec_of_live (exec_writeConstants s) hp (writeConstants_of_null (s := s.clearOut) h)
  case bytes =>
    refine single h ((exec_rbWrite_offset pos len v s).trans ?_)
    rw [← hv]
    rfl
  case atCursor =>
    refine single h ((exec_rbWrite .cursor len v s).trans ?_)
    rw [← hv]
    rfl

/-! ## Construction -/

/-- What construction does once the manager is constructed (R202). -/
def initModule : State → Result :=
  mainSteps [rbFill 0x00, assertActive, setOperational true, storeConnected false]

/-- Construction of a Module is that of its manager, then `initModule` (R202). -/
theorem exec_modConstruct_of_mgrConstruct {s u : State} {buf : Len} (hs : s.panic = none)
    (hmgr : exec (.mgrConstruct (some buf)) s = .next u) (hp : u.panic = none) (hq : u.preempt = []) :
    exec (.modConstruct buf) s = initModule u := by
  rw [exec_mgrConstruct, whenLive_of_live hs] at hmgr
  exact exec_of_live (exec_modConstruct buf s) hs (mainSteps_cons_of_quiet hmgr hp hq)

/-- The buffer zero-filled (R202). -/
def State.zeroFilled (s : State) : State := s.storeRbList 0 (List.replicate s.rbLen.toNat 0x00)

theorem State.read_zeroFilled (s : State) (a : Nat) :
    Memory.read s.zeroFilled.rb a = if a < s.rbLen.toNat then some 0x00 else Memory.read s.rb a := by
  refine (Memory.read_writeList s.rb 0 _ a).trans ?_
  by_cases ha : a < s.rbLen.toNat <;> simp [ha]

/-- One bit of the status byte set or cleared and the hook called (R115, R118). -/
def State.statusBitSet (b : Byte) (v : Bool) (s : State) : State :=
  { s with
    rb := Memory.write s.rb 12 (setBit (Memory.byte s.rb 12) b.toNat v)
    out := s.out ++ hookCalls s.cfg .write 12 1 }

theorem State.read_statusBitSet (b : Byte) (v : Bool) (s : State) (a : Nat) :
    Memory.read (s.statusBitSet b v).rb a =
      if a = 12 then some (setBit (Memory.byte s.rb 12) b.toNat v) else Memory.read s.rb a :=
  Memory.read_write s.rb 12 a _

/-- Both flags asserted on a status byte of zero make `0x03` (R202). -/
theorem State.read_flagsAsserted (s : State) (hlen : 13 ≤ s.rbLen.toNat) (a : Nat) :
    Memory.read ((s.zeroFilled.statusBitSet activeBit true).statusBitSet operationalBit true).rb a =
      if a < s.rbLen.toNat then some (if a = 12 then 0x03 else 0x00) else Memory.read s.rb a := by
  have hzero : Memory.byte s.zeroFilled.rb 12 = 0x00 :=
    Memory.byte_of_read ((s.read_zeroFilled 12).trans (if_pos hlen))
  have hactive : Memory.byte (s.zeroFilled.statusBitSet activeBit true).rb 12 = 0x01 := by
    refine Memory.byte_of_read ((State.read_statusBitSet _ _ _ 12).trans ?_)
    rw [if_pos rfl, hzero]
    rfl
  rw [State.read_statusBitSet, State.read_statusBitSet, State.read_zeroFilled, hactive]
  by_cases h12 : a = 12
  · rw [if_pos h12, if_pos (by omega), if_pos h12]
    rfl
  · simp only [if_neg h12]

/-- In a buffer that holds the status byte, undisturbed (R202). -/
theorem initModule_of_quiet {s : State} (hp : s.panic = none) (hq : s.preempt = [])
    (hh : hookSafe s.cfg .write = true) (hpresent : s.rbPresent = true) (hlen : 13 ≤ s.rbLen.toNat) :
    initModule s = .next { (s.zeroFilled.statusBitSet activeBit true).statusBitSet operationalBit true with
      prevConnected := false } := by
  have hfill : rbFill 0x00 s = .next s.zeroFilled := rbFill_of_quiet hp hq (.inl hpresent) 0x00
  have hactive : assertActive s.zeroFilled = .next (s.zeroFilled.statusBitSet activeBit true) :=
    statusBit_of_quiet hp hq hh hpresent hlen (by decide)
  have hoperational : setOperational true (s.zeroFilled.statusBitSet activeBit true) =
      .next ((s.zeroFilled.statusBitSet activeBit true).statusBitSet operationalBit true) :=
    statusBit_of_quiet hp hq hh hpresent hlen (by decide)
  rw [initModule, mainSteps_cons_of_quiet hfill hp hq, mainSteps_cons_of_quiet hactive hp hq,
    mainSteps_cons_of_quiet hoperational hp hq]
  rfl

/-- In a buffer too short for the status byte it panics at the first flag (R111, R202). -/
theorem initModule_of_short {s : State} (hp : s.panic = none) (hq : s.preempt = [])
    (hpresent : s.rbPresent = true) (hlen : s.rbLen.toNat < 13) :
    initModule s = raise .outOfBounds s.zeroFilled := by
  have hfill : rbFill 0x00 s = .next s.zeroFilled := rbFill_of_quiet hp hq (.inl hpresent) 0x00
  have hout : s.zeroFilled.inBounds statusPos 1 = false := by
    rw [Bool.eq_false_iff, ne_eq, State.inBounds_iff]
    rintro ⟨-, hlt, -⟩
    exact absurd (show 12 < s.rbLen.toNat from hlt) (by omega)
  rw [initModule, mainSteps_cons_of_quiet hfill hp hq]
  exact mainSteps_cons_of_raise (rbBitSet_of_outOfBounds hout)

/-- Settles O50: the Module is initialised on the manager that O46 describes. -/
theorem moduleConstructionAssertsItsFlags : Obligations.ModuleConstructionAssertsItsFlags := by
  intro s buf hq hmax hh
  obtain ⟨hp, hpre⟩ := s.quiet_iff.mp hq
  have hmgr := exec_mgrConstruct_of_le (buf := some buf) hp hmax
  have hmod := exec_modConstruct_of_mgrConstruct hp hmgr hp hpre
  refine ⟨fun hlen => ?holds, fun hlen => ?short⟩
  case holds =>
    refine ⟨_, _, hmgr, hmod.trans (initModule_of_quiet hp hpre hh rfl hlen), rfl, fun a => ?_⟩
    refine (State.read_flagsAsserted _ hlen a).trans (ite_congr rfl (fun _ => rfl) fun hge => ?_)
    exact (read_resizedRecv s.draws buf.toNat a).trans (if_neg hge)
  case short => exact ⟨_, hmod.trans (initModule_of_short hp hpre rfl hlen), rfl⟩

/-! ## The connection change -/

/-- Settles O51: `moduleUpdate_of_ready` names the state in which the constants writer runs; what is left are
the bytes it finds there and what the two writers make of them. -/
theorem connectionChangeRewritesTheConstants : Obligations.ConnectionChangeRewritesTheConstants := by
  intro s _ hready
  obtain ⟨hupdate, -, -, hh⟩ := s.moduleReady_iff.mp hready
  obtain ⟨hp, hpre, -⟩ := s.updateReady_iff.mp hupdate
  obtain ⟨u, hu, huframe, hsame, hchange⟩ := moduleUpdate_of_ready (s := s.clearOut) hready
  refine ⟨u, exec_of_live (exec_update s) hp hu, (congrArg State.panic huframe).trans hp,
    fun hc => exec_of_live (exec_modUpdate s) hp (hsame hc), fun hc => ?_⟩
  obtain ⟨v, hvframe, hrun⟩ := hchange hc
  have hrb : v.rb = Memory.write s.headerBytes 12 (Memory.byte s.rb 12 ||| 0x01) :=
    congrArg State.rb hvframe
  have hcfg : v.cfg = s.cfg := by rw [hvframe, huframe, State.cfg_clearOut]
  have hsign {a : Nat} (h12 : a ≠ 12) : Memory.read v.rb a = Memory.read s.headerBytes a := by
    rw [hrb, Memory.read_write_other _ _ h12]
  refine ⟨v, ?frame, ?fixed0, ?fixed1, ?type, ?status, fun a h3 h12 => ?others,
    fun w hw => exec_of_live (exec_modUpdate s) hp (hrun w hw),
    fun hbase => writeConstants_of_base (hcfg ▸ hbase), fun pos bs hbytes hb => ?bytes⟩
  case frame => rw [hrb]; exact hvframe
  case fixed0 => rw [hsign (by decide), read_headerBytes, if_pos rfl]
  case fixed1 => rw [hsign (by decide), read_headerBytes, if_neg (by decide), if_pos rfl]
  case type =>
    rw [hsign (by decide), read_headerBytes, if_neg (by decide), if_neg (by decide), if_pos rfl]
  case status => rw [hrb, Memory.read_write_same]
  case others =>
    rw [hsign h12, read_headerBytes, if_neg (by omega), if_neg (by omega), if_neg (by omega)]
  case bytes =>
    have hwrite := rbWrite_of_quiet (s := v) (pos := pos.toNat) (v := bs)
      (by rw [hvframe, huframe]; exact hp) (by rw [hvframe, huframe]; exact hpre) (hcfg ▸ hh)
      (by rw [hvframe, huframe]; exact hb) rfl
    exact ⟨_, (writeConstants_of_bytes (hcfg ▸ hbytes)).trans hwrite, rfl,
      Memory.read_writeList v.rb pos.toNat bs⟩

end Sys2Proof.Machine

/-! # The MotorController

What `MC_UPDATE` does after the Module's update (R223): the overcurrent steps (R225 to R227), the drive mode
that follows the settings byte (R228), and the master's reset request (R224, R230). -/

namespace Sys2Proof.Machine

/-! ## What the controller's steps start from -/

/-- What the controller's own steps need and keep: no panic, nothing due, a bound buffer with the status byte
and the settings byte, no null write hook, a bit number for the reset request (R223). -/
def State.motorRuns (s : State) : Prop :=
  s.panic = none ∧ s.preempt = [] ∧ hookSafe s.cfg .write = true ∧ s.rbPresent = true ∧
    14 ≤ s.rbLen.toNat ∧ s.cfg.resetBit.toNat ≤ 7

/-- `MC_UPDATE` once `MOD_UPDATE` is done and the connection state `c` is read (R223). -/
def controllerSteps (c : Bool) (i o v p : Current) : State → Result :=
  mainSteps [resetRequest, evaluateCurrent c i o v p, slaveToSettings]

/-- An undisturbed `MC_UPDATE` is `MOD_UPDATE`, which leaves the controller's variables and the settings byte,
then the controller's steps (R223). -/
theorem exec_mcUpdate_of_ready {s : State} (hwf : s.wf = true) (hready : s.motorReady = true)
    (i o v p : Current) :
    ∃ u, exec .modUpdate s = .next u ∧
      exec (.mcUpdate i o v p) s = controllerSteps u.isConnected i o v p u ∧
      u.motorRuns ∧ u.wf = true ∧ u.cfg = s.cfg ∧ u.mcOc = s.mcOc ∧ u.mcMode = s.mcMode ∧
      u.ptRemaining = s.ptRemaining ∧ Memory.byte u.rb 13 = Memory.byte s.rb 13 := by
  obtain ⟨hmodule, -, hlen, h7⟩ := s.motorReady_iff.mp hready
  obtain ⟨hupdate, hpresent, -, hh⟩ := s.moduleReady_iff.mp hmodule
  obtain ⟨hp, hq, -⟩ := s.updateReady_iff.mp hupdate
  obtain ⟨u, hu, hframe, hkept, hrun⟩ := motorUpdate_of_ready (s := s.clearOut) hready i o v p
  have field {α : Type} (f : State → α) := congrArg f hframe
  have hmod : exec .modUpdate s = .next u := exec_of_live (exec_modUpdate s) hp hu
  have hruns : u.motorRuns := (field State.motorRuns).mpr ⟨hp, hq, hh, hpresent, hlen, h7⟩
  exact ⟨u, hmod, exec_of_live (exec_mcUpdate i o v p s) hp hrun, hruns,
    blockInv_wf.exec _ s u hwf hmod, field State.cfg, field State.mcOc, field State.mcMode,
    field State.ptRemaining, Memory.byte_congr (hkept 13 (by decide) (by decide))⟩

/-! ## Following the settings byte -/

/-- The drive mode that the settings byte selects (R221, R228). -/
def State.selectedMode (s : State) : DriveMode :=
  selectMode s.cfg.modeRows s.cfg.modeElse (Memory.byte s.rb 13)

/-- The last step changes the drive mode and the status byte, and those in the overcurrent state `None` only
(R228). -/
theorem slaveToSettings_of_motorRuns {s : State} (h : s.motorRuns) :
    ∃ t, slaveToSettings s = .next t ∧
      t = { s with mcMode := t.mcMode, rb := t.rb, out := t.out } ∧
      t.mcMode = (if s.mcOc = .none then s.selectedMode else s.mcMode) ∧
      ∀ a, Memory.read t.rb a =
        if s.mcOc = .none ∧ a = 12 then some (Memory.byte s.rb 12 ||| 0x02) else Memory.read s.rb a := by
  obtain ⟨hp, hq, hh, hpresent, hlen, -⟩ := h
  by_cases hoc : s.mcOc = .none
  · refine ⟨_, slaveToSettings_of_nominal hp hq hh hpresent hlen hoc, rfl, (if_pos hoc).symm, fun a => ?_⟩
    simp only [hoc, true_and, Memory.read_write]
  · refine ⟨s, slaveToSettings_of_overCurrent hoc, rfl, (if_neg hoc).symm, fun a => ?_⟩
    rw [if_neg fun hnone => hoc hnone.1]

/-! ## The evaluation of the current -/

section Evaluation

variable {s t : State} {c : Bool} {i o v p : Current}

/-- Without overcurrent the timer restarts (R223). -/
theorem evaluateCurrent_of_nominal (h : s.overCurrent c i o v p = false) :
    evaluateCurrent c i o v p s = .next s.ptRestarted := by
  rw [evaluateCurrent, h]
  rfl

/-- While the timer runs, overcurrent steps nothing (R227). -/
theorem evaluateCurrent_of_running (h : s.overCurrent c i o v p = true) (hpt : s.ptRemaining ≠ 0) :
    evaluateCurrent c i o v p s = .next s := by
  rw [evaluateCurrent, if_pos h, if_neg (by simpa [State.ptExpired] using hpt)]

/-- Overcurrent steps when the timer has run out (R227). -/
theorem evaluateCurrent_of_expired (h : s.overCurrent c i o v p = true) (hpt : s.ptRemaining = 0) :
    evaluateCurrent c i o v p s = overCurrentStep s := by
  rw [evaluateCurrent, if_pos h, if_pos (by simpa [State.ptExpired] using hpt)]

/-- There is no overcurrent in the state `Off` (R223). -/
theorem State.mcOc_ne_off_of_overCurrent (h : s.overCurrent c i o v p = true) : s.mcOc ≠ .off := by
  simp only [State.overCurrent, Bool.and_eq_true, decide_eq_true_eq] at h
  exact h.2

/-- The first two of the controller's steps done, the last is left (R223). -/
theorem controllerSteps_of_evaluated {r : State} (hreset : resetRequest s = .next r) (hr : r.motorRuns)
    (heval : evaluateCurrent c i o v p r = .next t) (ht : t.motorRuns) :
    controllerSteps c i o v p s = slaveToSettings t := by
  obtain ⟨hpr, hqr, -⟩ := hr
  obtain ⟨hpt, hqt, -⟩ := ht
  rw [controllerSteps, mainSteps_cons_of_quiet hreset hpr hqr, mainSteps_cons_of_quiet heval hpt hqt,
    mainSteps_one]

/-- The same with no reset request (R224). -/
theorem controllerSteps_of_clear (hs : s.motorRuns)
    (hbit : (Memory.byte s.rb 13).getLsbD s.cfg.resetBit.toNat = false)
    (heval : evaluateCurrent c i o v p s = .next t) (ht : t.motorRuns) :
    controllerSteps c i o v p s = slaveToSettings t := by
  have ⟨_, _, _, hpresent, hlen, h7⟩ := hs
  exact controllerSteps_of_evaluated (resetRequest_of_clear hpresent hlen h7 hbit) hs heval ht

/-- After an overcurrent step nothing follows the settings byte (R223, R228). -/
theorem controllerSteps_of_stepped (hs : s.motorRuns)
    (hbit : (Memory.byte s.rb 13).getLsbD s.cfg.resetBit.toNat = false)
    (hover : s.overCurrent c i o v p = true) (hpt : s.ptRemaining = 0)
    (hstep : overCurrentStep s = .next t) (ht : t.motorRuns) (hoc : t.mcOc ≠ .none) :
    controllerSteps c i o v p s = .next t :=
  (controllerSteps_of_clear hs hbit ((evaluateCurrent_of_expired hover hpt).trans hstep) ht).trans
    (slaveToSettings_of_overCurrent hoc)

end Evaluation

/-- Settles O57: the timer restarts, and the last step follows the settings byte or does nothing. -/
theorem motorFollowsTheSettingsWhileNominal : Obligations.MotorFollowsTheSettingsWhileNominal := by
  intro s i o v p hwf hready hbit
  obtain ⟨u, hmod, hmc, hruns, hwfu, hcfg, hoc, hmode, -, hbyte⟩ := exec_mcUpdate_of_ready hwf hready i o v p
  rw [← hbyte, ← hcfg] at hbit
  have ⟨hp, _, _, _, hlen, _⟩ := hruns
  obtain ⟨hspans, -⟩ := u.wf_iff.mp hwfu
  refine ⟨u, hmod, hp, fun hover => ?_⟩
  obtain ⟨t, ht, hframe, hmodet, hread⟩ := slaveToSettings_of_motorRuns (s := u.ptRestarted) hruns
  rw [hmodet] at hframe
  have hrun := controllerSteps_of_clear hruns hbit (evaluateCurrent_of_nominal hover) hruns
  rw [← hcfg, ← hoc, ← hmode, ← hbyte]
  refine ⟨t, hmc.trans (hrun.trans ht), hframe, fun a ha => ?others, (hread 12).trans ?status⟩
  case others => exact (hread a).trans (if_neg fun h12 => ha h12.2)
  case status =>
    have hlisted := Memory.read_of_spans hspans (show 12 < u.rbLen.toNat by omega)
    by_cases hnone : u.mcOc = .none <;> simp [hnone, hlisted]

/-! ## The overcurrent steps -/

/-- The overcurrent state stepped to `x` and shown in the status byte, the drive mode set to `m` (R225, R226,
R229). -/
def State.steppedTo (x : OverCurrent) (m : DriveMode) (s : State) : State :=
  { s with mcOc := x, mcMode := m, rb := s.encodedBytes x, out := s.out ++ hookCalls s.cfg .write 12 1 }

theorem State.read_steppedTo (x : OverCurrent) (m : DriveMode) (s : State) (a : Nat) :
    Memory.read (s.steppedTo x m).rb a =
      if a = 12 then some (maskBits (Memory.byte s.rb 12) s.cfg.ocMask (overCurrentBits s.cfg x))
      else Memory.read s.rb a :=
  Memory.read_write s.rb 12 a _

section OverCurrent

variable {s : State} (h : s.motorRuns)

include h

/-- An overcurrent step begins with a change of the state and the store of its drive mode (R225, R226). -/
theorem mainSteps_setOverCurrent_storeMode {x : OverCurrent} (hx : s.mcOc ≠ x) (m : DriveMode)
    (fs : List (State → Result)) :
    mainSteps (setOverCurrent x :: storeMode m :: fs) s = mainSteps fs (s.steppedTo x m) := by
  obtain ⟨hp, hq, hh, hpresent, hlen, -⟩ := h
  have hset := setOverCurrent_of_quiet (x := x) hp hq hh hpresent (by omega)
  rw [if_neg hx, if_neg hx] at hset
  rw [mainSteps_cons_of_quiet hset hp hq]
  exact mainSteps_cons_of_quiet rfl hp hq

/-- From `None` to `PWM` (R225). -/
theorem overCurrentStep_of_none (hoc : s.mcOc = .none) :
    overCurrentStep s = .next (s.steppedTo .pwm .pwm) := by
  rw [overCurrentStep, if_pos hoc, mainSteps_setOverCurrent_storeMode h (by rw [hoc]; decide), mainSteps_nil]

/-- From `PWM` to `Off`, with Operational cleared (R226). -/
theorem overCurrentStep_of_pwm (hnone : s.mcOc ≠ .none) (hoff : s.mcOc ≠ .off) :
    overCurrentStep s = .next ((s.steppedTo .off .off).statusBitSet operationalBit false) := by
  rw [overCurrentStep, if_neg hnone, mainSteps_setOverCurrent_storeMode h hoff, mainSteps_one]
  obtain ⟨hp, hq, hh, hpresent, hlen, -⟩ := h
  exact statusBit_of_quiet (s := s.steppedTo .off .off) hp hq hh hpresent (Nat.le_of_succ_le hlen)
    (by decide)

end OverCurrent

/-- The status byte in the state `Off`, with Operational cleared (R226, R229). -/
theorem State.read_steppedOff (s : State) (a : Nat) :
    Memory.read ((s.steppedTo .off .off).statusBitSet operationalBit false).rb a =
      if a = 12 then some (maskBits (Memory.byte s.rb 12) s.cfg.ocMask s.cfg.ocOff &&& 0xFD)
      else Memory.read s.rb a := by
  have hshown : Memory.byte (s.steppedTo .off .off).rb 12 =
      maskBits (Memory.byte s.rb 12) s.cfg.ocMask s.cfg.ocOff :=
    Memory.byte_of_read ((s.read_steppedTo _ _ 12).trans (if_pos rfl))
  rw [State.read_statusBitSet, hshown, State.read_steppedTo,
    show operationalBit.toNat = 1 from rfl, setBit_operational_clear]
  split <;> rfl

/-- Settles O58: the timer running, run out in `None`, and run out in `PWM`; after a step nothing follows the
settings byte. -/
theorem overcurrentStepsWhenTheTimerHasRunOut : Obligations.OvercurrentStepsWhenTheTimerHasRunOut := by
  intro s i o v p hwf hready hbit
  obtain ⟨u, hmod, hmc, hruns, -, hcfg, hoc, hmode, hpt, hbyte⟩ := exec_mcUpdate_of_ready hwf hready i o v p
  rw [← hbyte, ← hcfg] at hbit
  have ⟨hp, _⟩ := hruns
  refine ⟨u, hmod, hp, fun hover => ?_⟩
  rw [← hcfg, ← hoc, ← hmode, ← hbyte, ← hpt]
  by_cases hrunning : u.ptRemaining ≠ 0
  · simp only [if_pos hrunning]
    obtain ⟨t, ht, hframe, hmodet, hread⟩ := slaveToSettings_of_motorRuns hruns
    have hrun := controllerSteps_of_clear hruns hbit (evaluateCurrent_of_running hover hrunning) hruns
    have hoct : t.mcOc = u.mcOc := by rw [hframe]
    refine ⟨t, hmc.trans (hrun.trans ht), ?frame, fun a ha => (hread a).trans (if_neg fun h12 => ha h12.2),
      hoct, fun hne => ?kept, fun hnone => ?followed⟩
    case frame =>
      rw [hoct]
      exact hframe
    case kept => exact ⟨hmodet.trans (if_neg hne), (hread 12).trans (if_neg fun h12 => hne h12.1)⟩
    case followed => exact ⟨hmodet.trans (if_pos hnone), (hread 12).trans (if_pos ⟨hnone, rfl⟩)⟩
  · simp only [if_neg hrunning]
    have hstepped {t : State} :=
      controllerSteps_of_stepped (t := t) hruns hbit hover (not_ne_iff.mp hrunning)
    by_cases hnone : u.mcOc = .none
    · have hread := u.read_steppedTo .pwm .pwm
      simp only [if_pos hnone]
      exact ⟨_, hmc.trans (hstepped (overCurrentStep_of_none hruns hnone) hruns nofun), rfl,
        fun a ha => (hread a).trans (if_neg ha), rfl, rfl, (hread 12).trans (if_pos rfl)⟩
    · have hread := u.read_steppedOff
      have hstep := overCurrentStep_of_pwm hruns hnone (State.mcOc_ne_off_of_overCurrent hover)
      simp only [if_neg hnone]
      exact ⟨_, hmc.trans (hstepped hstep hruns nofun), rfl,
        fun a ha => (hread a).trans (if_neg ha), rfl, rfl, (hread 12).trans (if_pos rfl)⟩

/-! ## The reset request -/

/-- After a reset request the timer is as a restart leaves it, so that the evaluation changes nothing: without
overcurrent, and with it where a restarted timer runs (R224, R227, R230). -/
theorem evaluateCurrent_of_restarted {s : State} {c : Bool} {i o v p : Current}
    (hpt : s.ptRemaining = s.cfg.ptTimeout) (hrunning : s.ptRunning = true)
    (h : s.overCurrent c i o v p = false ∨ s.cfg.ptTimeout ≠ 0) :
    evaluateCurrent c i o v p s = .next s := by
  have hrestarted : s.ptRestarted = s := by
    rw [State.ptRestarted, ← hpt, ← hrunning]
  by_cases hover : s.overCurrent c i o v p = true
  · have hne : s.cfg.ptTimeout ≠ 0 := h.resolve_left (by simp [hover])
    exact evaluateCurrent_of_running hover (hpt ▸ hne)
  · rw [evaluateCurrent_of_nominal (by simpa using hover), hrestarted]

/-- Settles O59: the reset request leaves the state `None`, so the last step follows the settings byte. -/
theorem resetRequestRestoresTheMastersMode : Obligations.ResetRequestRestoresTheMastersMode := by
  intro s i o v p hwf hready hbit
  obtain ⟨u, hmod, hmc, hruns, -, hcfg, hoc, -, -, hbyte⟩ := exec_mcUpdate_of_ready hwf hready i o v p
  rw [← hbyte, ← hcfg] at hbit
  have ⟨hp, hq, hh, hpresent, hlen, h7⟩ := hruns
  refine ⟨u, hmod, hp, fun hover => ?_⟩
  rw [← hcfg] at hover
  obtain ⟨r, hr, hframe, hread, hstatus⟩ := resetRequest_of_set hp hq hh hpresent hlen h7 hbit
  have field {α : Type} (f : State → α) := congrArg f hframe
  have hrunsr : r.motorRuns := (field State.motorRuns).mpr hruns
  have hcfgr : r.cfg = u.cfg := field State.cfg
  have heval : evaluateCurrent u.isConnected i o v p r = .next r := by
    refine evaluateCurrent_of_restarted ((field State.ptRemaining).trans (hcfgr ▸ rfl))
      (field State.ptRunning) (hover.imp ?_ fun h => hcfgr ▸ h)
    exact (field fun x => x.overCurrent u.isConnected i o v p).trans
  obtain ⟨t, ht, hframet, hmodet, hreadt⟩ := slaveToSettings_of_motorRuns hrunsr
  have hrun := controllerSteps_of_evaluated hr hrunsr heval hrunsr
  have hocr : r.mcOc = .none := field State.mcOc
  have hkept {a : Nat} (ha : a ≠ 12) : Memory.read t.rb a = Memory.read r.rb a :=
    (hreadt a).trans (if_neg fun h12 => ha h12.2)
  have hsettings : Memory.byte t.rb 13 = setBit (Memory.byte u.rb 13) u.cfg.resetBit.toNat false := by
    refine Memory.byte_of_read ?_
    rw [hkept (by decide), hread 13 (by decide), Memory.read_write_same]
  rw [← hcfg, ← hoc, ← hbyte]
  refine ⟨t, hmc.trans (hrun.trans ht), ?frame, ?mode, fun k hk => ?bits, ?status,
    fun a h12 h13 => ?others⟩
  case frame =>
    exact hframet.trans (field fun x => { x with mcMode := t.mcMode, rb := t.rb, out := t.out })
  case mode =>
    rw [hmodet, if_pos hocr, State.selectedMode, hcfgr, Memory.byte_congr (hkept (a := 13) (by decide))]
  case bits => rw [hsettings, getLsbD_setBit _ _ _ (by omega) k hk]
  case status => rw [hreadt, if_pos ⟨hocr, rfl⟩, hstatus]
  case others => rw [hkept h12, hread a h12, Memory.read_write_other _ _ h13]

end Sys2Proof.Machine

/-! # The timers

What the timer's operations and the queries answer (R190 to R193, R137 to R139, R168, R204), and how long a
restarted timer reports a connection (R194, R195). -/

namespace Sys2Proof.Machine

/-! ## One tick -/

/-- A running count loses one and stays at zero there (R192): the subtraction of `Nat`. -/
theorem State.toNat_ltRemaining_ticked_of_running {s : State} (hr : s.ltRunning = true) :
    s.ticked.ltRemaining.toNat = s.ltRemaining.toNat - 1 := by
  by_cases h : s.ltRemaining = 0
  · rw [State.ltRemaining_ticked, countdown_eq, if_neg fun hc => hc.2 h, h]
    rfl
  · rw [State.ltRemaining_ticked_of_running hr h]
    bv_omega

theorem exec_ltTick_of_live {s : State} (hp : s.panic = none) :
    exec .ltTick s = .next s.clearOut.ticked :=
  exec_of_live (exec_ltTick s) hp rfl

/-- Settles O13: `countdown_eq` for each of the two timers that a tick counts down. -/
theorem timerOperationsChangeTheirCountsOnly : Obligations.TimerOperationsChangeTheirCountsOnly := by
  intro s t hp
  refine ⟨?start, ?assign, ?tick⟩
  case start => exact exec_of_live (exec_ltStart s) hp rfl
  case assign => exact exec_of_live (exec_ltAssign t s) hp rfl
  case tick =>
    rw [exec_ltTick_of_live hp, ← countdown_eq, ← countdown_eq]
    rfl

/-! ## Queries -/

/-- An operation that only puts out a value leaves that one output and the state as it was. -/
theorem exec_of_emits {i : Instr} {s : State} {o : State → Output}
    (hi : exec i s = whenLive s fun s => .next (s.emit (o s))) (hp : s.panic = none) :
    exec i s = .next { s with out := [o s.clearOut] } :=
  exec_of_live hi hp rfl

/-- Settles O14: each query is one output. -/
theorem queriesChangeNothing : Obligations.QueriesChangeNothing := by
  intro s hp
  refine ⟨?connected, ?modConnected, ?expired, ?communicating, ?result, ?lastTransaction⟩
  case connected => exact exec_of_emits (exec_connected s) hp
  case modConnected => exact exec_of_emits (exec_modConnected s) hp
  case expired => exact exec_of_emits (exec_ltExpired s) hp
  case communicating => exact exec_of_emits (exec_hwCommunicating s) hp
  case result => exact exec_of_emits (exec_hwResult s) hp
  case lastTransaction => exact exec_of_emits (exec_hwLastTransaction s) hp

/-! ## Many ticks -/

theorem State.isConnected_eq (s : State) : s.isConnected = decide (0 < s.ltRemaining.toNat) := by
  rw [State.isConnected, decide_eq_decide]
  bv_omega

theorem ticksOf_succ_of_live {s : State} (hp : s.panic = none) (n : Nat) :
    ticksOf (n + 1) s = ticksOf n s.clearOut.ticked := by
  rw [ticksOf, exec_ltTick_of_live hp, andThen_of_live (by exact hp)]

/-- `n` ticks take `n` from a running count, down to zero at most, and leave the timeout (R192, R194). -/
theorem ticksOf_of_running (n : Nat) {s : State} (hp : s.panic = none) (hr : s.ltRunning = true) :
    ∃ t, ticksOf n s = .next t ∧ t.ltRemaining.toNat = s.ltRemaining.toNat - n ∧
      t.cfgTimeout = s.cfgTimeout := by
  induction n generalizing s with
  | zero => exact ⟨s, rfl, rfl, rfl⟩
  | succ n ih =>
    obtain ⟨t, ht, hcount, htimeout⟩ := ih (s := s.clearOut.ticked) hp hr
    refine ⟨t, (ticksOf_succ_of_live hp n).trans ht, ?_, htimeout⟩
    rw [hcount, State.toNat_ltRemaining_ticked_of_running (by exact hr), State.ltRemaining_clearOut,
      Nat.sub_sub, Nat.add_comm]

/-- Settles O15: a restart sets the count to the timeout `T`, so `T - j` is left after `j` ticks. -/
theorem connectedLastsExactlyTheTimeout : Obligations.ConnectedLastsExactlyTheTimeout := by
  intro s hp _
  have hticks (n : Nat) : ∃ t, ticksOf n s.ltRestarted = .next t ∧
      t.isConnected = decide (0 < s.cfgTimeout.toNat - n) ∧ t.cfgTimeout = s.cfgTimeout := by
    obtain ⟨t, ht, hcount, htimeout⟩ := ticksOf_of_running n (s := s.ltRestarted) hp rfl
    exact ⟨t, ht, by rw [State.isConnected_eq, hcount, State.ltRemaining_ltRestarted], htimeout⟩
  refine ⟨fun j hj => ?below, ?atTimeout⟩
  case below =>
    obtain ⟨t, ht, hconnected, htimeout⟩ := hticks j
    exact ⟨t, ht, hconnected.trans (decide_eq_true (Nat.sub_pos_of_lt hj)), htimeout⟩
  case atTimeout =>
    obtain ⟨t, ht, hconnected, -⟩ := hticks s.cfgTimeout.toNat
    exact ⟨t, ht, hconnected.trans (by simp)⟩

end Sys2Proof.Machine

/-! # Panics

Which traffic of the master meets no panic condition: all of it, in a block whose host keeps the boot and hazard
rules (R244). And what an `update` that does panic has done before (R242). -/

namespace Sys2Proof.Machine

/-! ## Master traffic in a booted block -/

/-- A start ends the transaction in flight, if there is one, and goes on in the idle block which that leaves,
still with the boot and hazard rules kept (R132, D31, R244). -/
theorem exists_idle_of_booted {s : State} (hwf : s.wf = true) (hb : s.booted = true) :
    ∃ u : State, u.wf = true ∧ u.booted = true ∧ u.hwCommunicating = false ∧
      ∀ a7 rw, busStart a7 rw s = busStart a7 rw u := by
  cases hc : s.hwCommunicating with
  | false => exact ⟨s, hwf, hb, hc, fun _ _ => rfl⟩
  | true =>
    obtain ⟨u, hu, hub, -⟩ := completeTransaction_of_booted hb
    obtain ⟨hframe, -⟩ := completeTransaction_frame hu
    obtain ⟨hp, -⟩ := u.booted_iff.mp hub
    have hcu : u.hwCommunicating = false := congrArg State.hwCommunicating hframe
    have hwfu : u.wf = true :=
      Keeps.of_forall_rbLen (fun n => (bufferInv_wf n).completeTransaction) s u hwf hu
    refine ⟨u, hwfu, hub, hcu, fun a7 rw => ?_⟩
    rw [busStart_of_busEnd hc ((busEnd_of_inFlight hc).trans hu) hp, busStart_of_idle hp hcu]

theorem busStart_of_booted {s : State} (hwf : s.wf = true) (hb : s.booted = true) (a7 : BusAddr)
    (rw : BusDir) : ∃ t, busStart a7 rw s = .next t ∧ t.booted = true := by
  obtain ⟨u, -, hub, hcu, hstart⟩ := exists_idle_of_booted hwf hb
  obtain ⟨hp, -⟩ := u.booted_iff.mp hub
  rw [hstart, busStart_of_idle hp hcu]
  split
  next => exact ⟨u.begun rw, rfl, hub⟩
  next => exact ⟨u, rfl, hub⟩

/-- A whole master write, whatever its address and however many its bytes: unanswered, or ended in `received` of
the bytes that fit, or refused under `nack` (R91, R99, R135). -/
theorem masterWrite_of_booted {s : State} (hwf : s.wf = true) (hb : s.booted = true) (a7 : BusAddr)
    (f : List Byte) : ∃ t, masterWrite a7 f s = .next t ∧ t.booted = true := by
  obtain ⟨u, hwfu, hub, hcu, hstart⟩ := exists_idle_of_booted hwf hb
  obtain ⟨hp, hcb, -, hst, -⟩ := u.booted_iff.mp hub
  obtain ⟨-, -, -, hrecv⟩ := u.staged_iff.mp hst
  obtain ⟨-, -, hspans, -⟩ := u.wf_iff.mp hwfu
  have hidle : masterWrite a7 f s = masterWrite a7 f u := by simp only [masterWrite, hstart]
  rw [hidle]
  by_cases ha : a7 = u.hwAddr
  · subst ha
    by_cases hfits : f.length ≤ u.rxbLen.toNat
    · rw [masterWrite_of_fits hp hcu hspans hrecv hcb hfits]
      exact received_of_booted (s := u.frameDone f) hub _
    · have hover := Nat.lt_of_not_le hfits
      by_cases hnack : u.cfg.rxOverflow = .nack
      · exact ⟨_, masterWrite_of_refused hp hcu hspans hrecv hover hnack, hub⟩
      · rw [masterWrite_of_truncated hp hcu hspans hrecv hcb hover hnack]
        refine received_of_booted ?_ _
        exact hub
  · exact ⟨u, masterWrite_of_otherSlave hp hcu ha f, hub⟩

/-- A whole master read of at most the `2^LENW - 1` bytes of one transaction (R92, R24). -/
theorem masterRead_of_booted {s : State} (hwf : s.wf = true) (hb : s.booted = true) (a7 : BusAddr)
    {n : Nat} (hn : n ≤ lenMax) : ∃ t, masterRead a7 n s = .next t ∧ t.booted = true := by
  obtain ⟨u, hwfu, hub, hcu, hstart⟩ := exists_idle_of_booted hwf hb
  obtain ⟨hp, hcb, -, hst, -⟩ := u.booted_iff.mp hub
  obtain ⟨-, -, hsend, -⟩ := u.staged_iff.mp hst
  obtain ⟨-, hspans, -⟩ := u.wf_iff.mp hwfu
  have hidle : masterRead a7 n s = masterRead a7 n u := by simp only [masterRead, hstart]
  rw [hidle]
  by_cases ha : a7 = u.hwAddr
  · subst ha
    exact ⟨_, masterRead_of_idle hp hcu hspans hsend hcb hn, hub⟩
  · exact ⟨u, masterRead_of_otherSlave hp hcu ha n, hub⟩

/-- A byte of a master write is stored and counted, or it is an excess byte (R133). -/
theorem busWbyte_of_booted {s : State} (hb : s.booted = true) (hr : s.receiving = true) (b : Byte) :
    ∃ t, busWbyte b s = .next t ∧ t.booted = true := by
  by_cases hfits : s.rxCnt.toNat < s.hwRecvLen.toNat ∧ (Memory.read s.rxb s.rxCnt.toNat).isSome = true
  · obtain ⟨hlt, hlisted⟩ := hfits
    exact ⟨_, busWbyte_of_fits b hr hlt hlisted, hb⟩
  · refine ⟨_, busWbyte_of_excess b hr ?_, hb⟩
    rwa [not_and_or, Nat.not_lt, Option.not_isSome_iff_eq_none] at hfits

/-- What the master can produce in a booted block has a step, and that leaves the block booted (R130, R244). -/
theorem exec_of_masterCan {s : State} {i : Instr} (hwf : s.wf = true) (hb : s.booted = true)
    (hcan : masterCan i s = true) : ∃ t, exec i s = .next t ∧ t.booted = true := by
  obtain ⟨hp, -⟩ := s.booted_iff.mp hb
  have live {f : State → Result} (hi : exec i s = whenLive s f)
      (hf : ∃ t, f s.clearOut = .next t ∧ t.booted = true) :
      ∃ t, exec i s = .next t ∧ t.booted = true := by
    rwa [hi, whenLive_of_live hp]
  cases i with
  | mw a7 f => exact live (exec_mw a7 f s) (masterWrite_of_booted (s := s.clearOut) hwf hb a7 f)
  | mr a7 n =>
    exact live (exec_mr a7 n s)
      (masterRead_of_booted (s := s.clearOut) hwf hb a7 (Nat.le_of_lt_succ n.isLt))
  | mwr a7 a n =>
    refine live (exec_mwr a7 a n s) ?_
    obtain ⟨u, hu, hub⟩ := masterWrite_of_booted (s := s.clearOut) hwf hb a7 [a]
    obtain ⟨hpu, -⟩ := u.booted_iff.mp hub
    have hwfu : u.wf = true :=
      Keeps.of_forall_rbLen (fun k => (bufferInv_wf k).masterWrite a7 [a]) s.clearOut u hwf hu
    rw [hu, andThen_of_live hpu]
    exact masterRead_of_booted hwfu hub a7 (Nat.le_of_lt_succ n.isLt)
  | busStart a7 rw =>
    exact live (exec_busStart a7 rw s) (busStart_of_booted (s := s.clearOut) hwf hb a7 rw)
  | busWbyte b => exact live (exec_busWbyte b s) (busWbyte_of_booted (s := s.clearOut) hb hcan b)
  | busRbyte =>
    obtain ⟨hsending, hroom⟩ := Bool.and_eq_true_iff.mp hcan
    exact live (exec_busRbyte s)
      ⟨_, busRbyte_of_sending (s := s.clearOut) hsending (of_decide_eq_true hroom), hb⟩
  | busEnd =>
    obtain ⟨t, ht, htb, -⟩ := completeTransaction_of_booted (s := s.clearOut) hb
    exact live (exec_busEnd s) ⟨t, (busEnd_of_inFlight (s := s.clearOut) hcan).trans ht, htb⟩
  | busAbort kind =>
    exact live (exec_busAbort kind s) ⟨_, busAbort_of_inFlight (s := s.clearOut) kind hcan, hb⟩
  | _ => cases hcan

/-- Settles O40: the block stays booted, with no panic therefore, and no operation breaks the invariant. -/
theorem masterTrafficNeverPanics : Obligations.MasterTrafficNeverPanics := by
  intro s i hwf hb hcan _
  obtain ⟨t, ht, htb⟩ := exec_of_masterCan hwf hb hcan
  obtain ⟨hp, -⟩ := t.booted_iff.mp htb
  exact ⟨t, ht, hp, htb, blockInv_wf.exec i s t hwf ht⟩

/-! ## An `update` that panics -/

/-- When a resize cannot have its length (R162). -/
theorem State.resizeFails_iff (s : State) (m cap : Nat) :
    s.resizeFails m cap = true ↔ cap < m ∨ lenMax < m ∨ s.allocFail.head? = some true := by
  rw [← Bool.not_eq_false, State.resizeFails_eq_false_iff]
  simp only [not_and_or, Nat.not_le, not_not, or_left_comm]

/-- A send resize that is due and cannot be had ends step 3 (R160, R162). -/
theorem updateStep3_of_sendFails {s : State} (hu : s.rbUsable = true)
    (hsend : s.sbLen.toNat ≠ s.rbLen.toNat + s.cfg.h)
    (hf : s.resizeFails (s.rbLen.toNat + s.cfg.h) s.cfg.capTx = true) :
    updateStep3 s = raise .allocFailure s.allocAsked := by
  rw [updateStep3, if_pos hu, syncSend, if_pos hsend, resizeSend_of_fails hf, andThen_raise]

/-- So does a receive resize, in the state that the first half of the step has left (R160, R162). -/
theorem updateStep3_of_recvFails {s u : State} (hu : s.rbUsable = true) (hsend : syncSend s = .next u)
    (hp : u.panic = none) (hrecv : u.rxbLen.toNat ≠ u.rbLen.toNat + 1)
    (hf : u.resizeFails (u.rbLen.toNat + 1) u.cfg.capRx = true) :
    updateStep3 s = raise .allocFailure u.allocAsked := by
  rw [updateStep3, if_pos hu, hsend, andThen_of_live hp, syncRecv, if_pos hrecv, resizeRecv_of_fails hf]

/-- A panic in step 3 ends the `update`, steps 0 to 2 done (R160, R242). -/
theorem exec_update_of_step3_raise {s u : State} {c : PanicCause} (hq : s.quiet = true)
    (h3 : updateStep3 s.polled = raise c u) : exec .update s = raise c u := by
  obtain ⟨hp, hquiet⟩ := s.quiet_iff.mp hq
  refine exec_of_live (exec_update s) hp ?_
  rw [managerUpdate_of_quiet (by exact hp) (by exact hquiet), State.updateStarted_clearOut,
    mainSteps_cons_of_raise h3]

/-- Step 4 of a buffer shrunk to `last_addr` or below (R163, R284). -/
theorem updateStep4_of_shrunk {s : State} (hu : s.rbUsable = true) (hc : s.hwCommunicating = false)
    (ha : s.rbLen.toNat ≤ s.lastAddr.toNat) : updateStep4 s = raise .outOfBounds s := by
  rw [updateStep4, if_pos (by simp [hu, hc]), refresh_of_unready (.inr (.inr ha)), andThen_raise]

/-- With staged buffers, an undisturbed `update` comes to step 4 as steps 0 to 2 left it (R160). -/
theorem exec_update_of_staged {s : State} (hq : s.quiet = true) (hst : s.staged = true) :
    exec .update s = updateStep4 s.polled ∧ synced s s.polled := by
  obtain ⟨hp, hquiet⟩ := s.quiet_iff.mp hq
  obtain ⟨hsb, hrxb, -⟩ := s.staged_iff.mp hst
  have h3 : updateStep3 s.polled = .next s.polled := updateStep3_of_staged hp (.inr ⟨hsb, hrxb⟩)
  refine ⟨exec_update_of_step3 hq h3 hp hquiet, ?_, ?_⟩
  · rw [if_pos hsb]
    exact ⟨rfl, rfl, rfl, rfl⟩
  · rw [if_pos hrxb]
    exact ⟨rfl, rfl, rfl, rfl⟩

/-- With its staging buffers at their lengths, or able to have them, an `update` comes to step 4 with everything
but the staging buffers as steps 0 to 2 left it (R160). -/
theorem exec_update_of_synced {s : State} (hq : s.quiet = true) (hu : s.rbUsable = true)
    (hsync : s.staged = true ∨ s.canAllocate = true) :
    ∃ v, exec .update s = updateStep4 v ∧ synced s v ∧
      v = { s.polled with
        sbLen := v.sbLen, sb := v.sb, hwSendBuf := v.hwSendBuf, hwSendLen := v.hwSendLen
        rxbLen := v.rxbLen, rxb := v.rxb, hwRecvBuf := v.hwRecvBuf, hwRecvLen := v.hwRecvLen
        draws := v.draws } := by
  obtain hst | hca := hsync
  · obtain ⟨hstep, hsynced⟩ := exec_update_of_staged hq hst
    exact ⟨s.polled, hstep, hsynced, rfl⟩
  · obtain ⟨v, hstep, hsynced, -, hframe⟩ := exec_update_of_canAllocate hq hu hca
    exact ⟨v, hstep, hsynced, hframe⟩

/-- Settles O43: the first half of step 3, the second after a first that had nothing to do and after one that
resized, and step 4. -/
theorem updatePanicsAfterItsEarlierSteps : Obligations.UpdatePanicsAfterItsEarlierSteps := by
  intro s hq hu
  obtain ⟨hp, -⟩ := s.quiet_iff.mp hq
  refine ⟨fun hsend hf => ?send, fun hsend hrecv hf => ?recv,
    fun hsend hrecv hcap hmax hhead hf => ?recvAfterSend, fun hsync hc ha => ?shrunk⟩
  case send =>
    have hfails := (s.polled.resizeFails_iff (s.rbLen.toNat + s.cfg.h) s.cfg.capTx).mpr hf
    exact exec_update_of_step3_raise hq (updateStep3_of_sendFails hu hsend hfails)
  case recv =>
    have hkept : syncSend s.polled = .next s.polled := if_neg (not_not.mpr hsend)
    have hfails := (s.polled.resizeFails_iff (s.rbLen.toNat + 1) s.cfg.capRx).mpr hf
    exact exec_update_of_step3_raise hq (updateStep3_of_recvFails hu hkept hp hrecv hfails)
  case recvAfterSend =>
    have hgets : s.polled.resizeFails (s.rbLen.toNat + s.cfg.h) s.cfg.capTx = false :=
      (State.resizeFails_eq_false_iff _ _ _).mpr ⟨hmax, hcap, hhead⟩
    obtain ⟨u, hsent, hframe, hresized⟩ := syncSend_of_succeeds (s := s.polled) (.inr hgets)
    rw [if_neg (by exact hsend)] at hframe hresized
    have field {α : Type} (p : State → α) := congrArg p hframe
    have hlens : u.rxbLen.toNat ≠ u.rbLen.toNat + 1 :=
      (field fun x => x.rxbLen.toNat ≠ x.rbLen.toNat + 1).mpr hrecv
    have hfails : u.resizeFails (u.rbLen.toNat + 1) u.cfg.capRx = true :=
      (field fun x => x.resizeFails (x.rbLen.toNat + 1) x.cfg.capRx).trans
        ((State.resizeFails_iff { s.polled with allocFail := s.allocFail.tail } _ _).mpr hf)
    have hpu : u.panic = none := (field State.panic).trans hp
    refine ⟨u.allocAsked.panicked .allocFailure,
      exec_update_of_step3_raise hq (updateStep3_of_recvFails hu hsent hpu hlens hfails), hresized, ?_⟩
    exact field fun x => x.allocAsked.panicked .allocFailure
  case shrunk =>
    obtain ⟨v, hstep, hsynced, hframe⟩ := exec_update_of_synced hq hu hsync
    have field {α : Type} (p : State → α) := congrArg p hframe
    have hshrunk : v.rbLen.toNat ≤ v.lastAddr.toNat :=
      (field fun x => x.rbLen.toNat ≤ x.lastAddr.toNat).mpr ha
    refine ⟨v.panicked .outOfBounds, hstep.trans ?_, hsynced, field (State.panicked .outOfBounds)⟩
    exact updateStep4_of_shrunk ((field State.rbUsable).trans hu)
      ((field State.hwCommunicating).trans hc) hshrunk

end Sys2Proof.Machine

/-! # Reset

What `RESET` leaves in every variable, and that it meets the invariant (R270). -/

namespace Sys2Proof.Machine

/-- The bytes of the Register Buffer after reset, one by one: a Module has its status byte set, every other
byte is zero (R270, R34). -/
theorem getElem?_resetBytes (c : Config) (a : Nat) :
    (resetBytes c)[a]? =
      if a < c.rbLen.toNat then
        some (if (c.hasModule && c.rbPresent) = true ∧ a = 12 then 0x03 else 0x00)
      else none := by
  have hzeros : (List.replicate c.rbLen.toNat 0x00#8)[a]? =
      if a < c.rbLen.toNat then some 0x00#8 else none := List.getElem?_replicate
  by_cases hm : (c.hasModule && c.rbPresent) = true
  · have hset : resetBytes c = (List.replicate c.rbLen.toNat 0x00#8).set 12 0x03#8 := if_pos hm
    rw [hset, List.getElem?_set, List.length_replicate, hzeros]
    by_cases ha : a = 12
    · subst ha
      simp [hm]
    · simp [ha, Ne.symm ha]
  · have hzero : resetBytes c = List.replicate c.rbLen.toNat 0x00#8 := if_neg hm
    simp [hzero, hzeros, hm]

/-- Settles O6: `RESET` answers `State.afterReset`, whose fields are the table's values and whose Register
Buffer is made of `resetBytes`. The premise on the configuration (log 26) is not used. -/
theorem resetGivesEveryVariableItsTableValue : Obligations.ResetGivesEveryVariableItsTableValue := by
  intro s _
  have hrb (a : Nat) : Memory.read s.afterReset.rb a = (resetBytes s.cfg)[a]? :=
    Memory.read_ofBytes (resetBytes s.cfg) a
  exact ⟨s.afterReset, exec_reset s, rfl, rfl, rfl,
    fun a => (hrb a).trans (getElem?_resetBytes s.cfg a), rfl⟩

/-- Settles O7: `wf_resetOf`, once for every admitted configuration and once for the one the model names. -/
theorem resetStatesMeetTheInvariant : Obligations.ResetStatesMeetTheInvariant :=
  have hadmitted : resetConfig.wf = true := by decide
  ⟨wf_resetOf hadmitted, fun _ => wf_resetOf⟩

end Sys2Proof.Machine
